-- ==== Sys2Proof/Word.lean ====
section
/-! DEFINITION. The two machine word types: a 32-bit register or bus word, and one byte of memory. -/

namespace Sys2Proof

/-- A register word and a bus address: 32 bits (00_scope.md R7). -/
abbrev Word := BitVec 32

/-- The smallest addressable unit of the frame-buffer space (20_memory.md R60). -/
abbrev Byte := BitVec 8

end Sys2Proof
end

