-- ==== Sys2Proof/Syntax.lean ====
section
/-! DEFINITION. The command set: one constructor per row of spec/opcode_table.json (30_encoding.md R92). -/

namespace Sys2Proof

/-- The six commands. Only `PLOT` carries an operand in its word; the points and the colour come from the
latched snapshot (30_encoding.md R91, R97). -/
inductive Instr
  /-- `NOP` (40_control.md R126). -/
  | nop
  /-- `PLOT` with its coverage field COV (41_pixel_blender.md R144). -/
  | plot (cov : Nat)
  /-- `LINE` (42_line.md R160). -/
  | line
  /-- `MBEGIN` (43_edge_mask.md R182). -/
  | mbegin
  /-- `MEDGE` (43_edge_mask.md R185). -/
  | medge
  /-- `FILL` (44_flood_fill.md R200). -/
  | fill
deriving DecidableEq, Repr

end Sys2Proof
end

