-- ==== Sys2Proof/WellFormed.lean ====
section
/-! DEFINITION. Which command terms the encoding has a word for. -/

namespace Sys2Proof

/-- A coverage must fit the 5-bit field COV, 0..31 (30_encoding.md R90, R99: the assembler rejects any other);
no other command has an operand in its word. -/
def Instr.wellFormed : Instr → Bool
  | .nop => true
  | .plot cov => decide (cov < 32)
  | .line => true
  | .mbegin => true
  | .medge => true
  | .fill => true

/-- The command has a word of its own. -/
abbrev Instr.WellFormed (i : Instr) : Prop := i.wellFormed = true

end Sys2Proof
end

