-- ==== Sys2Proof/Decode.lean ====
section
/-! DEFINITION. Decoding of a command word, total on words and on byte strings, and the encoder
(30_encoding.md R90 to R97). -/

namespace Sys2Proof

/-- `v[lo+len-1 : lo]`, the unsigned field of 00_scope.md R8. -/
def field (v : Word) (lo len : Nat) : Nat := v.toNat / 2 ^ lo % 2 ^ len

/-- Why a word, or a byte string, is no command. The first three are the `ILLEGAL` cases of 30_encoding.md
R94, in its order; the last is a byte string too short to hold a word (a word is always four bytes, R97). -/
inductive DecodeError
  | reservedOpcode
  | reservedBits
  | coverageBits
  | truncated
deriving DecidableEq, Repr

/-- The opcode map of 30_encoding.md R92, on an opcode that R94 has found to be below 6. -/
def ofOpcode (op cov : Nat) : Instr :=
  match op with
  | 0 => .nop
  | 1 => .plot cov
  | 2 => .line
  | 3 => .mbegin
  | 4 => .medge
  | _ => .fill

/-- `decode` of 30_encoding.md R94: the three illegality tests in the spec's order, then the opcode map. -/
def decode (w : Word) : Except DecodeError Instr :=
  if 6 ≤ field w 0 4 then .error .reservedOpcode
  else if field w 9 23 ≠ 0 then .error .reservedBits
  else if field w 0 4 ≠ 1 ∧ field w 4 5 ≠ 0 then .error .coverageBits
  else .ok (ofOpcode (field w 0 4) (field w 4 5))

/-- A register word is little-endian on the bus: bit 0 is in the byte at the lowest address (10_state.md R36). -/
def wordOfBytes (b0 b1 b2 b3 : Byte) : Word :=
  BitVec.ofNat 32 (b0.toNat + 256 * (b1.toNat + 256 * (b2.toNat + 256 * b3.toNat)))

/-- The four bytes of a register word, lowest address first. -/
def bytesOfWord (w : Word) : List Byte :=
  [BitVec.ofNat 8 (field w 0 8), BitVec.ofNat 8 (field w 8 8), BitVec.ofNat 8 (field w 16 8),
    BitVec.ofNat 8 (field w 24 8)]

/-- Decoding a byte string: it always consumes exactly one word, and answers the bytes after it (30_encoding.md R97). -/
def decodeBytes : List Byte → Except DecodeError (Instr × List Byte)
  | b0 :: b1 :: b2 :: b3 :: rest =>
    match decode (wordOfBytes b0 b1 b2 b3) with
    | .ok i => .ok (i, rest)
    | .error e => .error e
  | _ => .error .truncated

/-- The opcode of 30_encoding.md R92. -/
def opcode : Instr → Nat
  | .nop => 0
  | .plot _ => 1
  | .line => 2
  | .mbegin => 3
  | .medge => 4
  | .fill => 5

/-- The COV field of 30_encoding.md R90: it must be 0 for every opcode but `PLOT`. -/
def coverageField : Instr → Nat
  | .nop => 0
  | .plot cov => cov
  | .line => 0
  | .mbegin => 0
  | .medge => 0
  | .fill => 0

/-- The command word of 30_encoding.md R90: OP in [3:0], COV in [8:4], RSV = 0. -/
def encode (i : Instr) : Word := BitVec.ofNat 32 (opcode i + 16 * coverageField i)

/-- The match value of the command's row in 30_encoding.md R93. -/
def rowMatch : Instr → Word
  | .nop => 0x00000000
  | .plot _ => 0x00000001
  | .line => 0x00000002
  | .mbegin => 0x00000003
  | .medge => 0x00000004
  | .fill => 0x00000005

/-- The mask of the command's row in 30_encoding.md R93. -/
def rowMask : Instr → Word
  | .nop => 0xFFFFFFFF
  | .plot _ => 0xFFFFFE0F
  | .line => 0xFFFFFFFF
  | .mbegin => 0xFFFFFFFF
  | .medge => 0xFFFFFFFF
  | .fill => 0xFFFFFFFF

/-- The instruction this decoder reads from an instruction whose bits are `w`, numbered as
spec/opcode_table.json numbers them; bits above `nbits` are 0. -/
def decodeTableWord (nbits w : Nat) : Option Instr :=
  match decodeBytes (bytesOfWord (BitVec.ofNat 32 (w % 2 ^ nbits))) with
  | .ok (i, _) => some i
  | .error _ => none

end Sys2Proof
end

