-- ==== Sys2Proof/Config.lean ====
section
/-! DEFINITION. The implementation parameters of 00_scope.md R6, as plain data that State carries, and the
free values: what the spec leaves unspecified, as constants without a body. -/

namespace Sys2Proof

/-- `P_LINE_ROUND`: rounding of the Wu minor-axis quotient (00_scope.md R6, 42_line.md R165). -/
inductive LineRound
  | nearest
  | trunc
deriving DecidableEq, Repr

/-- One row of the platform predicate `MEM_ADMITS`: it refuses every access of `size` bytes at an address
from `first` to `last`. A finite list of rows expresses every Boolean function of a 32-bit address and an
access size of 1 or 4, so the parameter of 00_scope.md R6 loses nothing by being plain data. -/
structure BusHole where
  first : Nat
  last  : Nat
  size  : Nat
deriving DecidableEq, Repr

/-- The parameters of 00_scope.md R6. No step of the machine changes one. `sideEffects` lists the bus bytes
whose reads have side effects, the platform property that 20_memory.md R67 has a model refuse. -/
structure Config where
  maskBytes   : Nat
  seedDepth   : Nat
  lineRound   : LineRound
  busHoles    : List BusHole
  regBase     : Word
  sideEffects : List Word
deriving DecidableEq, Repr

/-- The legal values of 00_scope.md R6: both capacities at least 1, and a 64-byte-aligned register window. -/
abbrev Config.Legal (c : Config) : Prop :=
  1 ≤ c.maskBytes ∧ 1 ≤ c.seedDepth ∧ c.regBase.toNat % 64 = 0

/-- The values that 00_scope.md R6 uses in the spec's examples; `P_REG_BASE` is "not used (offsets only)"
there, and the top 64 bytes of the bus, away from every frame of the examples, are the model's choice (assumption 2). -/
def Config.specExample : Config :=
  { maskBytes := 8192, seedDepth := 64, lineRound := .nearest, busHoles := [], regBase := 0xFFFFFFC0,
    sideEffects := [] }

/-- A seed: a mask-local pixel (lx, ly) (10_state.md R42). -/
abbrev Seed := Nat × Nat

/-- FREE VALUE: the mask RAM's contents where the spec calls them unspecified (10_state.md R46, 60_exceptions.md R265,
93_implementation_defined.md V2, V3), as the set bits of the RAM; applied to `State.freeCount`. -/
opaque Config.freeMaskBits : Nat → List Nat

/-- FREE VALUE: the seed store where the spec calls it unspecified (10_state.md R46, 44_flood_fill.md R211,
93_implementation_defined.md V5); applied to `State.freeCount`. -/
opaque Config.freeSeeds : Nat → List Seed

/-- FREE VALUE: the words of the latched snapshot after a reset input (10_state.md R46,
93_implementation_defined.md V1); applied to `State.freeCount` and the word's place in the snapshot. -/
opaque Config.freeWord : Nat → Nat → Word

end Sys2Proof
end

