-- ==== Sys2Proof/Machine/State.lean ====
section
/-! DEFINITION. The machine's state as plain data: everything 10_state.md R20 lists, the platform memory the
engine shares with the host, the parameters, and the moves the host and the platform are yet to make. -/

namespace Sys2Proof.Machine

/-- Pixel format, CTRL.FMT (10_state.md R23, 20_memory.md R64). -/
inductive Fmt
  /-- FMT0, RGB888X, 4 bytes a pixel. -/
  | fmt0
  /-- FMT1, RGB222X, 1 byte a pixel. -/
  | fmt1
deriving DecidableEq, Repr

/-- The error codes of 60_exceptions.md R261; codes 8 to 15 are never produced. -/
inductive ErrCode
  | none
  | illegalCmd
  | noMask
  | bboxInvalid
  | maskOverflow
  | seedOverflow
  | align
  | busError
deriving DecidableEq, Repr

/-- CTRL (10_state.md R23): its two fields; bits [31:2] always read as 0. -/
structure Ctrl where
  fmt : Fmt
  ie  : Bool
deriving DecidableEq, Repr

/-- STATUS (10_state.md R24): its fields; bits [31:9] always read as 0. -/
structure Status where
  busy      : Bool
  done      : Bool
  err       : Bool
  ovr       : Bool
  errcode   : ErrCode
  maskValid : Bool
deriving DecidableEq, Repr

/-- The latched snapshot `L` (10_state.md R43). -/
structure Snapshot where
  cmd      : Word
  fmt      : Fmt
  fbBase   : Word
  fbSize   : Word
  fbStride : Word
  color    : Word
  p0       : Word
  p1       : Word
deriving DecidableEq, Repr

/-- One `plotPixel(x, y, cov)` call (41_pixel_blender.md R143), on exact integers. -/
structure Plot where
  x   : Int
  y   : Int
  cov : Nat
deriving DecidableEq, Repr

/-- Where a running `FILL` stands in the loop of 44_flood_fill.md R202, in mask-local coordinates. `lo` is
the spec's `w + 1`, so that it stays a natural number when `w` is −1. -/
inductive FillPos
  /-- At the head of the loop, `while SC > 0`. -/
  | pop
  /-- Step 2 in row `y`, from seed column `x`, now at column `e`. -/
  | right (x y e : Nat)
  /-- Step 3 in row `y`: columns `lo .. e-1` are painted, and `lo - 1` comes next. -/
  | left (y lo e : Nat)
  /-- Step 4 in row `y`, now at column `c`, with the latches `la` and `lb`. -/
  | rows (y c e : Nat) (la lb : Bool)
deriving DecidableEq, Repr

/-- The continuation of a running command (10_state.md R44): the rest of the command. -/
inductive Cont
  /-- Accepted; the next step decodes and runs the start checks (40_control.md R124). -/
  | start
  /-- `PLOT` and `LINE`: the `plotPixel` calls still to be made, in order. -/
  | plots (rest : List Plot)
  /-- The read of a partial `plotPixel` is done, its write of `value` at `addr` comes next, then `rest`. -/
  | blendWrite (addr value : Word) (rest : List Plot)
  /-- `FILL`, at a position of its loop. -/
  | fill (pos : FillPos)
deriving DecidableEq, Repr

/-- The engine's progress state (10_state.md R44). -/
inductive Progress
  | idle
  | running (k : Cont)
deriving DecidableEq, Repr

/-- The direction of an engine access. -/
inductive AccessKind
  | read
  | write
deriving DecidableEq, Repr

/-- One engine access that the bus completed (20_memory.md R65): what another bus agent can see of a command
(10_state.md R21). -/
structure BusAccess where
  kind : AccessKind
  addr : Word
  size : Nat
deriving DecidableEq, Repr

/-- Who makes an access to the frame-buffer space: the host, bound from its `CMD` write until it reads BUSY = 0
(70_reset_and_hazards.md R300), or another bus agent, bound while a command runs (20_memory.md R72). -/
inductive Agent
  | host
  | other
deriving DecidableEq, Repr

/-- One atomic move of an agent (10_state.md R36, R44; 40_control.md R120). -/
inductive Event
  /-- Host read of `size` bytes at window offset `off`. -/
  | rd (off size : Nat)
  /-- Host write of `size` bytes at window offset `off`. -/
  | wr (off size : Nat) (v : Word)
  /-- An agent reads a byte of the frame-buffer space. -/
  | memRd (who : Agent) (a : Word)
  /-- An agent writes a byte of the frame-buffer space, complete at once. -/
  | memWr (who : Agent) (a : Word) (v : Byte)
  /-- The host issues a byte write that is not yet complete at memory (20_memory.md R73). -/
  | memPost (a : Word) (v : Byte)
  /-- The oldest write still in flight completes at memory. -/
  | memDrain
  /-- The host's `WAIT` loop (30_encoding.md R100): read STATUS until BUSY is 0. -/
  | wait
  /-- The engine takes one step of its own (10_state.md R44). -/
  | engine
  /-- The platform's reset input; `lands` says whether the access in flight at that instant lands
  (70_reset_and_hazards.md R290, R291). -/
  | reset (lands : Bool)
deriving DecidableEq, Repr

/-- The state. `cfg` is the parameters; the registers, `latch`, `maskRam`, `seeds` and `progress` are the
block's own state (10_state.md R20); `mem` is the frame-buffer space, listed by address and holding no byte equal to
what an unlisted address reads as. The rest is the model's: `posted` (host writes in flight), `lent` (the snapshots
of the commands accepted since the host last read BUSY = 0, newest first: their frames are the engine's until that
read, 70_reset_and_hazards.md R300), `events` (the moves still to be made before the engine is left to itself),
`hostReads` (values the host has received, newest first), `trace` (engine accesses, newest first), `freeCount` (the
counter of the free values). -/
structure State where
  cfg       : Config
  ctrl      : Ctrl
  status    : Status
  fbBase    : Word
  fbSize    : Word
  fbStride  : Word
  color     : Word
  p0        : Word
  p1        : Word
  maskMin   : Word
  maskMax   : Word
  faultAddr : Word
  latch     : Snapshot
  maskRam   : List Nat
  seeds     : List Seed
  progress  : Progress
  mem       : List Host.Cell
  posted    : List (Word × Byte)
  lent      : List Snapshot
  events    : List Event
  hostReads : List Word
  trace     : List BusAccess
  freeCount : Nat
deriving DecidableEq, Repr

/-- Why a run has no meaning: a fault of the host program. No command raises one; an error of a command is a
next state (60_exceptions.md R260). -/
inductive Fault
  /-- Raised by an access of another bus agent to an in-frame byte while a command runs (20_memory.md R72), and by one of
  the host from the command's acceptance until the host reads BUSY = 0 (70_reset_and_hazards.md R300). Safe: the model stops where the hardware goes on in a way the spec does not give. -/
  | borrowBreach
  /-- Raised by a `CMD` write accepted while a host write to an in-frame byte is still in flight
  (20_memory.md R73). Safe, for the same reason. -/
  | writeInFlight
deriving DecidableEq, Repr

/-- Why the model gives a move no meaning. -/
inductive Refusal
  /-- Raised by an arm of `exec` that has no meaning yet; no arm does. Safe. -/
  | notModelled (mnemonic : String)
  /-- Raised by an access to the register window that is not one aligned 32-bit access inside it, also by one that comes
  as a byte of memory (10_state.md R36: "A model refuses a host program that makes one"). Safe. -/
  | registerAccess
  /-- Raised by a `CMD` write accepted with a frame that holds a byte whose reads have side effects
  (20_memory.md R67: "A model refuses such a platform"). Safe. -/
  | sideEffectMemory
deriving DecidableEq, Repr

/-- STATUS after reset, 0x0000_0000 (10_state.md R46). -/
def Status.reset : Status :=
  { busy := false, done := false, err := false, ovr := false, errcode := .none, maskValid := false }

/-- CTRL after reset, 0x0000_0000 (10_state.md R46). -/
def Ctrl.reset : Ctrl := { fmt := .fmt0, ie := false }

/-- The snapshot in `State.reset`: 10_state.md R46 leaves it unspecified, and zero is the model's choice (assumption 3). -/
def Snapshot.reset : Snapshot :=
  { cmd := 0, fmt := .fmt0, fbBase := 0, fbSize := 0, fbStride := 0, color := 0, p0 := 0, p1 := 0 }

/-- The machine right after reset (10_state.md R46). The mask RAM and the seed store are unspecified there, and empty
is the model's choice (assumption 4); memory lists nothing (assumption 1); no move is pending. -/
def State.reset : State :=
  { cfg := Config.specExample, ctrl := Ctrl.reset, status := Status.reset
    fbBase := 0, fbSize := 0, fbStride := 0, color := 0, p0 := 0, p1 := 0
    maskMin := 0, maskMax := 0, faultAddr := 0, latch := Snapshot.reset
    maskRam := [], seeds := [], progress := .idle
    mem := [], posted := [], lent := [], events := [], hostReads := [], trace := [], freeCount := 0 }

end Sys2Proof.Machine
end

