-- ==== Sys2Proof/Machine/Memory.lean ====
section
/-! DEFINITION. The frame-buffer space as a list of cells in one canonical form, its byte accesses, the
little-endian accesses of the engine, and the mask RAM as its set bits. -/

namespace Sys2Proof.Machine

/-- What an address that no cell lists reads as (assumption 1). -/
def Memory.unlisted : Byte := 0

/-- The byte at an address. -/
def Memory.read : List Host.Cell → Nat → Byte
  | [], _ => Memory.unlisted
  | (b, w) :: m, a => if a = b then w else Memory.read m a

/-- Put a byte in front of a memory, unless it is what an unlisted address reads as. -/
def Memory.cons (a : Nat) (v : Byte) (m : List Host.Cell) : List Host.Cell :=
  if v = Memory.unlisted then m else (a, v) :: m

/-- Write one byte, keeping the canonical form. -/
def Memory.write : List Host.Cell → Nat → Byte → List Host.Cell
  | [], a, v => Memory.cons a v []
  | (b, w) :: m, a, v =>
    if a < b then Memory.cons a v ((b, w) :: m)
    else if a = b then Memory.cons a v m
    else (b, w) :: Memory.write m a v

/-- The canonical form: addresses strictly rising inside the 32-bit space (20_memory.md R60), no cell equal to what an
unlisted address reads as. -/
abbrev Memory.wf (m : List Host.Cell) : Prop :=
  m.Pairwise (fun c d => c.1 < d.1) ∧ ∀ c ∈ m, c.2 ≠ Memory.unlisted ∧ c.1 < 2 ^ 32

/-- `size` bytes at bus address `a` as a little-endian number; each byte address is taken mod 2^32
(00_scope.md R9, 20_memory.md R62, R63). -/
def loadLE (m : List Host.Cell) (a : Nat) : Nat → Nat
  | 0 => 0
  | size + 1 => (Memory.read m (a % 2 ^ 32)).toNat + 256 * loadLE m (a + 1) size

/-- Store the low `size` bytes of `v`, least significant byte at `a` (00_scope.md R9, 20_memory.md R62, R63). -/
def storeLE (m : List Host.Cell) (a v : Nat) : Nat → List Host.Cell
  | 0 => m
  | size + 1 => storeLE (Memory.write m (a % 2 ^ 32) (BitVec.ofNat 8 v)) (a + 1) (v / 256) size

/-- The byte addresses of a `size`-byte access at `a`. -/
def bytesAt (a : Word) (size : Nat) : List Nat :=
  (List.range size).map fun k => (a.toNat + k) % 2 ^ 32

/-- Set one bit of the mask RAM: the set bits are listed in rising order, each once. -/
def MaskRam.set : List Nat → Nat → List Nat
  | [], i => [i]
  | j :: r, i => if i < j then i :: j :: r else if i = j then j :: r else j :: MaskRam.set r i

/-- One bit of the mask RAM. -/
def MaskRam.get (r : List Nat) (i : Nat) : Bool := r.contains i

/-- The canonical form of a mask RAM of `bytes` bytes. -/
abbrev MaskRam.wf (r : List Nat) (bytes : Nat) : Prop :=
  r.Pairwise (· < ·) ∧ ∀ i ∈ r, i < 8 * bytes

/-- A RAM of `bytes` bytes with the listed bits set, in canonical form. -/
def MaskRam.ofBits (bits : List Nat) (bytes : Nat) : List Nat :=
  (bits.filter (fun i => decide (i < 8 * bytes))).foldl MaskRam.set []

end Sys2Proof.Machine
end

