-- ==== Sys2Proof/Machine/Flags.lean ====
section
/-! DEFINITION. STATUS and CTRL as words, the write-one-to-clear rule, error codes, and the interrupt output. The
block has no arithmetic condition codes (10_state.md R47). -/

namespace Sys2Proof.Machine

/-- The number of an error code (60_exceptions.md R261). -/
def ErrCode.number : ErrCode → Nat
  | .none => 0
  | .illegalCmd => 1
  | .noMask => 2
  | .bboxInvalid => 3
  | .maskOverflow => 4
  | .seedOverflow => 5
  | .align => 6
  | .busError => 7

/-- STATUS as it reads: BUSY [0], DONE [1], ERR [2], OVR [3], ERRCODE [7:4], MASK_VALID [8] (10_state.md R24). -/
def Status.word (t : Status) : Word :=
  BitVec.ofNat 32 (t.busy.toNat + 2 * t.done.toNat + 4 * t.err.toNat + 8 * t.ovr.toNat
    + 16 * t.errcode.number + 256 * t.maskValid.toNat)

/-- A host write of `v` to STATUS: DONE, ERR and OVR are cleared where the written bit is 1, and nothing else
changes (10_state.md R24, 40_control.md R121). -/
def Status.writeOneToClear (t : Status) (v : Word) : Status :=
  { t with
    done := t.done && !v.getLsbD 1
    err := t.err && !v.getLsbD 2
    ovr := t.ovr && !v.getLsbD 3 }

/-- CTRL.FMT as a bit (10_state.md R23). -/
def Fmt.bit : Fmt → Bool
  | .fmt0 => false
  | .fmt1 => true

/-- The format a bit selects (10_state.md R23). -/
def Fmt.ofBit : Bool → Fmt
  | false => .fmt0
  | true => .fmt1

/-- CTRL as it reads (10_state.md R23). -/
def Ctrl.word (c : Ctrl) : Word := BitVec.ofNat 32 (c.fmt.bit.toNat + 2 * c.ie.toNat)

/-- A host write of `v` to CTRL; `v[31:2]` is ignored (40_control.md R121). -/
def Ctrl.ofWord (v : Word) : Ctrl := { fmt := Fmt.ofBit (v.getLsbD 0), ie := v.getLsbD 1 }

/-- `IRQ = CTRL.IE ∧ (STATUS.DONE ∨ STATUS.ERR ∨ STATUS.OVR)` at every instant (10_state.md R45, 60_exceptions.md R267). -/
def State.irq (s : State) : Bool := s.ctrl.ie && (s.status.done || s.status.err || s.status.ovr)

end Sys2Proof.Machine
end

