-- ==== Sys2Proof/Machine/Operands.lean ====
section
/-! DEFINITION. Operand assembly, the integer operators of the spec's pseudocode, frame geometry, pixel
containers and channels, and the mask domain. -/

namespace Sys2Proof.Machine

/-- `floor_div(a, b)` for `b > 0` (00_scope.md R9). -/
def floorDiv (a b : Int) : Int := a / b

/-- `trunc_div(a, b)` for `b > 0`: rounds toward zero (00_scope.md R9). -/
def truncDiv (a b : Int) : Int := Int.tdiv a b

/-- `ipart(I) = floor_div(I, 16)` (00_scope.md R10). -/
def ipart (i : Int) : Int := floorDiv i 16

/-- `fpart(I) = I mod 16`, in 0..15 (00_scope.md R10). -/
def fpart (i : Int) : Nat := (i - 16 * ipart i).toNat

/-- `sext_16`, on the number of a 16-bit field (00_scope.md R8). -/
def sext16 (n : Nat) : Int := if n < 32768 then (n : Int) else (n : Int) - 65536

/-- The X field of a point register, signed (10_state.md R29). -/
def coordX (p : Word) : Int := sext16 (field p 0 16)

/-- The Y field of a point register, signed (10_state.md R29). -/
def coordY (p : Word) : Int := sext16 (field p 16 16)

/-- `for v from a to b`: `a, a+1, ..., b`, and nothing when `a > b` (00_scope.md R9). -/
def intRange (a b : Int) : List Int := (List.range (b + 1 - a).toNat).map fun (k : Nat) => a + (k : Int)

/-! ### The operands of a command (30_encoding.md R91) -/

/-- `x0`. -/
def Snapshot.x0 (l : Snapshot) : Int := coordX l.p0
/-- `y0`. -/
def Snapshot.y0 (l : Snapshot) : Int := coordY l.p0
/-- `x1`. -/
def Snapshot.x1 (l : Snapshot) : Int := coordX l.p1
/-- `y1`. -/
def Snapshot.y1 (l : Snapshot) : Int := coordY l.p1

/-! ### Frame geometry (20_memory.md R61, R62, R66) -/

/-- `BPP`: bytes a pixel (20_memory.md R61). -/
def Fmt.bpp : Fmt → Nat
  | .fmt0 => 4
  | .fmt1 => 1

/-- `W` (20_memory.md R61). -/
def Snapshot.width (l : Snapshot) : Nat := field l.fbSize 0 16

/-- `H` (20_memory.md R61). -/
def Snapshot.height (l : Snapshot) : Nat := field l.fbSize 16 16

/-- `inFrame(x, y)`, on exact integers (20_memory.md R61). -/
def Snapshot.inFrame (l : Snapshot) (x y : Int) : Bool :=
  decide (0 ≤ x ∧ x < l.width ∧ 0 ≤ y ∧ y < l.height)

/-- `pixAddr(x, y)`, meant only where `inFrame` holds, so that neither coordinate is negative (20_memory.md R62). -/
def Snapshot.pixAddr (l : Snapshot) (x y : Int) : Word :=
  BitVec.ofNat 32 (l.fbBase.toNat + y.toNat * l.fbStride.toNat + x.toNat * l.fmt.bpp)

/-- FMT0 needs a base and a stride that are multiples of 4, FMT1 nothing (20_memory.md R66). -/
def Snapshot.aligned (l : Snapshot) : Bool :=
  match l.fmt with
  | .fmt0 => decide (l.fbBase.toNat % 4 = 0 ∧ l.fbStride.toNat % 4 = 0)
  | .fmt1 => true

/-- The byte at `a` belongs to an in-frame pixel container: row by row, the `W * BPP` bytes from the row's
start, addresses mod 2^32 (20_memory.md R62, R72). -/
def Snapshot.ownsByte (l : Snapshot) (a : Word) : Bool :=
  (List.range l.height).any fun y =>
    decide ((a - BitVec.ofNat 32 (l.fbBase.toNat + y * l.fbStride.toNat)).toNat < l.width * l.fmt.bpp)

/-- `colC`: the colour as a container value of the latched format (41_pixel_blender.md R143). -/
def Snapshot.colC (l : Snapshot) : Word :=
  match l.fmt with
  | .fmt0 => l.color
  | .fmt1 => BitVec.ofNat 32 (field l.color 0 8)

/-! ### Pixel containers (20_memory.md R64) -/

/-- The three channels. -/
inductive Channel
  | r
  | g
  | b
deriving DecidableEq, Repr

/-- The lowest bit of a channel (20_memory.md R64). -/
def Channel.low : Fmt → Channel → Nat
  | .fmt0, .b => 0
  | .fmt0, .g => 8
  | .fmt0, .r => 16
  | .fmt1, .b => 0
  | .fmt1, .g => 2
  | .fmt1, .r => 4

/-- The width of a channel in bits (20_memory.md R64). -/
def Fmt.channelBits : Fmt → Nat
  | .fmt0 => 8
  | .fmt1 => 2

/-- `ch_c(v)` (20_memory.md R64). -/
def channel (f : Fmt) (c : Channel) (v : Word) : Nat := field v (c.low f) f.channelBits

/-- `set_c(v, n)`, for `n` at most the channel's maximum: the bits above the field, `n` in it, the bits below
(20_memory.md R64). -/
def setChannel (f : Fmt) (c : Channel) (v : Word) (n : Nat) : Word :=
  BitVec.ofNat 32 (v.toNat / 2 ^ (c.low f + f.channelBits) * 2 ^ (c.low f + f.channelBits)
    + n * 2 ^ c.low f + v.toNat % 2 ^ c.low f)

/-- The non-channel bits X of a container (20_memory.md R64). -/
def xBits (f : Fmt) (v : Word) : Nat :=
  match f with
  | .fmt0 => field v 24 8
  | .fmt1 => field v 6 2

/-! ### The mask domain (10_state.md R40, R41) -/

/-- `MINX`. -/
def State.minX (s : State) : Int := coordX s.maskMin
/-- `MINY`. -/
def State.minY (s : State) : Int := coordY s.maskMin

/-- The number of columns or rows between two inclusive corners: `hi − lo + 1`. -/
def extent (lo hi : Int) : Nat := (hi - lo + 1).toNat

/-- `MW` (10_state.md R41). -/
def State.maskWidth (s : State) : Nat := extent (coordX s.maskMin) (coordX s.maskMax)

/-- `MH` (10_state.md R41). -/
def State.maskHeight (s : State) : Nat := extent (coordY s.maskMin) (coordY s.maskMax)

/-- `RB`: the bytes of a mask row, its width padded to a byte boundary (10_state.md R40). -/
def rowBytes (mw : Nat) : Nat := (mw + 7) / 8

/-- The place of local pixel (lx, ly) in the mask RAM, as a bit number: bit `lx mod 8` of byte
`ly*RB + floor_div(lx, 8)` (10_state.md R40). -/
def State.maskBit (s : State) (lx ly : Nat) : Nat :=
  8 * (ly * rowBytes s.maskWidth + lx / 8) + lx % 8

/-- Local pixel (lx, ly) is in the mask domain (10_state.md R41). -/
def State.inMask (s : State) (lx ly : Nat) : Bool :=
  decide (lx < s.maskWidth ∧ ly < s.maskHeight)

end Sys2Proof.Machine
end

