-- ==== Sys2Proof/Machine/Ops.lean ====
section
/-! DEFINITION. The named operations every command is written over: error completion and completion, engine
accesses to memory, the mask RAM, the seed store, acceptance, and the register window. -/

namespace Sys2Proof.Machine

/-! ### Completion (40_control.md R125, 60_exceptions.md R264) -/

/-- `complete()`: BUSY clears, DONE sets, the engine is idle; ERR, OVR and ERRCODE stay (40_control.md R125). -/
def State.complete (s : State) : State :=
  { s with status := { s.status with busy := false, done := true }, progress := .idle }

/-- `raise Error(code)`: the one way a command ends with an error (60_exceptions.md R264). No processor trap, no
vector and no saved context exist, and nothing is restored later (R260, R269): this is all of the block's
exception entry, and it has no exception return. -/
def State.raise (code : ErrCode) (s : State) : State :=
  { s with status := { s.status with errcode := code, err := true, busy := false }, progress := .idle }

/-- Clear MASK_VALID, as a failed `MBEGIN` and the end of a `FILL` do (43_edge_mask.md R182, 44_flood_fill.md R207). -/
def State.dropMask (s : State) : State := { s with status := { s.status with maskValid := false } }

/-- Move the engine to a continuation of the running command (10_state.md R44). -/
def State.goto (k : Cont) (s : State) : State := { s with progress := .running k }

/-! ### Engine accesses to the frame-buffer space (20_memory.md R60 to R68, 60_exceptions.md R266) -/

/-- A hole refuses an access. -/
def BusHole.refuses (h : BusHole) (a : Word) (size : Nat) : Bool :=
  decide (h.first ≤ a.toNat ∧ a.toNat ≤ h.last ∧ h.size = size)

/-- `MEM_ADMITS(addr, n)` (00_scope.md R6, 20_memory.md R68). -/
def Config.admits (c : Config) (a : Word) (size : Nat) : Bool :=
  !(c.busHoles.any fun h => BusHole.refuses h a size)

/-- The bus completes the engine's accesses to a pixel container at `a` (20_memory.md R65, R68). -/
def State.admitsPixel (s : State) (a : Word) : Bool := Config.admits s.cfg a s.latch.fmt.bpp

/-- The container a completed `MemRead(a, BPP)` returns (20_memory.md R65). -/
def State.pixelAt (s : State) (a : Word) : Word := BitVec.ofNat 32 (loadLE s.mem a.toNat s.latch.fmt.bpp)

/-- A completed `MemRead(a, BPP)`: memory is as it was, and other bus agents have seen one read (20_memory.md R65, R67). -/
def State.noteRead (a : Word) (s : State) : State :=
  { s with trace := { kind := .read, addr := a, size := s.latch.fmt.bpp } :: s.trace }

/-- A completed `MemWrite(a, BPP, v)` (20_memory.md R65). -/
def State.writePixel (a v : Word) (s : State) : State :=
  { s with
    mem := storeLE s.mem a.toNat v.toNat s.latch.fmt.bpp
    trace := { kind := .write, addr := a, size := s.latch.fmt.bpp } :: s.trace }

/-- A refused engine access of a command other than `FILL`: FAULT_ADDR records it, memory is as it was, and the
command ends (60_exceptions.md R266). -/
def State.busError (a : Word) (s : State) : State := State.raise .busError { s with faultAddr := a }

/-! ### The mask RAM (10_state.md R40, R41) -/

/-- `mask(lx, ly)` (10_state.md R41). -/
def State.mask (s : State) (lx ly : Nat) : Bool := MaskRam.get s.maskRam (s.maskBit lx ly)

/-- `mask(lx, ly) <- 1` (10_state.md R41). -/
def State.mark (lx ly : Nat) (s : State) : State :=
  { s with maskRam := MaskRam.set s.maskRam (s.maskBit lx ly) }

/-- The mask RAM's contents become unspecified (60_exceptions.md R265, 93_implementation_defined.md V3): a free value within the
RAM's capacity. -/
def State.forgetMask (s : State) : State :=
  { s with
    maskRam := MaskRam.ofBits (Config.freeMaskBits s.freeCount) s.cfg.maskBytes
    freeCount := s.freeCount + 1 }

/-! ### The seed store (10_state.md R42) -/

/-- The seed store's contents become unspecified (44_flood_fill.md R211, 93_implementation_defined.md V5): a free
value within the store's capacity. -/
def State.forgetSeeds (s : State) : State :=
  { s with
    seeds := (Config.freeSeeds s.freeCount).take s.cfg.seedDepth
    freeCount := s.freeCount + 1 }

/-- `push(p)`, newest first; none where it raises `Error(SEED_OVERFLOW)` (10_state.md R42). -/
def State.push? (p : Seed) (s : State) : Option State :=
  if s.seeds.length < s.cfg.seedDepth then some { s with seeds := p :: s.seeds } else none

/-! ### Acceptance and overrun (40_control.md R122, R123) -/

/-- The copies the engine takes when it accepts `v` (10_state.md R43). -/
def State.snapshot (v : Word) (s : State) : Snapshot :=
  { cmd := v, fmt := s.ctrl.fmt, fbBase := s.fbBase, fbSize := s.fbSize, fbStride := s.fbStride
    color := s.color, p0 := s.p0, p1 := s.p1 }

/-- Acceptance of a command word by an idle engine; it does not decode the word (40_control.md R122). From here on the
frame is lent to the engine (70_reset_and_hazards.md R300). -/
def State.accept (v : Word) (s : State) : State :=
  { s with
    latch := s.snapshot v
    lent := s.snapshot v :: s.lent
    status := { s.status with busy := true }
    progress := .running .start }

/-- A `CMD` write to a busy engine is dropped and sets OVR (40_control.md R123). -/
def State.overrun (s : State) : State := { s with status := { s.status with ovr := true } }

/-! ### The register window (10_state.md R22 to R36) -/

/-- A bus address as an offset into the window at `P_REG_BASE` (00_scope.md R6, 20_memory.md R69). -/
def Config.windowOffset (c : Config) (a : Word) : Nat := (a - c.regBase).toNat

/-- The byte at a bus address belongs to the 64-byte register window (00_scope.md R7, 10_state.md R36). -/
def Config.inWindow (c : Config) (a : Word) : Bool := decide (Config.windowOffset c a < 64)

/-- The only host access the block gives a meaning: 32 bits, aligned, at 0x00..0x3C (10_state.md R36). -/
def windowAccess (off size : Nat) : Bool := decide (size = 4 ∧ off % 4 = 0 ∧ off < 0x40)

/-- The value a host read of the register at an offset returns (10_state.md R22 to R35). -/
def State.readReg (s : State) (off : Nat) : Word :=
  match off with
  | 0x00 => 0x57550001
  | 0x04 => s.ctrl.word
  | 0x08 => s.status.word
  | 0x0C => s.fbBase
  | 0x10 => s.fbSize
  | 0x14 => s.fbStride
  | 0x18 => s.color
  | 0x1C => s.p0
  | 0x20 => s.p1
  | 0x28 => s.maskMin
  | 0x2C => s.maskMax
  | 0x30 => s.faultAddr
  | _ => 0

/-- A host write to a register other than `CMD`; read-only and reserved offsets ignore it (40_control.md R121). -/
def State.writeReg (off : Nat) (v : Word) (s : State) : State :=
  match off with
  | 0x04 => { s with ctrl := Ctrl.ofWord v }
  | 0x08 => { s with status := s.status.writeOneToClear v }
  | 0x0C => { s with fbBase := v }
  | 0x10 => { s with fbSize := v }
  | 0x14 => { s with fbStride := v }
  | 0x18 => { s with color := v }
  | 0x1C => { s with p0 := v }
  | 0x20 => { s with p1 := v }
  | _ => s

end Sys2Proof.Machine
end

