-- ==== Sys2Proof/Machine/Control.lean ====
section
/-! DEFINITION. `NOP` (40_control.md R126). -/

namespace Sys2Proof.Machine

/-- The engine's first step of `NOP`: no start check, and `complete()` at once (40_control.md R126). -/
def beginNop (s : State) : State := s.complete

end Sys2Proof.Machine
end

