-- ==== Sys2Proof/Machine/EdgeMask.lean ====
section
/-! DEFINITION. The polygon edge rasterizer: `MBEGIN`, the integer midpoint edge, and `MEDGE` (43_edge_mask.md). Neither
command makes a bus access, so each is one engine step (10_state.md R44). -/

namespace Sys2Proof.Machine

/-- The mask bytes a box needs: `RB * MH` (43_edge_mask.md R181). -/
def boxBytes (x0 y0 x1 y1 : Int) : Nat := rowBytes (extent x0 x1) * extent y0 y1

/-- A failed `MBEGIN` leaves no valid mask and unspecified contents, then raises (43_edge_mask.md R182, 60_exceptions.md R265). -/
def failBegin (code : ErrCode) (s : State) : State := s.dropMask.forgetMask.raise code

/-- A successful `MBEGIN`'s mask: the box's corners, every bit of the domain 0, MASK_VALID set. Bits outside the domain
belong to no mask pixel and no rule reads one (10_state.md R40, R41; 43_edge_mask.md R182; assumption 5). -/
def newMask (s : State) : State :=
  { s with
    maskMin := s.latch.p0
    maskMax := s.latch.p1
    maskRam := []
    status := { s.status with maskValid := true } }

/-- `MBEGIN`: the size checks in the spec's order, then the new mask (43_edge_mask.md R181, R182). -/
def beginMbegin (s : State) : State :=
  if s.latch.x1 < s.latch.x0 ∨ s.latch.y1 < s.latch.y0 then failBegin .bboxInvalid s
  else if s.cfg.maskBytes < boxBytes s.latch.x0 s.latch.y0 s.latch.x1 s.latch.y1 then
    failBegin .maskOverflow s
  else (newMask s).complete

/-- The loop of `midpointEdge` along its dominant axis: position `p` on that axis, `q` on the other, steps `sp`
and `sq`, lengths `ap ≥ aq`, decision value `d`, and `n` steps still to go (43_edge_mask.md R186). -/
def midpointWalk (ap aq sp sq : Int) : Nat → Int → Int → Int → List (Int × Int)
  | 0, _, p, q => [(p, q)]
  | n + 1, d, p, q =>
    if 0 < d then (p, q) :: midpointWalk ap aq sp sq n (d - 2 * ap + 2 * aq) (p + sp) (q + sq)
    else (p, q) :: midpointWalk ap aq sp sq n (d + 2 * aq) (p + sp) q

/-- `+1` when the edge runs up or stays, else `−1` (43_edge_mask.md R186). -/
def stepSign (a0 a1 : Int) : Int := if a0 ≤ a1 then 1 else -1

/-- The pixels `midpointEdge` visits, in order; the x axis is dominant when `ax ≥ ay` (43_edge_mask.md R186). -/
def midpointEdge (x0 y0 x1 y1 : Int) : List (Int × Int) :=
  if (y1 - y0).natAbs ≤ (x1 - x0).natAbs then
    midpointWalk (x1 - x0).natAbs (y1 - y0).natAbs (stepSign x0 x1) (stepSign y0 y1)
      (x1 - x0).natAbs (2 * ((y1 - y0).natAbs : Int) - (x1 - x0).natAbs) x0 y0
  else
    (midpointWalk (y1 - y0).natAbs (x1 - x0).natAbs (stepSign y0 y1) (stepSign x0 x1)
      (y1 - y0).natAbs (2 * ((x1 - x0).natAbs : Int) - (y1 - y0).natAbs) y0 x0).map
      fun v => (v.2, v.1)

/-- `maskSet(x, y)`: a frame pixel outside the mask domain is dropped in silence (43_edge_mask.md R184). -/
def maskSet (v : Int × Int) (s : State) : State :=
  if 0 ≤ v.1 - s.minX ∧ v.1 - s.minX < s.maskWidth ∧ 0 ≤ v.2 - s.minY ∧ v.2 - s.minY < s.maskHeight then
    s.mark (v.1 - s.minX).toNat (v.2 - s.minY).toNat
  else s

/-- Burn visited pixels into the mask, in order (43_edge_mask.md R184, R187). -/
def burn (vs : List (Int × Int)) (s : State) : State := vs.foldl (fun t v => maskSet v t) s

/-- `MEDGE`: the NO_MASK check, then one edge (43_edge_mask.md R185). -/
def beginMedge (s : State) : State :=
  if !s.status.maskValid then s.raise .noMask
  else (burn (midpointEdge s.latch.x0 s.latch.y0 s.latch.x1 s.latch.y1) s).complete

end Sys2Proof.Machine
end

