-- ==== Sys2Proof/Machine/FloodFill.lean ====
section
/-! DEFINITION. The scanline flood fill, one engine step at a time, and `FILL` (44_flood_fill.md). -/

namespace Sys2Proof.Machine

/-- The end-of-fill step of every exit after the start checks: the mask is invalid, and the seed store is
unspecified from here on (44_flood_fill.md R207, R211; 93_implementation_defined.md V5). -/
def State.endFill (s : State) : State := s.dropMask.forgetSeeds

/-- `paint(lx, ly)`, then on to `k`: one write of the colour to the frame image of a local pixel, nothing when
that lies outside the frame; a refused write ends the fill (44_flood_fill.md R204, R207; 60_exceptions.md R266). -/
def paintThen (lx ly : Nat) (k : Cont) (s : State) : State :=
  if !s.latch.inFrame (s.minX + lx) (s.minY + ly) then s.goto k
  else if !s.admitsPixel (s.latch.pixAddr (s.minX + lx) (s.minY + ly)) then
    State.raise .busError
      (State.endFill { s with faultAddr := s.latch.pixAddr (s.minX + lx) (s.minY + ly) })
  else (s.writePixel (s.latch.pixAddr (s.minX + lx) (s.minY + ly)) s.latch.colC).goto k

/-- Step 1: pop a seed and skip it when its bit is set; an empty store ends the fill (44_flood_fill.md R202, R206, R207). -/
def stepPop (s : State) : State :=
  match s.seeds with
  | [] => s.endFill.complete
  | (x, y) :: rest =>
    if s.mask x y then State.goto (.fill .pop) { s with seeds := rest }
    else State.goto (.fill (.right x y x)) { s with seeds := rest }

/-- Step 2, one column: `while e < MW and mask(e, y) = 0` (44_flood_fill.md R202). -/
def stepRight (x y e : Nat) (s : State) : State :=
  if e < s.maskWidth ∧ s.mask e y = false then
    paintThen e y (.fill (.right x y (e + 1))) (s.mark e y)
  else s.goto (.fill (.left y x e))

/-- Step 3, one column: `while w >= 0 and mask(w, y) = 0`, with `lo = w + 1` (44_flood_fill.md R202). -/
def stepLeft (y lo e : Nat) (s : State) : State :=
  match lo with
  | 0 => s.goto (.fill (.rows y 0 e false false))
  | w + 1 =>
    if s.mask w y = false then paintThen w y (.fill (.left y w e)) (s.mark w y)
    else s.goto (.fill (.rows y (w + 1) e false false))

/-- One row of step 4 at column `c`: a run of unset pixels is pushed once, at its first column, by way of the
row's latch. Answers the state and the latch after, none where the push overflows (44_flood_fill.md R202, R205). -/
def seedRow (c y : Nat) (latch : Bool) (s : State) : Option (State × Bool) :=
  if s.mask c y then some (s, false)
  else if latch then some (s, true)
  else (s.push? (c, y)).map fun t => (t, true)

/-- The row above, when there is one (44_flood_fill.md R202). -/
def seedAbove (c y : Nat) (la : Bool) (s : State) : Option (State × Bool) :=
  match y with
  | 0 => some (s, la)
  | up + 1 => seedRow c up la s

/-- The row below, when there is one (44_flood_fill.md R202). -/
def seedBelow (c y : Nat) (lb : Bool) (s : State) : Option (State × Bool) :=
  if y + 1 < s.maskHeight then seedRow c (y + 1) lb s else some (s, lb)

/-- A push that overflows: the end-of-fill step, then `Error(SEED_OVERFLOW)` (44_flood_fill.md R205). -/
def seedOverflow (s : State) : State := s.endFill.raise .seedOverflow

/-- Step 4, one column: the row above, then the row below (44_flood_fill.md R202). -/
def stepRows (y c e : Nat) (la lb : Bool) (s : State) : State :=
  if c < e then
    match seedAbove c y la s with
    | none => seedOverflow s
    | some (s1, la1) =>
      match seedBelow c y lb s1 with
      | none => seedOverflow s1
      | some (s2, lb1) => s2.goto (.fill (.rows y (c + 1) e la1 lb1))
  else s.goto (.fill .pop)

/-- One engine step of a running `FILL`. -/
def stepFill (p : FillPos) (s : State) : State :=
  match p with
  | .pop => stepPop s
  | .right x y e => stepRight x y e s
  | .left y lo e => stepLeft y lo e s
  | .rows y c e la lb => stepRows y c e la lb s

/-- The start of `floodFill`: the store is emptied; a seed outside the mask domain paints nothing, any other is
pushed, which cannot overflow since `P_SEED_DEPTH ≥ 1` (44_flood_fill.md R201). -/
def startFill (lx ly : Int) (s : State) : State :=
  if 0 ≤ lx ∧ lx < s.maskWidth ∧ 0 ≤ ly ∧ ly < s.maskHeight then
    State.goto (.fill .pop) { s with seeds := [(lx.toNat, ly.toNat)] }
  else (State.endFill { s with seeds := [] }).complete

/-- The engine's first step of `FILL`: NO_MASK, then ALIGN, then the fill from the seed's local pixel (44_flood_fill.md R200). -/
def beginFill (s : State) : State :=
  if !s.status.maskValid then s.raise .noMask
  else if !s.latch.aligned then s.raise .align
  else startFill (s.latch.x0 - s.minX) (s.latch.y0 - s.minY) s

end Sys2Proof.Machine
end

