-- ==== Sys2Proof/Machine/Blender.lean ====
section
/-! DEFINITION. The pixel blender: `blend`, `plotPixel` one access at a time, and `PLOT` (41_pixel_blender.md). -/

namespace Sys2Proof.Machine

/-- One blended channel: `o + (((t − o) * cov + 8) >> 4)`, the shift rounding toward −∞ (41_pixel_blender.md R142). -/
def blendChannel (o t cov : Nat) : Nat :=
  ((o : Int) + floorDiv (((t : Int) - o) * cov + 8) 16).toNat

/-- Blend one channel of a container toward the colour's (41_pixel_blender.md R142). -/
def blendOne (f : Fmt) (col : Word) (cov : Nat) (c : Channel) (old new : Word) : Word :=
  setChannel f c new (blendChannel (channel f c old) (channel f c col) cov)

/-- `blend(old, col, cov)`: R, G and B are blended, the X bits of `old` are kept (41_pixel_blender.md R142). -/
def blend (f : Fmt) (old col : Word) (cov : Nat) : Word :=
  blendOne f col cov .b old (blendOne f col cov .g old (blendOne f col cov .r old old))

/-- The engine's step at the head of a list of `plotPixel` calls (41_pixel_blender.md R143): a clipped or
zero-coverage pixel makes no access; a full one is one write; a partial one is a read, and its write is the
next step. An access the bus refuses ends the command (60_exceptions.md R266). -/
def stepPlot (p : Plot) (rest : List Plot) (s : State) : State :=
  if !s.latch.inFrame p.x p.y then s.goto (.plots rest)
  else if p.cov = 0 then s.goto (.plots rest)
  else if !s.admitsPixel (s.latch.pixAddr p.x p.y) then s.busError (s.latch.pixAddr p.x p.y)
  else if 16 ≤ p.cov then
    (s.writePixel (s.latch.pixAddr p.x p.y) s.latch.colC).goto (.plots rest)
  else
    (s.noteRead (s.latch.pixAddr p.x p.y)).goto
      (.blendWrite (s.latch.pixAddr p.x p.y)
        (blend s.latch.fmt (s.pixelAt (s.latch.pixAddr p.x p.y)) s.latch.colC p.cov) rest)

/-- The engine's step at a list of `plotPixel` calls: with none left, the command completes. -/
def stepPlots (ps : List Plot) (s : State) : State :=
  match ps with
  | [] => s.complete
  | p :: rest => stepPlot p rest s

/-- The write of a partial `plotPixel`, after its read (41_pixel_blender.md R143). -/
def stepBlendWrite (a v : Word) (rest : List Plot) (s : State) : State :=
  if s.admitsPixel a then (s.writePixel a v).goto (.plots rest) else s.busError a

/-- The engine's first step of `PLOT`: the ALIGN check, made even when the pixel is out of frame, then one
`plotPixel(x0, y0, cov)` (41_pixel_blender.md R144, 60_exceptions.md R262). -/
def beginPlot (cov : Nat) (s : State) : State :=
  if !s.latch.aligned then s.raise .align
  else s.goto (.plots [{ x := s.latch.x0, y := s.latch.y0, cov := cov }])

end Sys2Proof.Machine
end

