-- ==== Sys2Proof/Machine/Line.lean ====
section
/-! DEFINITION. The line rasterizer: the exact line, the fixed-point Wu line, and `LINE` (42_line.md). -/

namespace Sys2Proof.Machine

/-- `exactLine`: the inclusive axis-aligned segment at full coverage, in increasing order (42_line.md R162). -/
def exactLine (x0 y0 x1 y1 : Int) : List Plot :=
  if x0 = x1 then (intRange (min y0 y1) (max y0 y1)).map fun y => { x := x0, y := y, cov := 16 }
  else (intRange (min x0 x1) (max x0 x1)).map fun x => { x := x, y := y0, cov := 16 }

/-- A Wu line's axes: the major coordinate runs from `a0` to `a1`, the minor from `b0` to `b1` (42_line.md R163). -/
structure WuAxes where
  steep : Bool
  a0 : Int
  b0 : Int
  a1 : Int
  b1 : Int
deriving DecidableEq, Repr

/-- `steep = |y1 − y0| > |x1 − x0|` (42_line.md R163). -/
def isSteep (x0 y0 x1 y1 : Int) : Bool := decide ((x1 - x0).natAbs < (y1 - y0).natAbs)

/-- Step 1: when steep, x and y swap roles (42_line.md R163). -/
def wuSwap (x0 y0 x1 y1 : Int) : WuAxes :=
  if isSteep x0 y0 x1 y1 then { steep := true, a0 := y0, b0 := x0, a1 := y1, b1 := x1 }
  else { steep := false, a0 := x0, b0 := y0, a1 := x1, b1 := y1 }

/-- Step 2: the endpoints in increasing major order (42_line.md R164). -/
def wuOrder (w : WuAxes) : WuAxes :=
  if w.a0 > w.a1 then { steep := w.steep, a0 := w.a1, b0 := w.b1, a1 := w.a0, b1 := w.b0 } else w

/-- The quotient `q` of step 3: round half up, or toward zero (42_line.md R165). -/
def wuQuotient (r : LineRound) (n da : Int) : Int :=
  match r with
  | .nearest => floorDiv (2 * n + da) (2 * da)
  | .trunc => truncDiv n da

/-- The fixed-point minor position `I` at major coordinate `a`, recomputed from the endpoints (42_line.md R165). -/
def wuMinor (r : LineRound) (w : WuAxes) (a : Int) : Int :=
  16 * w.b0 + wuQuotient r (16 * (a - w.a0) * (w.b1 - w.b0)) (w.a1 - w.a0)

/-- A plot at major coordinate `a` and minor coordinate `b` (42_line.md R166). -/
def wuPlot (w : WuAxes) (a b : Int) (cov : Nat) : Plot :=
  if w.steep then { x := b, y := a, cov := cov } else { x := a, y := b, cov := cov }

/-- Step 4: the lower pixel with coverage `16 − f`, then the upper one with `f` (42_line.md R166). -/
def wuStep (r : LineRound) (w : WuAxes) (a : Int) : List Plot :=
  [wuPlot w a (ipart (wuMinor r w a)) (16 - fpart (wuMinor r w a)),
    wuPlot w a (ipart (wuMinor r w a) + 1) (fpart (wuMinor r w a))]

/-- `wuLine`: the steps of the major axis, both endpoints included, in increasing order (42_line.md R163 to R166). -/
def wuLine (r : LineRound) (x0 y0 x1 y1 : Int) : List Plot :=
  (intRange (wuOrder (wuSwap x0 y0 x1 y1)).a0 (wuOrder (wuSwap x0 y0 x1 y1)).a1).flatMap
    (wuStep r (wuOrder (wuSwap x0 y0 x1 y1)))

/-- The `plotPixel` calls of a line, in order: the degenerate test comes before the steep test (42_line.md R160, R161). -/
def linePlots (r : LineRound) (x0 y0 x1 y1 : Int) : List Plot :=
  if x0 = x1 ∨ y0 = y1 then exactLine x0 y0 x1 y1 else wuLine r x0 y0 x1 y1

/-- The engine's first step of `LINE`: the ALIGN check, made before any pixel, then the line's calls (42_line.md
R160, 60_exceptions.md R262). -/
def beginLine (s : State) : State :=
  if !s.latch.aligned then s.raise .align
  else s.goto (.plots (linePlots s.cfg.lineRound s.latch.x0 s.latch.y0 s.latch.x1 s.latch.y1))

end Sys2Proof.Machine
end

