-- ==== Sys2Proof/Machine/Engine.lean ====
section
/-! DEFINITION. The engine's own steps, at most one bus access each (10_state.md R44), and a whole command as the
engine's steps run to idle, which R44 allows where no other agent moves. -/

namespace Sys2Proof.Machine

/-- The first step of a decoded command: its start checks in the order of 60_exceptions.md R262, then the start of its
rule (40_control.md R124). -/
def begin (i : Instr) (s : State) : State :=
  match i with
  | .nop => beginNop s
  | .plot cov => beginPlot cov s
  | .line => beginLine s
  | .mbegin => beginMbegin s
  | .medge => beginMedge s
  | .fill => beginFill s

/-- The engine's first step after acceptance: decode `L.CMD`, and an illegal word raises ILLEGAL_CMD before any
other check (30_encoding.md R94, 40_control.md R124). -/
def firstStep (s : State) : State :=
  match decode s.latch.cmd with
  | .error _ => s.raise .illegalCmd
  | .ok i => begin i s

/-- One engine step; an idle engine does nothing (10_state.md R44, 40_control.md R124). -/
def engineStep (s : State) : State :=
  match s.progress with
  | .idle => s
  | .running .start => firstStep s
  | .running (.plots ps) => stepPlots ps s
  | .running (.blendWrite a v rest) => stepBlendWrite a v rest s
  | .running (.fill p) => stepFill p s

/-- Engine steps until it is idle, `n` at most. -/
def runEngine : Nat → State → State
  | 0, s => s
  | n + 1, s =>
    match s.progress with
    | .idle => s
    | .running _ => runEngine n (engineStep s)

/-- Steps a `FILL` may still take at a position, apart from those its unset pixels and its seeds allow. -/
def posBudget : FillPos → Nat
  | .pop => 0
  | .right x _ e => 11 * (e - x) + 3
  | .left _ lo e => 11 * (e - lo) + 2
  | .rows _ c e _ _ => 11 * (e - c) + 1

/-- A number of engine steps that suffices from a point inside a command: each plot takes at most two; in a
fill, each unset pixel pays for its own paint, its column of step 4 and the seeds pushed there (40_control.md R127). -/
def contBudget (k : Cont) (s : State) : Nat :=
  match k with
  | .start => 0
  | .plots ps => 2 * ps.length + 1
  | .blendWrite _ _ rest => 2 * rest.length + 2
  | .fill p => 12 * (s.maskWidth * s.maskHeight) + 5 * s.seeds.length + posBudget p + 1

/-- The same from the engine's progress state. -/
def budget (s : State) : Nat :=
  match s.progress with
  | .idle => 0
  | .running k => contBudget k s

/-- Run a command that has had its first step to its completion. -/
def finish (s : State) : State := runEngine (budget s) s

end Sys2Proof.Machine
end

