-- ==== Sys2Proof/Machine/Commands.lean ====
section
/-! DEFINITION. The meaning of each command: its first engine step, start checks included, and the engine's steps
to completion. Every command ends in a next state, an error being one of them (60_exceptions.md R260). -/

namespace Sys2Proof.Machine

/-- `NOP` (40_control.md R126). -/
def execNop (s : State) : Host.Outcome State Fault Refusal := .next (finish (beginNop s))

/-- `PLOT` (41_pixel_blender.md R144). -/
def execPlot (cov : Nat) (s : State) : Host.Outcome State Fault Refusal := .next (finish (beginPlot cov s))

/-- `LINE` (42_line.md R160). -/
def execLine (s : State) : Host.Outcome State Fault Refusal := .next (finish (beginLine s))

/-- `MBEGIN` (43_edge_mask.md R182). -/
def execMbegin (s : State) : Host.Outcome State Fault Refusal := .next (finish (beginMbegin s))

/-- `MEDGE` (43_edge_mask.md R185). -/
def execMedge (s : State) : Host.Outcome State Fault Refusal := .next (finish (beginMedge s))

/-- `FILL` (44_flood_fill.md R200). -/
def execFill (s : State) : Host.Outcome State Fault Refusal := .next (finish (beginFill s))

end Sys2Proof.Machine
end

