-- ==== Sys2Proof/Machine/Dispatch.lean ====
section
/-! DEFINITION. The meaning of an instruction: one arm per constructor of Instr, each one direct call. -/

namespace Sys2Proof.Machine

def exec (i : Instr) (s : State) : Host.Outcome State Fault Refusal :=
  match i with
  | .nop => Sys2Proof.Machine.execNop s
  | .plot cov => Sys2Proof.Machine.execPlot cov s
  | .line => Sys2Proof.Machine.execLine s
  | .mbegin => Sys2Proof.Machine.execMbegin s
  | .medge => Sys2Proof.Machine.execMedge s
  | .fill => Sys2Proof.Machine.execFill s

end Sys2Proof.Machine
end

