-- ==== Sys2Proof/Machine/HostAgent.lean ====
section
/-! DEFINITION. The moves of the host and of the platform: register accesses, accesses to the frame-buffer space,
reset, the `WAIT` loop; and the engine's turn (10_state.md R20, R36; 40_control.md R120 to R124). -/

namespace Sys2Proof.Machine

/-- The engine's turn when nothing else moves. An idle engine waits for a `CMD` write (70_reset_and_hazards.md R292);
an accepted command runs whole, which 10_state.md R44 allows as no other agent moves (40_control.md R124). -/
def engineTurn (s : State) : Host.Outcome State Fault Refusal :=
  match s.progress with
  | .idle => .next s
  | .running .start =>
    match decode s.latch.cmd with
    | .error _ => .next (s.raise .illegalCmd)
    | .ok i => exec i s
  | .running (.plots _) => .next (finish s)
  | .running (.blendWrite _ _ _) => .next (finish s)
  | .running (.fill _) => .next (finish s)

/-- A value goes to the host; the block keeps nothing of it (30_encoding.md R98). -/
def State.giveHost (v : Word) (s : State) : State := { s with hostReads := v :: s.hostReads }

/-- A read of STATUS that returns BUSY = 0 gives the frames back to the host (70_reset_and_hazards.md R300, 20_memory.md
R74); no other read does. -/
def State.returnFrames (off : Nat) (s : State) : State :=
  { s with lent := if off = 0x08 ∧ s.status.busy = false then [] else s.lent }

/-- A host read of the window: the register's value, and no side effect on any register (40_control.md R120). -/
def hostRead (off : Nat) (s : State) : State := (s.returnFrames off).giveHost (s.readReg off)

/-- The byte is borrowed by the engine: while a command runs, its frame is, for every agent (20_memory.md R72); for the
host so are the frames of all commands accepted since it last read BUSY = 0 (70_reset_and_hazards.md R300). -/
def State.borrowed (s : State) (who : Agent) (a : Word) : Bool :=
  (s.status.busy && s.latch.ownsByte a) ||
    match who with
    | .host => s.lent.any fun l => l.ownsByte a
    | .other => false

/-- A host write to `CMD`: dropped when busy (40_control.md R123), accepted when idle (R122). Acceptance is an
acquire point: a host write still in flight to a byte of the frame is a fault of the host program
(20_memory.md R73), and a frame with a byte whose reads have side effects is refused (20_memory.md R67). -/
def writeCmd (v : Word) (s : State) : Host.Outcome State Fault Refusal :=
  if s.status.busy then .next s.overrun
  else if s.posted.any fun c => (s.snapshot v).ownsByte c.1 then .fault .writeInFlight
  else if s.cfg.sideEffects.any fun a => (s.snapshot v).ownsByte a then .refused .sideEffectMemory
  else .next (s.accept v)

/-- A host write of the window (40_control.md R121). -/
def hostWrite (off : Nat) (v : Word) (s : State) : Host.Outcome State Fault Refusal :=
  if off = 0x24 then writeCmd v s else .next (s.writeReg off v)

/-- What the host reads at a byte of the frame-buffer space: its own newest write in flight to that byte, else
memory (assumption 8). -/
def State.hostByte (s : State) (a : Word) : Byte :=
  match s.posted.reverse.find? fun c => decide (c.1 = a) with
  | some c => c.2
  | none => Memory.read s.mem a.toNat

/-- Reset (10_state.md R46, 70_reset_and_hazards.md R290, R291): the block's registers take their reset values; what R46
leaves unspecified is free; a running command is abandoned. What is the host's stays, the loan of the frames included:
R300 ends it at the host's next read of BUSY = 0 (assumption 15). Memory keeps every completed write, and when the
access in flight lands, that one too: it is the write, if any, of the engine's next step. -/
def resetInput (lands : Bool) (s : State) : State :=
  { s with
    ctrl := Ctrl.reset
    status := Status.reset
    fbBase := 0, fbSize := 0, fbStride := 0, color := 0, p0 := 0, p1 := 0
    maskMin := 0, maskMax := 0, faultAddr := 0
    latch :=
      { cmd := Config.freeWord s.freeCount 0, fmt := Fmt.ofBit ((Config.freeWord s.freeCount 1).getLsbD 0)
        fbBase := Config.freeWord s.freeCount 2, fbSize := Config.freeWord s.freeCount 3
        fbStride := Config.freeWord s.freeCount 4, color := Config.freeWord s.freeCount 5
        p0 := Config.freeWord s.freeCount 6, p1 := Config.freeWord s.freeCount 7 }
    maskRam := MaskRam.ofBits (Config.freeMaskBits s.freeCount) s.cfg.maskBytes
    seeds := (Config.freeSeeds s.freeCount).take s.cfg.seedDepth
    progress := .idle
    mem := if lands then (engineStep s).mem else s.mem
    trace := if lands then (engineStep s).trace else s.trace
    freeCount := s.freeCount + 1 }

/-- One turn of the `WAIT` loop: while BUSY reads 1 the engine moves on, as weak fairness promises, and the loop
goes round; the read that finds BUSY = 0 ends it (30_encoding.md R100, 70_reset_and_hazards.md R301, R303). -/
def waitTurn (rest : List Event) (s : State) : Host.Outcome State Fault Refusal :=
  if s.status.busy then engineTurn s else .next (hostRead 0x08 { s with events := rest })

/-- Access of one byte: at the register window it is no 32-bit access, and refused (10_state.md R36); to a borrowed
byte it is a fault (20_memory.md R72, 70_reset_and_hazards.md R300); anywhere else it answers `t`. -/
def byteAccess (who : Agent) (a : Word) (s t : State) : Host.Outcome State Fault Refusal :=
  if Config.inWindow s.cfg a then .refused .registerAccess
  else if s.borrowed who a then .fault .borrowBreach
  else .next t

/-- The value an agent's read of memory gives goes to the host when the host reads; what another agent reads is kept
nowhere in the machine. -/
def readBy (who : Agent) (a : Word) (s : State) : State :=
  match who with
  | .host => s.giveHost ((s.hostByte a).setWidth 32)
  | .other => s

/-- One byte of the frame-buffer space read by an agent (20_memory.md R72). -/
def memRead (who : Agent) (a : Word) (s : State) : Host.Outcome State Fault Refusal :=
  byteAccess who a s (readBy who a s)

/-- A byte written and complete at memory. The writes in flight to that byte were issued before it and have landed
before it, so none of them is left: the last write issued to a byte is the one that stays (20_memory.md R75, assumption 8). -/
def State.writeByte (a : Word) (v : Byte) (s : State) : State :=
  { s with
    posted := s.posted.filter fun c => decide (c.1 ≠ a)
    mem := Memory.write s.mem a.toNat v }

/-- One byte written by an agent, complete at once (20_memory.md R72, R75). -/
def memWrite (who : Agent) (a : Word) (v : Byte) (s : State) : Host.Outcome State Fault Refusal :=
  byteAccess who a s (s.writeByte a v)

/-- A byte write the host issues and memory has not completed yet (20_memory.md R73). -/
def memPost (a : Word) (v : Byte) (s : State) : Host.Outcome State Fault Refusal :=
  byteAccess .host a s { s with posted := s.posted ++ [(a, v)] }

/-- The oldest write in flight completes at memory; younger ones, to the same byte too, stay in flight. -/
def memDrain (s : State) : Host.Outcome State Fault Refusal :=
  match s.posted with
  | [] => .next s
  | (a, v) :: rest => byteAccess .host a s { s with posted := rest, mem := Memory.write s.mem a.toNat v }

/-- One move of an agent; `rest` is the moves after it (10_state.md R36, 40_control.md R120). -/
def takeEvent (e : Event) (rest : List Event) (s : State) : Host.Outcome State Fault Refusal :=
  match e with
  | .rd off size =>
    if windowAccess off size then .next (hostRead off { s with events := rest })
    else .refused .registerAccess
  | .wr off size v =>
    if windowAccess off size then hostWrite off v { s with events := rest }
    else .refused .registerAccess
  | .memRd who a => memRead who a { s with events := rest }
  | .memWr who a v => memWrite who a v { s with events := rest }
  | .memPost a v => memPost a v { s with events := rest }
  | .memDrain => memDrain { s with events := rest }
  | .wait => waitTurn rest s
  | .engine => .next (engineStep { s with events := rest })
  | .reset lands => .next (resetInput lands { s with events := rest })

/-- The machine's next move: the first event of the list, or the engine's own turn when none is left. -/
def nextMove (s : State) : Host.Outcome State Fault Refusal :=
  match s.events with
  | [] => engineTurn s
  | e :: rest => takeEvent e rest s

/-- A command word placed so that the very next move runs it: it is accepted, as by a `CMD` write (40_control.md
R122), and no other move comes before the engine's. -/
def loadCommand (v : Word) (s : State) : State := State.accept v { s with events := [] }

end Sys2Proof.Machine
end

