-- ==== Sys2Proof/Machine/Step.lean ====
section
/-! DEFINITION. One step of the machine, and a state whose next step runs a given command word. -/

namespace Sys2Proof.Machine

/-- One step: one atomic move of one agent (10_state.md R20, R36, R44). -/
def step (s : State) : Host.Outcome State Fault Refusal := nextMove s

/-- The state with the instruction word accepted where the next step runs it (assumption 7). -/
def State.withFetchWord (s : State) (nbits w : Nat) : State := loadCommand (BitVec.ofNat 32 (w % 2 ^ nbits)) s

end Sys2Proof.Machine
end

