-- ==== Sys2Proof/Machine/HostProgram.lean ====
section
/-! DEFINITION. The host command-stream assembly (30_encoding.md R98 to R101) as terms and as text, the moves a
program expands to, the disassembly of a command word, and the routing of a bus address to the register window. -/

namespace Sys2Proof.Machine

/-- The register names of 30_encoding.md R98. -/
inductive RegName
  | id
  | ctrl
  | status
  | fbBase
  | fbSize
  | fbStride
  | color
  | p0
  | p1
  | cmd
  | maskMin
  | maskMax
  | faultAddr
deriving DecidableEq, Repr

/-- The word offset of a register in the window (10_state.md, the table before R22). -/
def RegName.offset : RegName → Nat
  | .id => 0x00
  | .ctrl => 0x04
  | .status => 0x08
  | .fbBase => 0x0C
  | .fbSize => 0x10
  | .fbStride => 0x14
  | .color => 0x18
  | .p0 => 0x1C
  | .p1 => 0x20
  | .cmd => 0x24
  | .maskMin => 0x28
  | .maskMax => 0x2C
  | .faultAddr => 0x30

/-- One statement of a host program: the two primitives of 30_encoding.md R98 and the pseudo-instructions of R100. -/
inductive Stmt
  | wr (r : RegName) (v : Word)
  | rd (r : RegName)
  | nop
  | plot (x y : Int) (cov : Nat)
  | line (x0 y0 x1 y1 : Int)
  | mbegin (x0 y0 x1 y1 : Int)
  | medge (x0 y0 x1 y1 : Int)
  | fill (x y : Int)
  | setColor (c : Word)
  | setFb (base : Word) (w h : Nat) (stride : Word)
  | setCtrl (fmt ie : Nat)
  | wait
  | clrst
  | polymask (points : List (Int × Int))
deriving DecidableEq, Repr

/-- A coordinate the assembler takes (30_encoding.md R99). -/
def inCoordRange (a : Int) : Bool := decide (-32768 ≤ a ∧ a ≤ 32767)

/-- `pt(x, y) = ((y mod 2^16) << 16) OR (x mod 2^16)`; the assembler rejects a coordinate outside its range (30_encoding.md R99). -/
def pt (x y : Int) : Option Word :=
  if inCoordRange x && inCoordRange y then
    some (BitVec.ofNat 32 (((y % 65536).toNat <<< 16) ||| (x % 65536).toNat))
  else none

/-- `wr NAME, v` as the host's move: one 32-bit write (10_state.md R36). -/
def writeTo (r : RegName) (v : Word) : Event := .wr r.offset 4 v

/-- The expansion of a command with two points (30_encoding.md R100). -/
def twoPoints (x0 y0 x1 y1 : Int) (word : Word) : Option (List Event) := do
  let a ← pt x0 y0
  let b ← pt x1 y1
  pure [writeTo .p0 a, writeTo .p1 b, writeTo .cmd word]

/-- The edges of `POLYMASK`, each followed by `WAIT`: `from` to the next point, and at the last point back to
`first` (30_encoding.md R100, 43_edge_mask.md R191). -/
def polyEdges (first : Int × Int) : Int × Int → List (Int × Int) → Option (List Event)
  | a, [] => do
    let e ← twoPoints a.1 a.2 first.1 first.2 0x00000004
    pure (e ++ [.wait])
  | a, b :: rest => do
    let e ← twoPoints a.1 a.2 b.1 b.2 0x00000004
    let more ← polyEdges first b rest
    pure (e ++ [.wait] ++ more)

/-- The moves a statement expands to, none where the assembler rejects it. `WAIT` stands for its whole loop; an
empty polygon issues no command (30_encoding.md R99, R100; 43_edge_mask.md R191). -/
def Stmt.expand : Stmt → Option (List Event)
  | .wr r v => some [writeTo r v]
  | .rd r => some [.rd r.offset 4]
  | .nop => some [writeTo .cmd 0x00000000]
  | .plot x y cov =>
    if cov < 32 then do
      let a ← pt x y
      pure [writeTo .p0 a, writeTo .cmd (BitVec.ofNat 32 ((cov <<< 4) ||| 0x1))]
    else none
  | .line x0 y0 x1 y1 => twoPoints x0 y0 x1 y1 0x00000002
  | .mbegin x0 y0 x1 y1 => twoPoints x0 y0 x1 y1 0x00000003
  | .medge x0 y0 x1 y1 => twoPoints x0 y0 x1 y1 0x00000004
  | .fill x y => do
    let a ← pt x y
    pure [writeTo .p0 a, writeTo .cmd 0x00000005]
  | .setColor c => some [writeTo .color c]
  | .setFb base w h stride =>
    some [writeTo .fbBase base, writeTo .fbSize (BitVec.ofNat 32 ((h <<< 16) ||| w)), writeTo .fbStride stride]
  | .setCtrl fmt ie => some [writeTo .ctrl (BitVec.ofNat 32 ((ie <<< 1) ||| fmt))]
  | .wait => some [.wait]
  | .clrst => some [writeTo .status 0x0000000E]
  | .polymask [] => some []
  | .polymask (a :: rest) => polyEdges a a rest

/-- The moves of a program, in order; the assembler inserts no `WAIT` (30_encoding.md R100). DESIGN CHOICE: a program that
holds one rejected statement is rejected whole; 30_encoding.md R99 says only that such a statement has no encoding
(assumption 18). -/
def assemble : List Stmt → Option (List Event)
  | [] => some []
  | st :: rest => do
    let e ← st.expand
    let more ← assemble rest
    pure (e ++ more)

/-! ### Disassembly (30_encoding.md R101) -/

/-- The mnemonic of a command (30_encoding.md R92). -/
def mnemonic : Instr → String
  | .nop => "NOP"
  | .plot _ => "PLOT"
  | .line => "LINE"
  | .mbegin => "MBEGIN"
  | .medge => "MEDGE"
  | .fill => "FILL"

/-- A hexadecimal digit. -/
def hexDigit (n : Nat) : Char :=
  if n < 10 then Char.ofNat (48 + n) else Char.ofNat (55 + n)

/-- The lowest `digits` hexadecimal digits of a number, most significant first. -/
def hexDigits : Nat → Nat → List Char
  | 0, _ => []
  | digits + 1, n => hexDigits digits (n / 16) ++ [hexDigit (n % 16)]

/-- The text of a command word: its mnemonic, for `PLOT` also `cov=<n>`, and `.illegal 0x<word>` for an illegal one
(30_encoding.md R101). DESIGN CHOICE: one blank separates
the mnemonic from `cov=`, and the word has eight digits (assumption 9). -/
def disassemble (w : Word) : String :=
  match decode w with
  | .ok (.plot cov) => mnemonic (.plot cov) ++ " cov=" ++ toString cov
  | .ok i => mnemonic i
  | .error _ => ".illegal 0x" ++ String.ofList (hexDigits 8 w.toNat)

/-! ### The register window on the bus (00_scope.md R6, 20_memory.md R60, R69) -/

/-- Some byte of a `size`-byte access at `a` belongs to the register window. -/
def touchesWindow (c : Config) (a : Word) (size : Nat) : Bool :=
  (List.range size).any fun k => Config.inWindow c (a + BitVec.ofNat 32 k)

/-- The moves of a host bus read of `size` bytes: an access that touches the window is one register access, refused
unless it is aligned, 32 bits wide and inside (10_state.md R36); any other goes to memory byte by byte. -/
def busRead (c : Config) (a : Word) (size : Nat) : List Event :=
  if touchesWindow c a size then [.rd (Config.windowOffset c a) size]
  else (List.range size).map fun k => .memRd .host (a + BitVec.ofNat 32 k)

/-- The moves of a host bus write of `size` bytes, least significant byte at the lowest address; the window as for reads. -/
def busWrite (c : Config) (a : Word) (size : Nat) (v : Word) : List Event :=
  if touchesWindow c a size then [.wr (Config.windowOffset c a) size v]
  else (List.range size).map fun k => .memWr .host (a + BitVec.ofNat 32 k) (BitVec.ofNat 8 (v.toNat / 256 ^ k))

end Sys2Proof.Machine
end

