-- ==== Sys2Proof/Safety.lean ====
section
/-! DEFINITION. The invariant of the machine, and what counts as a safe run. -/

namespace Sys2Proof.Machine

/-- The engine runs a command. -/
def Progress.isRunning : Progress → Bool
  | .idle => false
  | .running _ => true

/-- BUSY is set exactly while a command runs: acceptance and completion change both in one step
(40_control.md R122, R125; 60_exceptions.md R264). -/
abbrev State.BusyAgrees (s : State) : Prop := s.status.busy = s.progress.isRunning

/-- The seed store never holds more than its capacity (10_state.md R42). -/
abbrev State.SeedsFit (s : State) : Prop := s.seeds.length ≤ s.cfg.seedDepth

/-- A valid mask has ordered corners and fits the mask RAM (10_state.md R41, 43_edge_mask.md R181). -/
abbrev State.MaskFits (s : State) : Prop :=
  s.status.maskValid = true →
    1 ≤ s.maskWidth ∧ 1 ≤ s.maskHeight ∧ rowBytes s.maskWidth * s.maskHeight ≤ s.cfg.maskBytes

/-- A fill position lies in a domain of `mw` columns and `mh` rows (44_flood_fill.md R202). -/
def FillPos.inDomain (mw mh : Nat) : FillPos → Bool
  | .pop => true
  | .right x y e => decide (x < mw ∧ y < mh ∧ x ≤ e ∧ e ≤ mw)
  | .left y lo e => decide (y < mh ∧ lo ≤ e ∧ e ≤ mw)
  | .rows y c e _ _ => decide (y < mh ∧ c ≤ e ∧ e ≤ mw)

/-- A running fill holds a valid mask, a position and seeds inside the mask domain (44_flood_fill.md R201, R202). -/
def State.fillInDomain (s : State) : Bool :=
  match s.progress with
  | .running (.fill p) =>
    s.status.maskValid && p.inDomain s.maskWidth s.maskHeight && s.seeds.all fun q => s.inMask q.1 q.2
  | _ => true

/-- Every access a running command is about to make is naturally aligned (20_memory.md R66). -/
def State.accessAligned (s : State) : Bool :=
  match s.progress with
  | .running (.plots _) => s.latch.aligned
  | .running (.blendWrite a _ _) => s.latch.aligned && decide (a.toNat % s.latch.fmt.bpp = 0)
  | .running (.fill _) => s.latch.aligned
  | _ => true

/-- While a command runs, its frame is lent to the engine (20_memory.md R72, 70_reset_and_hazards.md R300). -/
abbrev State.FrameLent (s : State) : Prop := s.status.busy = true → s.latch ∈ s.lent

/-- While a command runs, no host write is in flight to a byte of its frame: acceptance found none (20_memory.md R73), and
none is issued since (R72). So the memory that the command reads there is the memory as the host has left it (R75). -/
abbrev State.FrameQuiet (s : State) : Prop :=
  s.status.busy = true → ∀ c ∈ s.posted, s.latch.ownsByte c.1 = false

/-- The machine's invariant. -/
structure State.Inv (s : State) : Prop where
  config : s.cfg.Legal
  memory : Memory.wf s.mem
  maskRam : MaskRam.wf s.maskRam s.cfg.maskBytes
  busy : s.BusyAgrees
  seeds : s.SeedsFit
  maskFits : s.MaskFits
  fill : s.fillInDomain = true
  aligned : s.accessAligned = true
  lent : s.FrameLent
  quiet : s.FrameQuiet

/-- A run is safe when the host program never breaks its duties: no fault within `n` steps (20_memory.md R72, R73). -/
def State.SafeFor (n : Nat) (s : State) : Prop := ∀ f, Sys2Proof.core.run n s ≠ .fault f

end Sys2Proof.Machine
end

