-- ==== Sys2Proof/Certificates/Slice0/Vocabulary.lean ====
section
/-! DEFINITION. The words the statements are written in: what commands leave alone, a whole `plotPixel` call, the
pixels a fill reaches. -/

namespace Sys2Proof.Machine

/-- What no command changes: the parameters, every register the host writes, the snapshot, and the host's own
side (10_state.md R25 to R30, R43; 40_control.md R125). -/
structure State.SameHostSide (s t : State) : Prop where
  cfg       : t.cfg = s.cfg
  ctrl      : t.ctrl = s.ctrl
  fbBase    : t.fbBase = s.fbBase
  fbSize    : t.fbSize = s.fbSize
  fbStride  : t.fbStride = s.fbStride
  color     : t.color = s.color
  p0        : t.p0 = s.p0
  p1        : t.p1 = s.p1
  latch     : t.latch = s.latch
  posted    : t.posted = s.posted
  lent      : t.lent = s.lent
  events    : t.events = s.events
  hostReads : t.hostReads = s.hostReads
  ovr       : t.status.ovr = s.status.ovr

/-- The mask's corners and bits, MASK_VALID, the seed store and the free-value counter are as before. -/
structure State.SameMask (s t : State) : Prop where
  maskMin   : t.maskMin = s.maskMin
  maskMax   : t.maskMax = s.maskMax
  maskRam   : t.maskRam = s.maskRam
  maskValid : t.status.maskValid = s.status.maskValid
  seeds     : t.seeds = s.seeds
  freeCount : t.freeCount = s.freeCount

/-- Memory, the bus trace and FAULT_ADDR are as before. -/
structure State.SameBus (s t : State) : Prop where
  mem       : t.mem = s.mem
  trace     : t.trace = s.trace
  faultAddr : t.faultAddr = s.faultAddr

/-- A `plotPixel` call makes an access: the pixel is in the frame and its coverage is not 0 (41_pixel_blender.md R140, R141). -/
def State.touches (s : State) (p : Plot) : Bool := s.latch.inFrame p.x p.y && decide (p.cov ≠ 0)

/-- The address a `plotPixel` call accesses (20_memory.md R62). -/
def State.plotAddr (s : State) (p : Plot) : Word := s.latch.pixAddr p.x p.y

/-- The bus completes every access of a `plotPixel` call. -/
def State.admitsPlot (s : State) (p : Plot) : Bool := !s.touches p || s.admitsPixel (s.plotAddr p)

/-- A whole `plotPixel(x, y, cov)` with every access completed (41_pixel_blender.md R143): nothing; or one write of the
colour; or one read, then one write of the blend. -/
def State.plotted (p : Plot) (s : State) : State :=
  if !s.touches p then s
  else if 16 ≤ p.cov then s.writePixel (s.plotAddr p) s.latch.colC
  else
    (s.noteRead (s.plotAddr p)).writePixel (s.plotAddr p)
      (blend s.latch.fmt (s.pixelAt (s.plotAddr p)) s.latch.colC p.cov)

/-- `plotPixel` calls one after another. -/
def State.plottedAll (ps : List Plot) (s : State) : State := ps.foldl (fun t p => State.plotted p t) s

/-- The plot of a `PLOT` command with coverage `cov`. -/
def State.thePlot (s : State) (cov : Nat) : Plot := { x := s.latch.x0, y := s.latch.y0, cov := cov }

/-- The plots of a `LINE` command. -/
def State.theLine (s : State) : List Plot :=
  linePlots s.cfg.lineRound s.latch.x0 s.latch.y0 s.latch.x1 s.latch.y1

/-- The pixels a `MEDGE` command visits. -/
def State.theEdge (s : State) : List (Int × Int) := midpointEdge s.latch.x0 s.latch.y0 s.latch.x1 s.latch.y1

/-- A mask-domain pixel whose bit is 0. -/
def State.Unset (s : State) (lx ly : Nat) : Prop := s.inMask lx ly = true ∧ s.mask lx ly = false

/-- Two local pixels share an edge. -/
def Adjacent (x y u v : Nat) : Prop :=
  (y = v ∧ (x + 1 = u ∨ u + 1 = x)) ∨ (x = u ∧ (y + 1 = v ∨ v + 1 = y))

/-- `C` of 44_flood_fill.md R208: the 4-connected component, among the mask-domain pixels whose bit is 0, that
holds the command's seed; empty when the seed lies outside the domain or on a set bit. -/
inductive State.Component (s : State) : Nat → Nat → Prop
  | seed (lx ly : Nat) : s.minX + lx = s.latch.x0 → s.minY + ly = s.latch.y0 → s.Unset lx ly →
      State.Component s lx ly
  | step (lx ly u v : Nat) : State.Component s lx ly → Adjacent lx ly u v → s.Unset u v →
      State.Component s u v

/-- The frame image of a local pixel lies in the frame (44_flood_fill.md R204). -/
def State.imageInFrame (s : State) (lx ly : Nat) : Bool := s.latch.inFrame (s.minX + lx) (s.minY + ly)

/-- The bus address of the frame image of a local pixel (44_flood_fill.md R204). -/
def State.imageAddr (s : State) (lx ly : Nat) : Word := s.latch.pixAddr (s.minX + lx) (s.minY + ly)

/-- The result of 44_flood_fill.md R208: (a) exactly the component's bits are set; (b) one write for each of its
in-frame pixels, and no other access; (c) exactly those pixels take the colour. -/
structure State.FillPainted (s t : State) : Prop where
  marks : ∀ lx ly, s.inMask lx ly = true →
    (t.mask lx ly = true ↔ s.mask lx ly = true ∨ s.Component lx ly)
  writes : ∃ order : List Seed, order.Nodup ∧
    (∀ p, p ∈ order ↔ s.Component p.1 p.2 ∧ s.imageInFrame p.1 p.2 = true) ∧
    t.trace = order.map (fun p => { kind := .write, addr := s.imageAddr p.1 p.2, size := s.latch.fmt.bpp })
      ++ s.trace
  colour : ∀ lx ly, s.Component lx ly → s.imageInFrame lx ly = true →
    t.pixelAt (s.imageAddr lx ly) = s.latch.colC
  others : ∀ b : Nat, (∀ lx ly, s.Component lx ly → s.imageInFrame lx ly = true →
      b ∉ bytesAt (s.imageAddr lx ly) s.latch.fmt.bpp) →
    Memory.read t.mem b = Memory.read s.mem b

/-- The seeds step 4 pushes at column `c` of row `y` with the latches `la` and `lb`, newest first: one in the row above,
then one in the row below, each where that row exists, its bit at `c` is 0 and its latch is off (44_flood_fill.md R202). -/
def State.pushesAt (s : State) (y c : Nat) (la lb : Bool) : List Seed :=
  (if y + 1 < s.maskHeight ∧ s.mask c (y + 1) = false ∧ lb = false then [(c, y + 1)] else []) ++
    (if 0 < y ∧ s.mask c (y - 1) = false ∧ la = false then [(c, y - 1)] else [])

/-- The byte at `b` belongs to an in-frame pixel container (20_memory.md R72). -/
def Snapshot.Holds (l : Snapshot) (b : Nat) : Prop :=
  ∃ x y : Int, l.inFrame x y = true ∧ b ∈ bytesAt (l.pixAddr x y) l.fmt.bpp

/-- The byte at `a` is the engine's for that agent: of the running command's frame, for every agent (20_memory.md R72); for
the host also of the frame of a command accepted since it last read BUSY = 0 (70_reset_and_hazards.md R300). -/
def State.LentByte (s : State) (who : Agent) (a : Word) : Prop :=
  (s.status.busy = true ∧ s.latch.Holds a.toNat) ∨ (who = .host ∧ ∃ l ∈ s.lent, l.Holds a.toNat)

/-- The most bus accesses a command makes (40_control.md R127). -/
def accessBound (i : Instr) (s : State) : Nat :=
  match i with
  | .nop => 0
  | .plot _ => 2
  | .line => 4 * (max (s.latch.x1 - s.latch.x0).natAbs (s.latch.y1 - s.latch.y0).natAbs + 1)
  | .mbegin => 0
  | .medge => 0
  | .fill => s.maskWidth * s.maskHeight

end Sys2Proof.Machine
end

