-- ==== Sys2Proof/Certificates/Slice0/Obligations.lean ====
section
/-! DEFINITION. The statements for the provers, each formalising rules of the spec or, where its docstring says so,
a choice of the model. -/

open Sys2Proof Sys2Proof.Machine Host

/-! ### Encoding (30_encoding.md) -/

/-- R94, R97: every well-formed command's word decodes to it, and from bytes on the bus a decoder consumes exactly
that word. -/
def Obligations.DecodeOfEncodeIsTheCommand : Prop :=
  ∀ (i : Instr) (rest : List Byte), i.WellFormed →
    decode (encode i) = .ok i ∧ decodeBytes (bytesOfWord (encode i) ++ rest) = .ok (i, rest)

/-- R93, R94: a legal word has one reading, and that command encodes to exactly this word: no bit is dropped. -/
def Obligations.EncodeOfDecodeIsTheWord : Prop :=
  ∀ (w : Word) (i : Instr), decode w = .ok i → i.WellFormed ∧ encode i = w

/-- R93: the match and mask pairs of the six rows: a word decodes to a row's command exactly when it matches that row, so a
word is legal exactly when it matches one, and no word matches two. -/
def Obligations.LegalWordsMatchExactlyOneRow : Prop :=
  ∀ w : Word,
    (decode w = .ok .nop ↔ w &&& 0xFFFFFFFF = 0x00000000) ∧
    (∀ cov, decode w = .ok (.plot cov) ↔ w &&& 0xFFFFFE0F = 0x00000001 ∧ cov = field w 4 5) ∧
    (decode w = .ok .line ↔ w &&& 0xFFFFFFFF = 0x00000002) ∧
    (decode w = .ok .mbegin ↔ w &&& 0xFFFFFFFF = 0x00000003) ∧
    (decode w = .ok .medge ↔ w &&& 0xFFFFFFFF = 0x00000004) ∧
    (decode w = .ok .fill ↔ w &&& 0xFFFFFFFF = 0x00000005) ∧
    ((∃ i, decode w = .ok i) ↔
      ∃ r ∈ ([(0x00000000, 0xFFFFFFFF), (0x00000001, 0xFFFFFE0F), (0x00000002, 0xFFFFFFFF),
          (0x00000003, 0xFFFFFFFF), (0x00000004, 0xFFFFFFFF), (0x00000005, 0xFFFFFFFF)] : List (Word × Word)),
        w &&& r.2 = r.1)

/-- R94, R95, R96: a word with a reserved opcode, a nonzero RSV field, or a nonzero COV field outside `PLOT` decodes to
no command, and running it raises ILLEGAL_CMD and changes nothing else; every other word decodes by its opcode. -/
def Obligations.IllegalWordRaisesIllegalCmd : Prop :=
  ∀ s : State, s.events = [] → s.progress = .running .start →
    (6 ≤ field s.latch.cmd 0 4 ∨ field s.latch.cmd 9 23 ≠ 0 ∨
        (field s.latch.cmd 0 4 ≠ 1 ∧ field s.latch.cmd 4 5 ≠ 0) →
      (∀ i, decode s.latch.cmd ≠ .ok i) ∧
      step s = .next { s with
        status := { s.status with errcode := .illegalCmd, err := true, busy := false }
        progress := .idle }) ∧
    (¬(6 ≤ field s.latch.cmd 0 4 ∨ field s.latch.cmd 9 23 ≠ 0 ∨
        (field s.latch.cmd 0 4 ≠ 1 ∧ field s.latch.cmd 4 5 ≠ 0)) →
      decode s.latch.cmd = .ok (ofOpcode (field s.latch.cmd 0 4) (field s.latch.cmd 4 5)))

/-- R90, R92, R93: words written out from the table decode to the commands they stand for. -/
def Obligations.SpecWordsDecodeToTheirCommands : Prop :=
  decode 0b00000000000000000000000000000000 = .ok .nop ∧
  decode 0b00000000000000000000000010000001 = .ok (.plot 8) ∧
  decode 0b00000000000000000000000111110001 = .ok (.plot 31) ∧
  decode 0b00000000000000000000000000000010 = .ok .line ∧
  decode 0b00000000000000000000000000000011 = .ok .mbegin ∧
  decode 0b00000000000000000000000000000100 = .ok .medge ∧
  decode 0b00000000000000000000000000000101 = .ok .fill

/-- R124, R44: with no other move pending, the step after acceptance runs the decoded command, whole; and a word placed by
`withFetchWord` is run by the very next step. That one step runs the whole command is the model's choice, which R44
allows (log entry 11), and that `withFetchWord` stands for acceptance is the model's too (log entry 7). -/
def Obligations.StepRunsTheDecodedCommand : Prop :=
  (∀ (s : State) (i : Instr), s.events = [] → s.progress = .running .start →
    decode s.latch.cmd = .ok i → step s = exec i s) ∧
  (∀ (s : State) (w : Nat) (i : Instr), decode (BitVec.ofNat 32 w) = .ok i →
    step (s.withFetchWord 32 w) = exec i (s.withFetchWord 32 w))

/-! ### Reset (10_state.md R46, 70_reset_and_hazards.md) -/

/-- R46, R290: after reset, by power-on or by the reset input in any state, every register reads its reset value, the
engine is idle and IRQ is 0; and reset leaves memory alone. -/
def Obligations.ResetGivesEveryRegisterItsValue : Prop :=
  (∀ s : State, (resetInput false s).mem = s.mem) ∧
  ∀ t : State, (t = State.reset ∨ ∃ s lands, t = resetInput lands s) →
    t.readReg 0x00 = 0x57550001 ∧
    (∀ off, off ≠ 0x00 → t.readReg off = 0) ∧
    t.ctrl = { fmt := .fmt0, ie := false } ∧
    t.status = { busy := false, done := false, err := false, ovr := false, errcode := .none,
                 maskValid := false } ∧
    t.progress = .idle ∧ t.irq = false

/-- R291: reset leaves memory alone but for the access in flight, which lands whole or not at all; the running command is
abandoned, and neither DONE nor ERR is reported. The access in flight is the one of the engine's next step (log
entry 15): memory is as it was, or exactly as that step leaves it. -/
def Obligations.ResetAbandonsTheCommandAndKeepsMemory : Prop :=
  ∀ (s : State) (lands : Bool) (rest : List Event), s.events = .reset lands :: rest →
    ∃ t, step s = .next t ∧ t.progress = .idle ∧ t.status.done = false ∧ t.status.err = false ∧
      t.events = rest ∧
      (lands = false → t.mem = s.mem) ∧
      (lands = true → t.mem = (engineStep s).mem) ∧
      (s.progress = .idle → t.mem = s.mem) ∧
      (t.mem = s.mem ∨
        ∃ a v, (engineStep s).trace = { kind := .write, addr := a, size := s.latch.fmt.bpp } :: s.trace ∧
          t.mem = storeLE s.mem a.toNat v s.latch.fmt.bpp)

/-! ### Host register accesses (40_control.md R120 to R123, 10_state.md R22 to R36) -/

/-- R22 to R35, R120, R261: a host read returns the register's value at that instant, CTRL and STATUS bit by bit, and changes
no register; a read of STATUS that returns BUSY = 0 ends the loan of the frames (R300). -/
def Obligations.HostReadReturnsTheRegister : Prop :=
  ∀ (s : State) (off : Nat) (v : Word) (rest : List Event), s.events = .rd off 4 :: rest →
    (off, v) ∈ [(0x00, 0x57550001),
      (0x04, BitVec.ofNat 32 ((if s.ctrl.fmt = .fmt1 then 1 else 0) + (if s.ctrl.ie then 2 else 0))),
      (0x08, BitVec.ofNat 32 ((if s.status.busy then 1 else 0) + (if s.status.done then 2 else 0) +
        (if s.status.err then 4 else 0) + (if s.status.ovr then 8 else 0) +
        16 * (match s.status.errcode with
          | .none => 0
          | .illegalCmd => 1
          | .noMask => 2
          | .bboxInvalid => 3
          | .maskOverflow => 4
          | .seedOverflow => 5
          | .align => 6
          | .busError => 7) +
        (if s.status.maskValid then 256 else 0))),
      (0x0C, s.fbBase), (0x10, s.fbSize), (0x14, s.fbStride), (0x18, s.color), (0x1C, s.p0), (0x20, s.p1), (0x24, 0),
      (0x28, s.maskMin), (0x2C, s.maskMax), (0x30, s.faultAddr), (0x34, 0), (0x38, 0), (0x3C, 0)] →
    step s = .next { s with
      events := rest, hostReads := v :: s.hostReads
      lent := if off = 0x08 ∧ s.status.busy = false then [] else s.lent }

/-- R121: the effect of a host write of `v` on each register, BUSY or not; on `CMD`, R123 when busy and R122 when idle. -/
def Obligations.HostWriteChangesItsRegister : Prop :=
  ∀ (s : State) (off : Nat) (v : Word) (rest : List Event), s.events = .wr off 4 v :: rest →
    (off = 0x04 → step s = .next { s with
      events := rest, ctrl := { fmt := if v.getLsbD 0 then .fmt1 else .fmt0, ie := v.getLsbD 1 } }) ∧
    (off = 0x08 → step s = .next { s with
      events := rest
      status := { s.status with
        done := if v.getLsbD 1 then false else s.status.done
        err := if v.getLsbD 2 then false else s.status.err
        ovr := if v.getLsbD 3 then false else s.status.ovr } }) ∧
    (off = 0x0C → step s = .next { s with events := rest, fbBase := v }) ∧
    (off = 0x10 → step s = .next { s with events := rest, fbSize := v }) ∧
    (off = 0x14 → step s = .next { s with events := rest, fbStride := v }) ∧
    (off = 0x18 → step s = .next { s with events := rest, color := v }) ∧
    (off = 0x1C → step s = .next { s with events := rest, p0 := v }) ∧
    (off = 0x20 → step s = .next { s with events := rest, p1 := v }) ∧
    (off = 0x24 → s.status.busy = true →
      step s = .next { s with events := rest, status := { s.status with ovr := true } }) ∧
    (off = 0x24 → s.status.busy = false → s.posted = [] → s.cfg.sideEffects = [] → step s = .next { s with
      events := rest
      latch := { cmd := v, fmt := s.ctrl.fmt, fbBase := s.fbBase, fbSize := s.fbSize, fbStride := s.fbStride
                 color := s.color, p0 := s.p0, p1 := s.p1 }
      lent := { cmd := v, fmt := s.ctrl.fmt, fbBase := s.fbBase, fbSize := s.fbSize, fbStride := s.fbStride
                color := s.color, p0 := s.p0, p1 := s.p1 } :: s.lent
      status := { s.status with busy := true }
      progress := .running .start }) ∧
    (off ∈ [0x00, 0x28, 0x2C, 0x30, 0x34, 0x38, 0x3C] → step s = .next { s with events := rest })

/-- R24: on STATUS as the host reads it, a host write clears DONE, ERR and OVR where the written bit is 1, and leaves every
other bit, BUSY, ERRCODE and MASK_VALID among them. -/
def Obligations.StatusWriteClearsOnlyWrittenOnes : Prop :=
  ∀ (s : State) (v : Word),
    (s.writeReg 0x08 v).readReg 0x08 = s.readReg 0x08 &&& ~~~(v &&& 0x0000000E)

/-- R122: a `CMD` write to an idle engine, by a host that keeps R73 on a platform R67 admits, latches the snapshot and
sets BUSY in one step, and changes nothing else of the block: the word is not decoded. The frame is lent from here on
(R300). -/
def Obligations.CmdWriteIdleLatchesTheSnapshot : Prop :=
  ∀ (s : State) (v : Word) (rest : List Event), s.events = .wr 0x24 4 v :: rest → s.status.busy = false →
    (∀ c ∈ s.posted, (s.snapshot v).ownsByte c.1 = false) →
    (∀ a ∈ s.cfg.sideEffects, (s.snapshot v).ownsByte a = false) →
    step s = .next { s with
      events := rest
      latch := { cmd := v, fmt := s.ctrl.fmt, fbBase := s.fbBase, fbSize := s.fbSize, fbStride := s.fbStride
                 color := s.color, p0 := s.p0, p1 := s.p1 }
      lent := { cmd := v, fmt := s.ctrl.fmt, fbBase := s.fbBase, fbSize := s.fbSize, fbStride := s.fbStride
                color := s.color, p0 := s.p0, p1 := s.p1 } :: s.lent
      status := { s.status with busy := true }
      progress := .running .start }

/-- R123: a `CMD` write while BUSY = 1 sets OVR and does nothing else; the word is never run. -/
def Obligations.CmdWriteBusyOnlySetsOverrun : Prop :=
  ∀ (s : State) (v : Word) (rest : List Event), s.events = .wr 0x24 4 v :: rest → s.status.busy = true →
    step s = .next { s with events := rest, status := { s.status with ovr := true } }

/-- R36: a register access of another size than 32 bits, or at an offset that is no multiple of 4 or lies outside the
window, is refused. The other two clauses are the model's reading (log entry 17), not R36's words: so is a byte access of
the host or of another agent to an address of the window, and a bus access that has a byte in the window without being
an aligned word of it. -/
def Obligations.OddRegisterAccessRefused : Prop :=
  (∀ (s : State) (off size : Nat) (v : Word) (rest : List Event),
    (s.events = .rd off size :: rest ∨ s.events = .wr off size v :: rest) →
    (size ≠ 4 ∨ off % 4 ≠ 0 ∨ 0x3C < off) → step s = .refused .registerAccess) ∧
  (∀ (s : State) (who : Agent) (a : Word) (v : Byte) (rest : List Event), (a - s.cfg.regBase).toNat < 64 →
    (s.events = .memRd who a :: rest ∨ s.events = .memWr who a v :: rest ∨ s.events = .memPost a v :: rest) →
    step s = .refused .registerAccess) ∧
  (∀ (s : State) (a v : Word) (size k : Nat) (rest : List Event), k < size →
    (a + BitVec.ofNat 32 k - s.cfg.regBase).toNat < 64 →
    ¬(size = 4 ∧ (a - s.cfg.regBase).toNat % 4 = 0 ∧ (a - s.cfg.regBase).toNat ≤ 0x3C) →
    (s.events = busRead s.cfg a size ++ rest ∨ s.events = busWrite s.cfg a size v ++ rest) →
    step s = .refused .registerAccess)

/-! ### The exclusive borrow (20_memory.md R62, R72, R73; 70_reset_and_hazards.md R300, R302) -/

/-- R72, R300: an access to a byte of the running command's frame is a fault, by any agent; for the host so is one to the
frame of a command accepted since it last read BUSY = 0; be it a read, a write, a write issued in flight, or one that
completes. R74: any other access outside the register window has its effect: a host read returns memory's byte (its
own newest write in flight to the byte, if there is one: log entry 8), and a write stores its byte, after the writes in
flight to it. R75 (which the spec marks as derived): so the host's view of memory is one that each write changes, at its
byte alone, as it is issued, and that neither a read nor a write that lands changes. -/
def Obligations.AccessToBorrowedByteFaults : Prop :=
  ∀ (s : State) (who : Agent) (a : Word) (v : Byte) (rest : List Event) (later : List (Word × Byte)),
    64 ≤ (a - s.cfg.regBase).toNat →
    (s.LentByte who a →
      (s.events = .memRd who a :: rest → step s = .fault .borrowBreach) ∧
      (s.events = .memWr who a v :: rest → step s = .fault .borrowBreach) ∧
      (who = .host → s.events = .memPost a v :: rest → step s = .fault .borrowBreach) ∧
      (who = .host → s.posted = (a, v) :: later → s.events = .memDrain :: rest → step s = .fault .borrowBreach)) ∧
    (¬s.LentByte who a →
      (who = .other → s.events = .memRd who a :: rest → step s = .next { s with events := rest }) ∧
      (who = .host → (∀ c ∈ s.posted, c.1 ≠ a) → s.events = .memRd who a :: rest →
        step s = .next { s with
          events := rest, hostReads := (Memory.read s.mem a.toNat).setWidth 32 :: s.hostReads }) ∧
      (∀ older newer, who = .host → s.posted = older ++ (a, v) :: newer → (∀ c ∈ newer, c.1 ≠ a) →
        s.events = .memRd who a :: rest →
        step s = .next { s with events := rest, hostReads := v.setWidth 32 :: s.hostReads }) ∧
      (s.events = .memWr who a v :: rest →
        step s = .next { s with
          events := rest, posted := s.posted.filter fun c => decide (c.1 ≠ a), mem := Memory.write s.mem a.toNat v }) ∧
      (who = .host → s.events = .memPost a v :: rest →
        step s = .next { s with events := rest, posted := s.posted ++ [(a, v)] }) ∧
      (who = .host → s.posted = (a, v) :: later → s.events = .memDrain :: rest →
        step s = .next { s with events := rest, posted := later, mem := Memory.write s.mem a.toNat v })) ∧
    (∀ t, Memory.wf s.mem → step s = .next t →
      (s.events = .memWr who a v :: rest ∨ s.events = .memPost a v :: rest →
        ∀ b, t.hostByte b = if b = a then v else s.hostByte b) ∧
      (s.events = .memRd who a :: rest ∨ s.events = .memDrain :: rest → ∀ b, t.hostByte b = s.hostByte b))

/-- R73: a `CMD` write while a host write to a byte of the new command's frame is still in flight is a fault; R67: a frame
with a byte whose reads have side effects is refused. -/
def Obligations.AcceptanceNeedsQuietOrdinaryMemory : Prop :=
  ∀ (s : State) (v : Word) (a : Word) (rest : List Event), s.events = .wr 0x24 4 v :: rest →
    s.status.busy = false → (s.snapshot v).Holds a.toNat →
    (∀ b, (a, b) ∈ s.posted → step s = .fault .writeInFlight) ∧
    (a ∈ s.cfg.sideEffects → s.posted = [] → step s = .refused .sideEffectMemory)

/-- R43, R302: writes to CTRL, FB_BASE, FB_SIZE, FB_STRIDE, COLOR, P0 and P1 do not reach the running command: it commutes
with every engine step, and with a whole command. -/
def Obligations.OperandWritesDoNotReachTheRunningCommand : Prop :=
  ∀ (s : State) (off : Nat) (v : Word), off ∈ [0x04, 0x0C, 0x10, 0x14, 0x18, 0x1C, 0x20] →
    (s.progress ≠ .idle → engineStep (s.writeReg off v) = (engineStep s).writeReg off v) ∧
    (∀ i t, exec i s = .next t → exec i (s.writeReg off v) = .next (t.writeReg off v))

/-! ### Completion, errors and the interrupt (40_control.md R125 to R127, 60_exceptions.md) -/

/-- R126: the word 0 is `NOP`; it completes, with DONE set, and changes nothing else, so that from reset STATUS then reads
0x2; any other word with OP = 0 is not `NOP` and raises ILLEGAL_CMD. -/
def Obligations.NopOnlyCompletes : Prop :=
  decode 0x00000000 = .ok .nop ∧
  (∀ s : State, exec .nop s =
    .next { s with status := { s.status with busy := false, done := true }, progress := .idle }) ∧
  (∀ s : State, s.events = [] → s.progress = .running .start → field s.latch.cmd 0 4 = 0 → s.latch.cmd ≠ 0 →
    step s = .next { s with
      status := { s.status with errcode := .illegalCmd, err := true, busy := false }, progress := .idle }) ∧
  ∃ t, Core.run core 2 { State.reset with events := [.wr 0x24 4 0] } = .next t ∧ State.readReg t 0x08 = 0x00000002

/-- R127, R167, R189, R209: every command, from every state, completes: the engine is idle and BUSY is 0; and it made at
most the stated number of bus accesses, a `FILL` only writes. -/
def Obligations.EveryCommandCompletesWithinItsAccessBound : Prop :=
  ∀ (i : Instr) (s : State), ∃ t made, exec i s = .next t ∧ t.progress = .idle ∧ t.status.busy = false ∧
    t.trace = made ++ s.trace ∧ made.length ≤ accessBound i s ∧
    (i = .fill → ∀ c ∈ made, c.kind = .write)

/-- R261, R263, R264: a command ends in exactly one way. Either DONE is set and ERR and ERRCODE stay; or ERR is set with one
error code that R261 gives the command, and DONE stays. -/
def Obligations.CommandEndsOneWay : Prop :=
  ∀ (i : Instr) (s t : State), exec i s = .next t →
    (t.status.done = true ∧ t.status.err = s.status.err ∧ t.status.errcode = s.status.errcode) ∨
    (t.status.err = true ∧ t.status.done = s.status.done ∧
      match i with
      | .nop => False
      | .plot _ => t.status.errcode ∈ [.align, .busError]
      | .line => t.status.errcode ∈ [.align, .busError]
      | .mbegin => t.status.errcode ∈ [.bboxInvalid, .maskOverflow]
      | .medge => t.status.errcode = .noMask
      | .fill => t.status.errcode ∈ [.noMask, .align, .seedOverflow, .busError])

/-- R43, R125, R264, R266: no command changes the parameters, a register the host writes, its own snapshot, OVR or anything
of the host's; FAULT_ADDR changes only with BUS_ERROR; MASK_MIN and MASK_MAX only by `MBEGIN`. -/
def Obligations.NoCommandTouchesTheHostSide : Prop :=
  ∀ (i : Instr) (s t : State), exec i s = .next t →
    s.SameHostSide t ∧ (t.status.errcode ≠ .busError → t.faultAddr = s.faultAddr) ∧
    (i ≠ .mbegin → t.maskMin = s.maskMin ∧ t.maskMax = s.maskMax)

/-- R45, R267: IRQ is the level `IE and (DONE or ERR or OVR)`. Every command that ends raises it exactly when CTRL.IE is set,
whether it ended with DONE or with an error, and so does an overrun; a host write of 1 to DONE, ERR and OVR lowers it,
and so does clearing IE, which leaves STATUS as it was. -/
def Obligations.CompletionRaisesIrqWhenEnabled : Prop :=
  (∀ s : State, s.irq = true ↔
    s.ctrl.ie = true ∧ (s.status.done = true ∨ s.status.err = true ∨ s.status.ovr = true)) ∧
  (∀ (i : Instr) (s t : State), exec i s = .next t → t.irq = s.ctrl.ie) ∧
  (∀ (s : State) (v : Word) (rest : List Event), s.events = .wr 0x24 4 v :: rest → s.status.busy = true →
    ∃ t, step s = .next t ∧ t.irq = s.ctrl.ie) ∧
  (∀ s : State, (s.writeReg 0x08 0x0000000E).irq = false) ∧
  (∀ (s : State) (v : Word), v.getLsbD 1 = false →
    (s.writeReg 0x04 v).irq = false ∧ (s.writeReg 0x04 v).status = s.status)

/-- R262, R263: the start checks and their order: `FILL` reports NO_MASK before ALIGN, `MBEGIN` BBOX_INVALID before
MASK_OVERFLOW; a failed check changes only STATUS, but for the mask that a failed `MBEGIN` leaves invalid and, R265,
with contents nothing constrains. -/
def Obligations.StartChecksReportTheFirstFailure : Prop :=
  ∀ s : State,
    (∀ i, (i = .medge ∨ i = .fill) → s.status.maskValid = false →
      exec i s = .next { s with
        status := { s.status with errcode := .noMask, err := true, busy := false }, progress := .idle }) ∧
    (∀ i, (i = .line ∨ (∃ cov, i = .plot cov) ∨ (i = .fill ∧ s.status.maskValid = true)) →
      s.latch.aligned = false →
      exec i s = .next { s with
        status := { s.status with errcode := .align, err := true, busy := false }, progress := .idle }) ∧
    ((s.latch.x1 < s.latch.x0 ∨ s.latch.y1 < s.latch.y0) →
      ∃ bits n, exec .mbegin s = .next { s with
        status := { s.status with
          maskValid := false, errcode := .bboxInvalid, err := true, busy := false }
        progress := .idle, maskRam := bits, freeCount := n }) ∧
    (s.latch.x0 ≤ s.latch.x1 → s.latch.y0 ≤ s.latch.y1 →
      (s.cfg.maskBytes : Int) <
        (s.latch.x1 - s.latch.x0 + 1 + 7) / 8 * (s.latch.y1 - s.latch.y0 + 1) →
      ∃ bits n, exec .mbegin s = .next { s with
        status := { s.status with
          maskValid := false, errcode := .maskOverflow, err := true, busy := false }
        progress := .idle, maskRam := bits, freeCount := n })

/-- R66: in FMT0 a base or stride that is no multiple of 4 is misaligned and every in-frame address is a multiple of 4
otherwise; FMT1 is never misaligned; a misaligned `PLOT`, `LINE` or (its mask valid) `FILL` ends with ALIGN before any
access and any other change; and no other command ends with ALIGN. R66 itself marks as derived that the in-frame
addresses are multiples of 4. -/
def Obligations.AlignmentIsOfBaseAndStride : Prop :=
  ∀ s : State,
    (s.latch.fmt = .fmt0 →
      (s.latch.aligned = true ↔ s.latch.fbBase.toNat % 4 = 0 ∧ s.latch.fbStride.toNat % 4 = 0) ∧
      (s.latch.aligned = true → ∀ x y, s.latch.inFrame x y = true → (s.latch.pixAddr x y).toNat % 4 = 0)) ∧
    (s.latch.fmt = .fmt1 → s.latch.aligned = true) ∧
    (∀ i, s.latch.aligned = false → (i = .line ∨ (∃ cov, i = .plot cov) ∨ (i = .fill ∧ s.status.maskValid = true)) →
      exec i s = .next { s with
        status := { s.status with errcode := .align, err := true, busy := false }, progress := .idle }) ∧
    (∀ i t, exec i s = .next t → s.status.errcode ≠ .align → t.status.errcode = .align →
      s.latch.aligned = false ∧ i ≠ .nop ∧ i ≠ .mbegin ∧ i ≠ .medge)

/-- R266: an engine access that `MEM_ADMITS` refuses has no effect on memory, records its address in FAULT_ADDR, and ends
the command with BUS_ERROR; for `FILL` MASK_VALID clears too. It covers the read or the full write of a
`plotPixel`, the write of a blend, and both scans of a fill. R42, R205, R207: a push on a full seed store leaves memory
alone, clears MASK_VALID and ends the command with SEED_OVERFLOW; where there is room, every push of the column is
stored and the fill goes on. -/
def Obligations.RefusedAccessOrFullPushEndsTheCommand : Prop :=
  ∀ s : State,
    (∀ p rest, s.progress = .running (.plots (p :: rest)) → s.touches p = true →
      s.admitsPixel (s.plotAddr p) = false →
      engineStep s = { s with
        faultAddr := s.plotAddr p
        status := { s.status with errcode := .busError, err := true, busy := false }
        progress := .idle }) ∧
    (∀ a v rest, s.progress = .running (.blendWrite a v rest) → s.admitsPixel a = false →
      engineStep s = { s with
        faultAddr := a
        status := { s.status with errcode := .busError, err := true, busy := false }
        progress := .idle }) ∧
    (∀ lx ly pos, s.progress = .running (.fill pos) → s.mask lx ly = false → lx < s.maskWidth →
      ((∃ x, pos = .right x ly lx) ∨ (∃ e, pos = .left ly (lx + 1) e)) → s.imageInFrame lx ly = true →
      s.admitsPixel (s.imageAddr lx ly) = false →
      (engineStep s).mem = s.mem ∧ (engineStep s).trace = s.trace ∧
      (engineStep s).faultAddr = s.imageAddr lx ly ∧
      (engineStep s).status = { s.status with
        maskValid := false, errcode := .busError, err := true, busy := false } ∧
      (engineStep s).progress = .idle) ∧
    (∀ y c e la lb, s.progress = .running (.fill (.rows y c e la lb)) → c < e →
      ((s.pushesAt y c la lb = [] ∨ s.seeds.length + (s.pushesAt y c la lb).length ≤ s.cfg.seedDepth) →
        engineStep s = { s with
          seeds := s.pushesAt y c la lb ++ s.seeds
          progress := .running (.fill (.rows y (c + 1) e
            (if 0 < y then !s.mask c (y - 1) else la) (if y + 1 < s.maskHeight then !s.mask c (y + 1) else lb))) }) ∧
      (s.pushesAt y c la lb ≠ [] → s.cfg.seedDepth < s.seeds.length + (s.pushesAt y c la lb).length →
        (engineStep s).mem = s.mem ∧ (engineStep s).trace = s.trace ∧ (engineStep s).faultAddr = s.faultAddr ∧
        (engineStep s).maskRam = s.maskRam ∧
        (engineStep s).status = { s.status with
          maskValid := false, errcode := .seedOverflow, err := true, busy := false } ∧
        (engineStep s).progress = .idle))

/-- R44, R65: an engine step makes at most one bus access, of exactly `BPP` bytes, and only one the bus admits; memory changes
only by that access's write. -/
def Obligations.EngineStepMakesAtMostOneAccess : Prop :=
  ∀ s : State,
    ((engineStep s).trace = s.trace ∧ (engineStep s).mem = s.mem) ∨
    (∃ a, s.admitsPixel a = true ∧ (engineStep s).mem = s.mem ∧
      (engineStep s).trace = { kind := .read, addr := a, size := s.latch.fmt.bpp } :: s.trace) ∨
    (∃ a v, s.admitsPixel a = true ∧ (engineStep s).mem = storeLE s.mem a.toNat v s.latch.fmt.bpp ∧
      (engineStep s).trace = { kind := .write, addr := a, size := s.latch.fmt.bpp } :: s.trace)

/-! ### The pixel blender and PLOT (41_pixel_blender.md, 20_memory.md) -/

/-- R142: each channel of a blend is `o + floor(((t − o)·cov + 8) / 16)`, which lies between `o` and `t` and so fits its
field; the X bits are those of `old`. R142 itself marks as derived that the value lies between `o` and `t`. -/
def Obligations.BlendIsPerChannelBetweenOldAndTarget : Prop :=
  ∀ (f : Fmt) (old col : Word) (cov : Nat), 1 ≤ cov → cov ≤ 15 →
    xBits f (blend f old col cov) = xBits f old ∧
    ∀ c : Channel,
      (channel f c (blend f old col cov) : Int) =
        channel f c old + (((channel f c col : Int) - channel f c old) * cov + 8) / 16 ∧
      min (channel f c old) (channel f c col) ≤ channel f c (blend f old col cov) ∧
      channel f c (blend f old col cov) ≤ max (channel f c old) (channel f c col)

/-- R140, R141: a clipped pixel, or coverage 0, makes no access: an aligned `PLOT` of one completes and changes nothing
else. -/
def Obligations.PlotOutOfFrameOrEmptyOnlyCompletes : Prop :=
  ∀ (s : State) (cov : Nat), s.latch.aligned = true →
    (¬(0 ≤ s.latch.x0 ∧ s.latch.x0 < s.latch.width ∧ 0 ≤ s.latch.y0 ∧ s.latch.y0 < s.latch.height) ∨ cov = 0) →
    exec (.plot cov) s =
      .next { s with status := { s.status with busy := false, done := true }, progress := .idle }

/-- R141, R143: an in-frame `PLOT` with coverage 16 or more is one write of the whole colour container, and no read. -/
def Obligations.PlotFullIsOneWriteOfTheColour : Prop :=
  ∀ (s : State) (cov : Nat), s.latch.aligned = true → s.latch.inFrame s.latch.x0 s.latch.y0 = true →
    16 ≤ cov → s.admitsPixel (s.latch.pixAddr s.latch.x0 s.latch.y0) = true →
    exec (.plot cov) s = .next { s with
      status := { s.status with busy := false, done := true }
      progress := .idle
      mem := storeLE s.mem (s.latch.pixAddr s.latch.x0 s.latch.y0).toNat s.latch.colC.toNat s.latch.fmt.bpp
      trace := { kind := .write, addr := s.latch.pixAddr s.latch.x0 s.latch.y0, size := s.latch.fmt.bpp }
        :: s.trace }

/-- R142, R143: an in-frame `PLOT` with coverage 1 to 15 reads the container, then writes its blend with the colour. -/
def Obligations.PlotPartialReadsThenWritesTheBlend : Prop :=
  ∀ (s : State) (cov : Nat), s.latch.aligned = true → s.latch.inFrame s.latch.x0 s.latch.y0 = true →
    1 ≤ cov → cov ≤ 15 → s.admitsPixel (s.latch.pixAddr s.latch.x0 s.latch.y0) = true →
    exec (.plot cov) s = .next { s with
      status := { s.status with busy := false, done := true }
      progress := .idle
      mem := storeLE s.mem (s.latch.pixAddr s.latch.x0 s.latch.y0).toNat
        (blend s.latch.fmt
          (BitVec.ofNat 32 (loadLE s.mem (s.latch.pixAddr s.latch.x0 s.latch.y0).toNat s.latch.fmt.bpp))
          s.latch.colC cov).toNat s.latch.fmt.bpp
      trace := { kind := .write, addr := s.latch.pixAddr s.latch.x0 s.latch.y0, size := s.latch.fmt.bpp }
        :: { kind := .read, addr := s.latch.pixAddr s.latch.x0 s.latch.y0, size := s.latch.fmt.bpp }
        :: s.trace }

/-- R144, R266: a `PLOT` whose access the bus refuses leaves memory and the mask as they were, and ends with BUS_ERROR. -/
def Obligations.PlotRefusedReportsBusError : Prop :=
  ∀ (s : State) (cov : Nat), s.latch.aligned = true → s.latch.inFrame s.latch.x0 s.latch.y0 = true →
    1 ≤ cov → s.admitsPixel (s.latch.pixAddr s.latch.x0 s.latch.y0) = false →
    exec (.plot cov) s = .next { s with
      faultAddr := s.latch.pixAddr s.latch.x0 s.latch.y0
      status := { s.status with errcode := .busError, err := true, busy := false }
      progress := .idle }

/-- R62, R63: the bytes of a full plot, in the spec's own address arithmetic: byte `k` of the container lies at
`BASE + y*STRIDE + x*BPP + k` mod 2^32 and holds byte `k` of the colour, least significant first. -/
def Obligations.PlottedBytesLieLittleEndianAtThePixelAddress : Prop :=
  ∀ (s t : State) (x y k : Nat), Memory.wf s.mem → s.latch.aligned = true →
    s.latch.x0 = x → s.latch.y0 = y → x < field s.latch.fbSize 0 16 → y < field s.latch.fbSize 16 16 →
    k < s.latch.fmt.bpp → s.admitsPixel (s.latch.pixAddr x y) = true → exec (.plot 16) s = .next t →
    Memory.read t.mem ((s.latch.fbBase.toNat + y * s.latch.fbStride.toNat + x * s.latch.fmt.bpp + k) % 2 ^ 32) =
      BitVec.ofNat 8 (s.latch.color.toNat / 256 ^ k)

/-- Frame of `PLOT` and `LINE`, R144, R160, R265, however they end: the mask, the seed store and the host's side are as
before, and every byte outside the containers of the touched plots reads as before. -/
def Obligations.DrawingLeavesEverythingElseAlone : Prop :=
  ∀ (s t : State),
    (∀ cov, exec (.plot cov) s = .next t → s.SameHostSide t ∧ s.SameMask t ∧
      ∀ b, (s.touches (s.thePlot cov) = true → b ∉ bytesAt (s.plotAddr (s.thePlot cov)) s.latch.fmt.bpp) →
        Memory.read t.mem b = Memory.read s.mem b) ∧
    (exec .line s = .next t → s.SameHostSide t ∧ s.SameMask t ∧
      ∀ b, (∀ p ∈ s.theLine, s.touches p = true → b ∉ bytesAt (s.plotAddr p) s.latch.fmt.bpp) →
        Memory.read t.mem b = Memory.read s.mem b)

/-- R145: two full `plotPixel` calls leave the memory of one; a full one and then any other leave the pixel equal to the
colour. -/
def Obligations.FullCoverageIsIdempotent : Prop :=
  ∀ (s : State) (x y : Int) (c k : Nat), Memory.wf s.mem → 16 ≤ c →
    (∀ c', 16 ≤ c' →
      (State.plotted { x := x, y := y, cov := c' } (State.plotted { x := x, y := y, cov := c } s)).mem =
        (State.plotted { x := x, y := y, cov := c } s).mem) ∧
    (s.latch.inFrame x y = true →
      (State.plotted { x := x, y := y, cov := k }
        (State.plotted { x := x, y := y, cov := c } s)).pixelAt (s.latch.pixAddr x y) = s.latch.colC)

/-! ### LINE (42_line.md) -/

/-- R160: an aligned `LINE` whose accesses the bus admits makes its `plotPixel` calls one after another, then completes. -/
def Obligations.LineMakesItsPlotsInOrder : Prop :=
  ∀ s : State, s.latch.aligned = true → (∀ p ∈ s.theLine, s.admitsPlot p = true) →
    exec .line s = .next (State.complete (State.plottedAll s.theLine s))

/-- R265, R266: a `LINE` stops at its first refused access: the plots before it stay, the failing pixel and those after it
are untouched. -/
def Obligations.LineStopsAtTheFirstRefusedPlot : Prop :=
  ∀ (s : State) (before after : List Plot) (p : Plot), s.latch.aligned = true →
    s.theLine = before ++ p :: after → (∀ q ∈ before, s.admitsPlot q = true) → s.admitsPlot p = false →
    exec .line s = .next (State.busError (s.plotAddr p) (State.plottedAll before s))

/-- R26, R293: with W = 0 or H = 0 every pixel is clipped: an aligned `PLOT` or `LINE` completes and changes nothing else. -/
def Obligations.EmptyFrameClipsEveryPixel : Prop :=
  ∀ (s : State) (i : Instr), (i = .line ∨ ∃ cov, i = .plot cov) → s.latch.aligned = true →
    (s.latch.width = 0 ∨ s.latch.height = 0) →
    exec i s = .next { s with status := { s.status with busy := false, done := true }, progress := .idle }

/-- R162: a degenerate line plots, at full coverage and in increasing order, exactly the pixels of the inclusive segment. -/
def Obligations.DegenerateLineIsTheExactSegment : Prop :=
  ∀ (r : LineRound) (x0 y0 x1 y1 : Int), (x0 = x1 ∨ y0 = y1) →
    (∀ p, p ∈ linePlots r x0 y0 x1 y1 ↔
      p.cov = 16 ∧ min x0 x1 ≤ p.x ∧ p.x ≤ max x0 x1 ∧ min y0 y1 ≤ p.y ∧ p.y ≤ max y0 y1) ∧
    (linePlots r x0 y0 x1 y1).Pairwise (fun p q => p.x + p.y < q.x + q.y)

/-- R163 to R166, in their own arithmetic: the steep axis and the endpoint order, the minor position recomputed at every
step of the major axis, endpoints included, and two plots a step, the lower one first, with coverages `16 − f` and `f`. -/
def Obligations.WuLineIsTwoPlotsAStep : Prop :=
  ∀ (r : LineRound) (x0 y0 x1 y1 a0 b0 a1 b1 : Int) (steep : Bool), x0 ≠ x1 → y0 ≠ y1 →
    steep = decide ((x1 - x0).natAbs < (y1 - y0).natAbs) →
    (a0, b0, a1, b1) =
      (if steep then (if y1 < y0 then (y1, x1, y0, x0) else (y0, x0, y1, x1))
      else (if x1 < x0 then (x1, y1, x0, y0) else (x0, y0, x1, y1))) →
    linePlots r x0 y0 x1 y1 = (intRange a0 a1).flatMap fun a =>
      let n := 16 * (a - a0) * (b1 - b0)
      let q := match r with
        | .nearest => (2 * n + (a1 - a0)) / (2 * (a1 - a0))
        | .trunc => Int.tdiv n (a1 - a0)
      let ip := (16 * b0 + q) / 16
      let f := ((16 * b0 + q) % 16).toNat
      if steep then [{ x := ip, y := a, cov := 16 - f }, { x := ip + 1, y := a, cov := f }]
      else [{ x := a, y := ip, cov := 16 - f }, { x := a, y := ip + 1, cov := f }]

/-- R165: at the first and at the last step of the major axis the minor position is the endpoint's, with fraction 0, under
either rounding. -/
def Obligations.WuLineMeetsItsEndpoints : Prop :=
  ∀ (r : LineRound) (w : WuAxes), w.a0 < w.a1 →
    wuMinor r w w.a0 = 16 * w.b0 ∧ wuMinor r w w.a1 = 16 * w.b1

/-- R165: the quotient under NEAREST is `N/da` rounded to the nearest integer, an exact half toward +∞; under TRUNC it is
`N/da` rounded toward zero. -/
def Obligations.WuQuotientRoundsAsItsModeSays : Prop :=
  ∀ (n da : Int), 0 < da →
    (2 * n - da < 2 * da * wuQuotient .nearest n da ∧ 2 * da * wuQuotient .nearest n da ≤ 2 * n + da) ∧
    (0 ≤ n → da * wuQuotient .trunc n da ≤ n ∧ n < da * (wuQuotient .trunc n da + 1)) ∧
    (n < 0 → n ≤ da * wuQuotient .trunc n da ∧ da * (wuQuotient .trunc n da - 1) < n)

/-- R168 (b): no `LINE` plots a pixel twice. -/
def Obligations.LinePlotsNoPixelTwice : Prop :=
  ∀ (r : LineRound) (x0 y0 x1 y1 : Int),
    ((linePlots r x0 y0 x1 y1).map fun p => (p.x, p.y)).Nodup

/-- R168 (c): `LINE` P0→P1 and `LINE` P1→P0 make the same plots in the same order, and so the same state, the snapshot
apart. -/
def Obligations.LineIgnoresItsDirection : Prop :=
  (∀ (r : LineRound) (x0 y0 x1 y1 : Int), linePlots r x0 y0 x1 y1 = linePlots r x1 y1 x0 y0) ∧
  (∀ s t : State, exec .line s = .next t →
    exec .line { s with latch := { s.latch with p0 := s.latch.p1, p1 := s.latch.p0 } } =
      .next { t with latch := { t.latch with p0 := s.latch.p1, p1 := s.latch.p0 } })

/-- R170: the source's worked example, the line (0,0)–(3,1) under NEAREST. -/
def Obligations.WorkedExampleLine : Prop :=
  linePlots .nearest 0 0 3 1 =
    [{ x := 0, y := 0, cov := 16 }, { x := 0, y := 1, cov := 0 },
      { x := 1, y := 0, cov := 11 }, { x := 1, y := 1, cov := 5 },
      { x := 2, y := 0, cov := 5 }, { x := 2, y := 1, cov := 11 },
      { x := 3, y := 1, cov := 16 }, { x := 3, y := 2, cov := 0 }]

/-! ### MBEGIN and MEDGE (43_edge_mask.md) -/

/-- R181, R182: an `MBEGIN` whose box is ordered and fits the mask RAM completes: the corners are the operands, MASK_VALID is
set, every bit of the domain is 0, and nothing else changes. -/
def Obligations.MbeginDefinesAClearedMask : Prop :=
  ∀ s : State, s.latch.x0 ≤ s.latch.x1 → s.latch.y0 ≤ s.latch.y1 →
    (s.latch.x1 - s.latch.x0 + 1 + 7) / 8 * (s.latch.y1 - s.latch.y0 + 1) ≤ s.cfg.maskBytes →
    ∃ t, exec .mbegin s = .next t ∧
      t.maskMin = s.latch.p0 ∧ t.maskMax = s.latch.p1 ∧
      (t.maskWidth : Int) = s.latch.x1 - s.latch.x0 + 1 ∧
      (t.maskHeight : Int) = s.latch.y1 - s.latch.y0 + 1 ∧
      (∀ lx ly, t.inMask lx ly = true → t.mask lx ly = false) ∧
      t.status = { s.status with maskValid := true, busy := false, done := true } ∧ t.progress = .idle ∧
      s.SameHostSide t ∧ s.SameBus t ∧ t.seeds = s.seeds ∧ t.freeCount = s.freeCount

/-- R184, R185, R187: a `MEDGE` with a valid mask completes: in the mask domain it sets the bit of each visited pixel, clears
none, drops every other pixel, and changes nothing else. -/
def Obligations.MedgeBurnsTheVisitedPixels : Prop :=
  ∀ s : State, s.status.maskValid = true →
    ∃ t, exec .medge s = .next t ∧
      (∀ lx ly, s.inMask lx ly = true →
        (t.mask lx ly = true ↔ s.mask lx ly = true ∨ (s.minX + lx, s.minY + ly) ∈ s.theEdge)) ∧
      t.maskMin = s.maskMin ∧ t.maskMax = s.maskMax ∧
      t.status = { s.status with busy := false, done := true } ∧ t.progress = .idle ∧
      s.SameHostSide t ∧ s.SameBus t ∧ t.seeds = s.seeds ∧ t.freeCount = s.freeCount

/-- R190, for every pair of endpoints: (a) the first pixel visited is the first endpoint, the last the second; (b)
`max(ax, ay) + 1` pixels are visited, all distinct; (c) consecutive ones are 8-neighbours; (d) each is within 1/2 of
the exact line, measured along the minor axis; (e) each lies in the edge's own box. -/
def Obligations.MidpointEdgeTracksTheExactLine : Prop :=
  ∀ x0 y0 x1 y1 : Int,
    (midpointEdge x0 y0 x1 y1).head? = some (x0, y0) ∧
    (midpointEdge x0 y0 x1 y1).getLast? = some (x1, y1) ∧
    (midpointEdge x0 y0 x1 y1).length = max (x1 - x0).natAbs (y1 - y0).natAbs + 1 ∧
    (midpointEdge x0 y0 x1 y1).Nodup ∧
    (∀ l r u v, midpointEdge x0 y0 x1 y1 = l ++ u :: v :: r →
      (v.1 - u.1).natAbs ≤ 1 ∧ (v.2 - u.2).natAbs ≤ 1) ∧
    (∀ v ∈ midpointEdge x0 y0 x1 y1,
      2 * ((x1 - x0) * (v.2 - y0) - (y1 - y0) * (v.1 - x0)).natAbs ≤
        max (x1 - x0).natAbs (y1 - y0).natAbs ∧
      min x0 x1 ≤ v.1 ∧ v.1 ≤ max x0 x1 ∧ min y0 y1 ≤ v.2 ∧ v.2 ≤ max y0 y1)

/-- R188, R186: on either dominant axis the edge has taken, at its step `i`, a number `m` of minor steps with
`2·i·minor − major ≤ 2·major·m < 2·i·minor + major`; where its decision value `2·(i+1)·minor − major − 2·major·m` is 0,
an exact tie, the next step takes no minor step. So an edge and its reverse can differ: R188's example. -/
def Obligations.MidpointTieDependsOnDirection : Prop :=
  (∀ x0 y0 x1 y1 : Int, ∀ i : Nat,
    ((y1 - y0).natAbs ≤ (x1 - x0).natAbs → 0 < (x1 - x0).natAbs → i ≤ (x1 - x0).natAbs →
      ∃ m : Nat, (midpointEdge x0 y0 x1 y1)[i]? = some (x0 + stepSign x0 x1 * i, y0 + stepSign y0 y1 * m) ∧
        2 * i * (y1 - y0).natAbs ≤ 2 * (x1 - x0).natAbs * m + (x1 - x0).natAbs ∧
        2 * (x1 - x0).natAbs * m < 2 * i * (y1 - y0).natAbs + (x1 - x0).natAbs ∧
        (i < (x1 - x0).natAbs →
          2 * (i + 1) * (y1 - y0).natAbs = 2 * (x1 - x0).natAbs * m + (x1 - x0).natAbs →
          (midpointEdge x0 y0 x1 y1)[i + 1]? =
            some (x0 + stepSign x0 x1 * (i + 1), y0 + stepSign y0 y1 * m))) ∧
    ((x1 - x0).natAbs < (y1 - y0).natAbs → i ≤ (y1 - y0).natAbs →
      ∃ m : Nat, (midpointEdge x0 y0 x1 y1)[i]? = some (x0 + stepSign x0 x1 * m, y0 + stepSign y0 y1 * i) ∧
        2 * i * (x1 - x0).natAbs ≤ 2 * (y1 - y0).natAbs * m + (y1 - y0).natAbs ∧
        2 * (y1 - y0).natAbs * m < 2 * i * (x1 - x0).natAbs + (y1 - y0).natAbs ∧
        (i < (y1 - y0).natAbs →
          2 * (i + 1) * (x1 - x0).natAbs = 2 * (y1 - y0).natAbs * m + (y1 - y0).natAbs →
          (midpointEdge x0 y0 x1 y1)[i + 1]? =
            some (x0 + stepSign x0 x1 * m, y0 + stepSign y0 y1 * (i + 1))))) ∧
  midpointEdge 0 0 2 1 = [(0, 0), (1, 0), (2, 1)] ∧ midpointEdge 2 1 0 0 = [(2, 1), (1, 1), (0, 0)]

/-! ### FILL (44_flood_fill.md) -/

/-- R200, R201, R202: a seed outside the mask domain, or on a set bit, paints nothing: the `FILL` makes no access, completes
with DONE and leaves no valid mask. -/
def Obligations.FillFromNoSeedOnlyDropsTheMask : Prop :=
  ∀ s : State, s.status.maskValid = true → s.latch.aligned = true →
    (∀ lx ly : Nat, s.minX + lx = s.latch.x0 → s.minY + ly = s.latch.y0 → ¬s.Unset lx ly) →
    ∃ t, exec .fill s = .next t ∧ s.SameHostSide t ∧ s.SameBus t ∧ t.maskRam = s.maskRam ∧
      t.maskMin = s.maskMin ∧ t.maskMax = s.maskMax ∧ t.progress = .idle ∧
      t.status = { s.status with maskValid := false, busy := false, done := true }

/-- R208: a `FILL` that starts and ends without error sets exactly the bits of the seed's 4-connected component, paints each
of its pixels exactly once, and writes the colour to exactly its in-frame pixels. -/
def Obligations.FillWithoutErrorPaintsTheComponent : Prop :=
  ∀ s t : State, Memory.wf s.mem → s.status.maskValid = true → s.latch.aligned = true →
    s.status.err = false → exec .fill s = .next t → t.status.err = false → s.FillPainted t

/-- R200, R205, R209: with a valid mask, an aligned frame, a bus that admits the domain's in-frame pixels, and a seed store
as deep as R209's bound on the pushes, `FILL` completes with DONE, leaves no valid mask, and paints the component. -/
def Obligations.FillCompletesWhenTheStoreIsDeepEnough : Prop :=
  ∀ s : State, Memory.wf s.mem → s.status.maskValid = true → s.latch.aligned = true →
    2 * (s.maskWidth * s.maskHeight) + 1 ≤ s.cfg.seedDepth →
    (∀ lx ly, s.inMask lx ly = true → s.imageInFrame lx ly = true →
      s.admitsPixel (s.imageAddr lx ly) = true) →
    ∃ t, exec .fill s = .next t ∧ s.FillPainted t ∧ t.progress = .idle ∧
      t.status = { s.status with maskValid := false, busy := false, done := true }

/-- Frame of `FILL`, R203, R204, R207, R211, however it ends: the host's side and the mask's corners are as before; a bit
that was set stays set; every byte reads as before or is the colour's byte in the container of an in-frame pixel of
the seed's component; and past the start checks MASK_VALID is 0. -/
def Obligations.FillOnlyPaintsInsideTheComponent : Prop :=
  ∀ s t : State, Memory.wf s.mem → exec .fill s = .next t →
    s.SameHostSide t ∧ t.maskMin = s.maskMin ∧ t.maskMax = s.maskMax ∧
    (∀ lx ly, s.inMask lx ly = true → s.mask lx ly = true → t.mask lx ly = true) ∧
    (∀ b, Memory.read t.mem b = Memory.read s.mem b ∨
      ∃ lx ly k, s.Component lx ly ∧ s.imageInFrame lx ly = true ∧ k < s.latch.fmt.bpp ∧
        b = ((s.imageAddr lx ly).toNat + k) % 2 ^ 32 ∧
        Memory.read t.mem b = BitVec.ofNat 8 (s.latch.colC.toNat / 256 ^ k)) ∧
    (s.latch.aligned = true → t.status.maskValid = false)

/-! ### The whole machine -/

/-- The invariant holds after reset: the legal parameters of the spec's examples, canonical memory and mask RAM, BUSY as the
progress state says, stores within capacity. -/
def Obligations.ResetMeetsTheInvariant : Prop := State.reset.Inv

/-- R42, R66, R122, R125, R181, R264: every step, whichever agent moves, keeps the invariant: memory and mask RAM stay
canonical and within bounds, BUSY is set exactly while a command runs, the seed store stays within its capacity,
a valid mask fits its RAM, a fill stays in its domain, every access to come is aligned, and the running command's frame is
lent, with no host write in flight to it (R72, R73, R300). -/
def Obligations.EveryStepKeepsTheInvariant : Prop :=
  ∀ s t : State, s.Inv → step s = .next t → t.Inv

/-- R44: however many single engine steps come first, the command ends in the state that running it whole gives. -/
def Obligations.EngineStepsRefineTheWholeCommand : Prop :=
  ∀ (s : State) (i : Instr) (k : Nat), s.progress = .running .start → decode s.latch.cmd = .ok i →
    Core.run core (k + 1) { s with events := List.replicate k .engine } = exec i { s with events := [] }

/-- R24, R34, R304: over any step of any agent, each STATUS flag and FAULT_ADDR change only as their rules say, reset apart.
DONE and ERR are set only as a command ends, the one without and the other with an error; DONE, ERR and OVR are cleared
only by the host's write of 1; OVR and BUSY are set only by a `CMD` write; BUSY is cleared only as a command ends;
ERRCODE and FAULT_ADDR change only with an error, the latter with BUS_ERROR; MASK_VALID is set only by an `MBEGIN` that
succeeds, and cleared only by one that fails and by a `FILL` that passed its start checks and ends. -/
def Obligations.StatusChangesOnlyAsItsRulesSay : Prop :=
  ∀ s t : State, step s = .next t →
    (∃ lands rest, s.events = .reset lands :: rest) ∨
    ((s.status.done = true → t.status.done = true ∨
        ∃ v rest, s.events = .wr 0x08 4 v :: rest ∧ v.getLsbD 1 = true) ∧
      (s.status.err = true → t.status.err = true ∨
        ∃ v rest, s.events = .wr 0x08 4 v :: rest ∧ v.getLsbD 2 = true) ∧
      (s.status.ovr = true → t.status.ovr = true ∨
        ∃ v rest, s.events = .wr 0x08 4 v :: rest ∧ v.getLsbD 3 = true) ∧
      (t.status.done = true → s.status.done = true ∨
        (s.progress ≠ .idle ∧ t.progress = .idle ∧ t.status.busy = false ∧ t.status.err = s.status.err ∧
          t.status.errcode = s.status.errcode)) ∧
      (t.status.err = true → s.status.err = true ∨
        (s.progress ≠ .idle ∧ t.progress = .idle ∧ t.status.busy = false ∧ t.status.done = s.status.done ∧
          t.status.errcode ≠ .none)) ∧
      (t.status.errcode ≠ s.status.errcode → t.status.err = true ∧ t.status.busy = false ∧
        t.status.errcode ≠ .none) ∧
      (t.status.busy = true → s.status.busy = true ∨ ∃ v rest, s.events = .wr 0x24 4 v :: rest) ∧
      (s.status.busy = true → t.status.busy = true ∨
        (s.progress ≠ .idle ∧ t.progress = .idle ∧ (t.status.done = true ∨ t.status.err = true))) ∧
      (t.status.ovr = true → s.status.ovr = true ∨ ∃ v rest, s.events = .wr 0x24 4 v :: rest) ∧
      (t.status.maskValid = true → s.status.maskValid = true ∨
        (s.progress = .running .start ∧ decode s.latch.cmd = .ok .mbegin ∧ t.progress = .idle ∧
          t.status.done = true)) ∧
      (s.status.maskValid = true → t.status.maskValid = true ∨
        (t.progress = .idle ∧
          ((s.progress = .running .start ∧ decode s.latch.cmd = .ok .mbegin ∧
              (t.status.errcode = .bboxInvalid ∨ t.status.errcode = .maskOverflow)) ∨
            (s.progress = .running .start ∧ decode s.latch.cmd = .ok .fill ∧ s.latch.aligned = true) ∨
            ∃ pos, s.progress = .running (.fill pos)))) ∧
      (t.faultAddr ≠ s.faultAddr → t.status.errcode = .busError))

/-- R292: after reset the idle engine waits: with no move pending, a step changes nothing. -/
def Obligations.IdleMachineWaits : Prop :=
  ∀ s : State, s.progress = .idle → s.events = [] → step s = .next s

/-- R100, R301: a turn of `WAIT` ends the loop exactly when STATUS reads BUSY = 0; before that the engine moves on, and the
loop is still to be taken. -/
def Obligations.WaitEndsWhenBusyReadsZero : Prop :=
  ∀ (s : State) (rest : List Event), s.events = .wait :: rest →
    (s.status.busy = false →
      step s = .next { s with
        events := rest, hostReads := s.readReg 0x08 :: s.hostReads, lent := [] }) ∧
    (s.Inv → s.status.busy = true →
      ∃ t, step s = .next t ∧ t.events = s.events ∧ t.status.busy = false)

/-! ### The assembler (30_encoding.md R98 to R101) -/

/-- R99: `pt` is `((y mod 2^16) << 16) OR (x mod 2^16)` in range, and reads back as the point (R29); a statement with a
coordinate out of range, `POLYMASK` included, or a `PLOT` with coverage above 31, is rejected: it has no expansion. -/
def Obligations.PointPacksItsCoordinates : Prop :=
  ∀ x y : Int,
    (-32768 ≤ x → x ≤ 32767 → -32768 ≤ y → y ≤ 32767 →
      ∃ w, pt x y = some w ∧ w.toNat = ((y % 65536).toNat <<< 16) ||| (x % 65536).toNat ∧
        coordX w = x ∧ coordY w = y) ∧
    (x < -32768 ∨ 32767 < x ∨ y < -32768 ∨ 32767 < y →
      pt x y = none ∧ (∀ cov, (Stmt.plot x y cov).expand = none) ∧ (Stmt.fill x y).expand = none ∧
      ∀ u v, (Stmt.line x y u v).expand = none ∧ (Stmt.line u v x y).expand = none ∧
        (Stmt.mbegin x y u v).expand = none ∧ (Stmt.mbegin u v x y).expand = none ∧
        (Stmt.medge x y u v).expand = none ∧ (Stmt.medge u v x y).expand = none) ∧
    (x < -32768 ∨ 32767 < x ∨ y < -32768 ∨ 32767 < y →
      ∀ ps, (x, y) ∈ ps → (Stmt.polymask ps).expand = none) ∧
    (∀ cov, 31 < cov → (Stmt.plot x y cov).expand = none)

/-- R100: the expansions. Those of `PLOT`, `LINE`, `MBEGIN`, `MEDGE` and `FILL`, run on an idle machine with no other move
pending, accept the word that decodes to the command, with its points latched; `POLYMASK` is one `MEDGE` an edge, the
wraparound edge last, each followed by `WAIT`; the other statements are the writes R100 lists. That a `SETFB` or
`SETCTRL` word above 32 bits is cut to 32 bits is the model's choice (log entry 18), and that `WAIT` is one move
(log entry 16). -/
def Obligations.StatementsStartTheirCommands : Prop :=
  (∀ (s : State) (x y u v : Int), -32768 ≤ x → x ≤ 32767 → -32768 ≤ y → y ≤ 32767 →
    -32768 ≤ u → u ≤ 32767 → -32768 ≤ v → v ≤ 32767 →
    s.status.busy = false → s.posted = [] → s.cfg.sideEffects = [] →
    (∀ st i, ((∃ cov, cov < 32 ∧ st = Stmt.plot x y cov ∧ i = .plot cov) ∨ (st = .fill x y ∧ i = .fill)) →
      ∃ moves t, Stmt.expand st = some moves ∧ Core.run core 2 { s with events := moves } = .next t ∧
        decode t.latch.cmd = .ok i ∧ t.latch.x0 = x ∧ t.latch.y0 = y ∧
        t.progress = .running .start ∧ t.events = []) ∧
    (∀ st i, (st, i) ∈ [(Stmt.line x y u v, Instr.line), (.mbegin x y u v, .mbegin), (.medge x y u v, .medge)] →
      ∃ moves t, Stmt.expand st = some moves ∧ Core.run core 3 { s with events := moves } = .next t ∧
        decode t.latch.cmd = .ok i ∧ t.latch.x0 = x ∧ t.latch.y0 = y ∧ t.latch.x1 = u ∧ t.latch.y1 = v ∧
        t.progress = .running .start ∧ t.events = [])) ∧
  (Stmt.polymask []).expand = some [] ∧
  (∀ (p : Int × Int) (ps : List (Int × Int)), (Stmt.polymask (p :: ps)).expand =
    (((p :: ps).zip (ps ++ [p])).mapM fun e => (Stmt.medge e.1.1 e.1.2 e.2.1 e.2.2).expand).map
      fun edges => (edges.map fun e => e ++ [.wait]).flatten) ∧
  Stmt.nop.expand = some [.wr 0x24 4 0x00000000] ∧ Stmt.wait.expand = some [.wait] ∧
  Stmt.clrst.expand = some [.wr 0x08 4 0x0000000E] ∧
  (∀ c, (Stmt.setColor c).expand = some [.wr 0x18 4 c]) ∧
  (∀ base w h stride, (Stmt.setFb base w h stride).expand =
    some [.wr 0x0C 4 base, .wr 0x10 4 (BitVec.ofNat 32 ((h <<< 16) ||| w)), .wr 0x14 4 stride]) ∧
  (∀ fmt ie, (Stmt.setCtrl fmt ie).expand = some [.wr 0x04 4 (BitVec.ofNat 32 ((ie <<< 1) ||| fmt))])
end

