-- ==== Sys2Proof/Laws/Memory.lean ====
section
/-! SUPPORT. Laws of the frame-buffer space and of the mask RAM: read after write, the canonical form, and
that canonical memories with equal reads are equal. -/

namespace Sys2Proof.Machine

/-! ### Bytes -/

@[simp] theorem Memory.read_nil (a : Nat) : Memory.read [] a = Memory.unlisted := rfl

theorem Memory.read_cons_cell (b : Nat) (w : Byte) (m : List Host.Cell) (a : Nat) :
    Memory.read ((b, w) :: m) a = if a = b then w else Memory.read m a := rfl

/-- An address below every listed one reads as unlisted. -/
theorem Memory.read_below (m : List Host.Cell) (a : Nat) (h : ∀ c ∈ m, a < c.1) :
    Memory.read m a = Memory.unlisted := by
  induction m with
  | nil => rfl
  | cons c m ih =>
    have hc : a < c.1 := h c (by simp)
    rw [show c = (c.1, c.2) from rfl, Memory.read_cons_cell, if_neg (by omega)]
    exact ih fun d hd => h d (by simp [hd])

theorem Memory.read_cons_same (a : Nat) (v : Byte) (m : List Host.Cell) (h : ∀ c ∈ m, a < c.1) :
    Memory.read (Memory.cons a v m) a = v := by
  unfold Memory.cons
  split
  · next hv => rw [Memory.read_below m a h, hv]
  · simp [Memory.read_cons_cell]

theorem Memory.read_cons_other (a b : Nat) (v : Byte) (m : List Host.Cell) (h : b ≠ a) :
    Memory.read (Memory.cons a v m) b = Memory.read m b := by
  unfold Memory.cons
  split
  · rfl
  · rw [Memory.read_cons_cell, if_neg h]

theorem Memory.rising_tail {c : Host.Cell} {m : List Host.Cell}
    (h : (c :: m).Pairwise (fun c d => c.1 < d.1)) : m.Pairwise (fun c d => c.1 < d.1) :=
  (List.pairwise_cons.1 h).2

/-- Reading back a written byte. -/
theorem Memory.read_write_same (m : List Host.Cell) (a : Nat) (v : Byte)
    (h : m.Pairwise (fun c d => c.1 < d.1)) : Memory.read (Memory.write m a v) a = v := by
  induction m with
  | nil => exact Memory.read_cons_same a v [] (by simp)
  | cons c m ih =>
    obtain ⟨b, w⟩ := c
    obtain ⟨hb, hm⟩ := List.pairwise_cons.1 h
    simp only [Memory.write]
    split
    · next hab =>
      refine Memory.read_cons_same a v _ fun d hd => ?_
      rcases List.mem_cons.1 hd with rfl | hd
      · exact hab
      · exact lt_trans hab (hb d hd)
    · split
      · next _ hab =>
        subst hab
        exact Memory.read_cons_same a v m hb
      · next hlt hne => rw [Memory.read_cons_cell, if_neg hne, ih hm]

/-- A write leaves every other byte alone. -/
theorem Memory.read_write_other (m : List Host.Cell) (a b : Nat) (v : Byte) (h : b ≠ a) :
    Memory.read (Memory.write m a v) b = Memory.read m b := by
  induction m with
  | nil => exact Memory.read_cons_other a b v [] h
  | cons c m ih =>
    obtain ⟨k, w⟩ := c
    simp only [Memory.write]
    split
    · exact Memory.read_cons_other a b v _ h
    · split
      · next _ hab =>
        subst hab
        rw [Memory.read_cons_other a b v m h, Memory.read_cons_cell, if_neg h]
      · rw [Memory.read_cons_cell, Memory.read_cons_cell, ih]

/-- Every cell of a written memory was listed before or is the written one. -/
theorem Memory.mem_write {m : List Host.Cell} {a : Nat} {v : Byte} {c : Host.Cell}
    (h : c ∈ Memory.write m a v) : c ∈ m ∨ (c = (a, v) ∧ v ≠ Memory.unlisted) := by
  induction m with
  | nil =>
    simp only [Memory.write, Memory.cons] at h
    split at h <;> simp_all
  | cons d m ih =>
    obtain ⟨b, w⟩ := d
    simp only [Memory.write, Memory.cons] at h
    split at h
    · split at h
      · exact .inl h
      · rcases List.mem_cons.1 h with rfl | h
        · exact .inr ⟨rfl, ‹_›⟩
        · exact .inl h
    · split at h
      · split at h
        · exact .inl (List.mem_cons_of_mem _ h)
        · simp only [List.mem_cons] at h ⊢
          rcases h with rfl | h
          · exact .inr ⟨rfl, ‹_›⟩
          · exact .inl (.inr h)
      · simp only [List.mem_cons] at h ⊢
        rcases h with rfl | h
        · exact .inl (.inl rfl)
        · exact (ih h).imp_left .inr

/-- A write keeps the canonical form. -/
theorem Memory.wf_write (m : List Host.Cell) (a : Nat) (v : Byte) (hm : Memory.wf m) (ha : a < 2 ^ 32) :
    Memory.wf (Memory.write m a v) := by
  refine ⟨?_, fun c hc => ?_⟩
  · obtain ⟨hr, -⟩ := hm
    induction m with
    | nil =>
      simp only [Memory.write, Memory.cons]
      split <;> simp
    | cons c m ih =>
      obtain ⟨b, w⟩ := c
      obtain ⟨hb, hm⟩ := List.pairwise_cons.1 hr
      simp only [Memory.write, Memory.cons]
      split
      · next hab =>
        split
        · exact hr
        · refine List.pairwise_cons.2 ⟨fun d hd => ?_, hr⟩
          rcases List.mem_cons.1 hd with rfl | hd
          · exact hab
          · exact lt_trans hab (hb d hd)
      · split
        · next _ hab =>
          subst hab
          split
          · exact hm
          · exact List.pairwise_cons.2 ⟨hb, hm⟩
        · next hlt hne =>
          refine List.pairwise_cons.2 ⟨fun d hd => ?_, ih hm⟩
          rcases Memory.mem_write hd with hd | ⟨rfl, -⟩
          · exact hb d hd
          · show b < a
            omega
  · rcases Memory.mem_write hc with hc | ⟨rfl, hv⟩
    · exact hm.2 c hc
    · exact ⟨hv, ha⟩

theorem Memory.wf_nil : Memory.wf [] := ⟨List.Pairwise.nil, fun _ h => absurd h List.not_mem_nil⟩

/-- The canonical form is canonical: equal reads make equal memories. -/
theorem Memory.ext_read (m n : List Host.Cell) (hm : Memory.wf m) (hn : Memory.wf n)
    (h : ∀ a, Memory.read m a = Memory.read n a) : m = n := by
  induction m generalizing n with
  | nil =>
    cases n with
    | nil => rfl
    | cons d n =>
      have hd := h d.1
      rw [show d = (d.1, d.2) from rfl, Memory.read_cons_cell, if_pos rfl, Memory.read_nil] at hd
      exact absurd hd.symm (hn.2 d (by simp)).1
  | cons c m ih =>
    have hcm := List.pairwise_cons.1 hm.1
    cases n with
    | nil =>
      have hc := h c.1
      rw [show c = (c.1, c.2) from rfl, Memory.read_cons_cell, if_pos rfl, Memory.read_nil] at hc
      exact absurd hc (hm.2 c (by simp)).1
    | cons d n =>
      have hdn := List.pairwise_cons.1 hn.1
      have hc := h c.1
      have hd := h d.1
      rw [show c = (c.1, c.2) from rfl, show d = (d.1, d.2) from rfl, Memory.read_cons_cell,
        Memory.read_cons_cell] at hc hd
      simp only [if_true] at hc hd
      have key : c.1 = d.1 := by
        rcases lt_trichotomy c.1 d.1 with hlt | heq | hgt
        · rw [if_neg (by omega), Memory.read_below n _ fun e he => lt_trans hlt (hdn.1 e he)] at hc
          exact absurd hc (hm.2 c (by simp)).1
        · exact heq
        · rw [if_neg (by omega), Memory.read_below m _ fun e he => lt_trans hgt (hcm.1 e he)] at hd
          exact absurd hd.symm (hn.2 d (by simp)).1
      rw [if_pos key] at hc
      have hcd : c = d := Prod.ext key hc
      subst hcd
      congr 1
      refine ih n ⟨hcm.2, fun e he => hm.2 e (by simp [he])⟩ ⟨hdn.2, fun e he => hn.2 e (by simp [he])⟩ fun a => ?_
      by_cases ha : a = c.1
      · subst ha
        rw [Memory.read_below m _ fun e he => hcm.1 e he, Memory.read_below n _ fun e he => hdn.1 e he]
      · have := h a
        rwa [show c = (c.1, c.2) from rfl, Memory.read_cons_cell, Memory.read_cons_cell, if_neg ha,
          if_neg ha] at this

/-! ### Little-endian accesses -/

theorem mem_bytesAt {a : Word} {size b : Nat} :
    b ∈ bytesAt a size ↔ ∃ k < size, b = (a.toNat + k) % 2 ^ 32 := by
  simp only [bytesAt, List.mem_map, List.mem_range]
  exact exists_congr fun k => and_congr_right fun _ => eq_comm

/-- A store keeps the canonical form. -/
theorem storeLE_wf (size : Nat) (m : List Host.Cell) (a v : Nat) (hm : Memory.wf m) :
    Memory.wf (storeLE m a v size) := by
  induction size generalizing m a v with
  | zero => exact hm
  | succ n ih => exact ih _ _ _ (Memory.wf_write m _ _ hm (Nat.mod_lt _ (by norm_num)))

/-- A store leaves every byte outside it alone. -/
theorem read_storeLE_other (size : Nat) (m : List Host.Cell) (a v b : Nat)
    (h : ∀ k < size, b ≠ (a + k) % 2 ^ 32) : Memory.read (storeLE m a v size) b = Memory.read m b := by
  induction size generalizing m a v with
  | zero => rfl
  | succ n ih =>
    rw [storeLE, ih _ _ _ fun k hk => by
      have := h (k + 1) (by omega)
      rwa [show a + (k + 1) = a + 1 + k by omega] at this]
    exact Memory.read_write_other _ _ _ _ (by simpa using h 0 (by omega))

/-- Byte `k` of a store is byte `k` of the value, the least significant at the lowest address. -/
theorem read_storeLE_byte (size : Nat) (m : List Host.Cell) (a v k : Nat) (hm : Memory.wf m)
    (hk : k < size) (hs : size ≤ 4) :
    Memory.read (storeLE m a v size) ((a + k) % 2 ^ 32) = BitVec.ofNat 8 (v / 256 ^ k) := by
  induction size generalizing m a v k with
  | zero => omega
  | succ n ih =>
    rw [storeLE]
    have hw := Memory.wf_write m (a % 2 ^ 32) (BitVec.ofNat 8 v) hm (Nat.mod_lt _ (by norm_num))
    cases k with
    | zero =>
      rw [read_storeLE_other]
      · rw [pow_zero, Nat.div_one, Nat.add_zero]
        exact Memory.read_write_same m (a % 2 ^ 32) (BitVec.ofNat 8 v) hm.1
      · intro j hj
        omega
    | succ k =>
      rw [show a + (k + 1) = a + 1 + k by omega, ih _ _ _ k hw (by omega) (by omega),
        Nat.div_div_eq_div_mul, pow_succ, Nat.mul_comm]

theorem loadLE_lt (size : Nat) (m : List Host.Cell) (a : Nat) : loadLE m a size < 256 ^ size := by
  induction size generalizing a with
  | zero => simp [loadLE]
  | succ n ih =>
    have h1 := ih (a + 1)
    have h2 := (Memory.read m (a % 2 ^ 32)).isLt
    rw [loadLE, pow_succ]
    omega

/-- A load depends on its own bytes only. -/
theorem loadLE_congr (size : Nat) (m n : List Host.Cell) (a : Nat)
    (h : ∀ k < size, Memory.read m ((a + k) % 2 ^ 32) = Memory.read n ((a + k) % 2 ^ 32)) :
    loadLE m a size = loadLE n a size := by
  induction size generalizing a with
  | zero => rfl
  | succ j ih =>
    have h0 := h 0 (by omega)
    rw [Nat.add_zero] at h0
    rw [loadLE, loadLE, h0, ih (a + 1) fun k hk => by
      have := h (k + 1) (by omega)
      rwa [show a + (k + 1) = a + 1 + k by omega] at this]

/-- The bytes of a number, put together again. -/
theorem loadLE_of_bytes (size : Nat) (m : List Host.Cell) (a v : Nat)
    (h : ∀ k < size, Memory.read m ((a + k) % 2 ^ 32) = BitVec.ofNat 8 (v / 256 ^ k)) :
    loadLE m a size = v % 256 ^ size := by
  induction size generalizing a v with
  | zero => simp [loadLE, Nat.mod_one]
  | succ n ih =>
    have h0 := h 0 (by omega)
    simp only [Nat.add_zero, pow_zero, Nat.div_one] at h0
    rw [loadLE, h0, ih (a + 1) (v / 256) fun k hk => by
      have := h (k + 1) (by omega)
      rw [show a + (k + 1) = a + 1 + k by omega] at this
      rw [this, Nat.div_div_eq_div_mul, pow_succ, Nat.mul_comm]]
    have e : (256 : Nat) ^ (n + 1) = 256 * 256 ^ n := by rw [pow_succ, Nat.mul_comm]
    rw [BitVec.toNat_ofNat, e, Nat.mod_mul]

/-- A load of a stored container gives the stored value. -/
theorem loadLE_storeLE_same (size : Nat) (m : List Host.Cell) (a v : Nat) (hm : Memory.wf m)
    (hs : size ≤ 4) : loadLE (storeLE m a v size) a size = v % 256 ^ size :=
  loadLE_of_bytes size _ a v fun k hk => read_storeLE_byte size m a v k hm hk hs

/-- Storing the bytes a container already holds changes nothing. -/
theorem storeLE_of_bytes (size : Nat) (m : List Host.Cell) (a v : Nat) (hm : Memory.wf m) (hs : size ≤ 4)
    (h : ∀ k < size, Memory.read m ((a + k) % 2 ^ 32) = BitVec.ofNat 8 (v / 256 ^ k)) :
    storeLE m a v size = m := by
  refine Memory.ext_read _ _ (storeLE_wf size m a v hm) hm fun b => ?_
  by_cases hb : ∃ k < size, b = (a + k) % 2 ^ 32
  · obtain ⟨k, hk, rfl⟩ := hb
    rw [read_storeLE_byte size m a v k hm hk hs, h k hk]
  · exact read_storeLE_other size m a v b fun k hk e => hb ⟨k, hk, e⟩

/-! ### The mask RAM -/

theorem MaskRam.mem_set {r : List Nat} {i j : Nat} : j ∈ MaskRam.set r i ↔ j = i ∨ j ∈ r := by
  induction r with
  | nil => simp [MaskRam.set]
  | cons k r ih =>
    simp only [MaskRam.set]
    split
    · simp
    · split
      · next _ h => subst h; simp
      · simp only [List.mem_cons, ih]
        tauto

theorem MaskRam.get_iff {r : List Nat} {i : Nat} : MaskRam.get r i = true ↔ i ∈ r := by
  simp [MaskRam.get]

@[simp] theorem MaskRam.get_nil (i : Nat) : MaskRam.get [] i = false := rfl

/-- Setting a bit is an OR. -/
theorem MaskRam.get_set (r : List Nat) (i j : Nat) :
    MaskRam.get (MaskRam.set r i) j = (decide (j = i) || MaskRam.get r j) := by
  rw [Bool.eq_iff_iff, MaskRam.get_iff, MaskRam.mem_set]
  simp [MaskRam.get_iff]

theorem MaskRam.rising_set {r : List Nat} (h : r.Pairwise (· < ·)) (i : Nat) :
    (MaskRam.set r i).Pairwise (· < ·) := by
  induction r with
  | nil => simp [MaskRam.set]
  | cons k r ih =>
    obtain ⟨hk, hr⟩ := List.pairwise_cons.1 h
    simp only [MaskRam.set]
    split
    · next hik =>
      refine List.pairwise_cons.2 ⟨fun j hj => ?_, h⟩
      rcases List.mem_cons.1 hj with rfl | hj
      · exact hik
      · exact lt_trans hik (hk j hj)
    · split
      · exact h
      · next h1 h2 =>
        refine List.pairwise_cons.2 ⟨fun j hj => ?_, ih hr⟩
        rcases MaskRam.mem_set.1 hj with rfl | hj
        · omega
        · exact hk j hj

/-- Setting a bit of the RAM keeps its canonical form. -/
theorem MaskRam.wf_set {r : List Nat} {bytes i : Nat} (h : MaskRam.wf r bytes) (hi : i < 8 * bytes) :
    MaskRam.wf (MaskRam.set r i) bytes :=
  ⟨MaskRam.rising_set h.1 i, fun j hj => (MaskRam.mem_set.1 hj).elim (fun e => e ▸ hi) (h.2 j)⟩

theorem MaskRam.wf_nil (bytes : Nat) : MaskRam.wf [] bytes :=
  ⟨List.Pairwise.nil, fun _ h => absurd h List.not_mem_nil⟩

theorem MaskRam.wf_foldl {bits r : List Nat} {bytes : Nat} (h : MaskRam.wf r bytes)
    (hb : ∀ i ∈ bits, i < 8 * bytes) : MaskRam.wf (bits.foldl MaskRam.set r) bytes := by
  induction bits generalizing r with
  | nil => exact h
  | cons i bits ih =>
    exact ih (MaskRam.wf_set h (hb i (by simp))) fun j hj => hb j (by simp [hj])

/-- Unspecified contents are some canonical contents of the RAM. -/
theorem MaskRam.wf_ofBits (bits : List Nat) (bytes : Nat) : MaskRam.wf (MaskRam.ofBits bits bytes) bytes :=
  MaskRam.wf_foldl (MaskRam.wf_nil bytes) fun i hi => by simpa using (List.mem_filter.1 hi).2

end Sys2Proof.Machine
end

