-- ==== Sys2Proof/Laws/State.lean ====
section
/-! SUPPORT. What each named update of the state does to each field: one lemma a field, true by definition. -/

namespace Sys2Proof.Machine

variable (s : State)

/-! ### `State.complete` -/
@[simp] theorem State.complete_cfg : (s.complete).cfg = s.cfg := rfl
@[simp] theorem State.complete_ctrl : (s.complete).ctrl = s.ctrl := rfl
@[simp] theorem State.complete_status :
    (s.complete).status = { s.status with busy := false, done := true } := rfl
@[simp] theorem State.complete_fbBase : (s.complete).fbBase = s.fbBase := rfl
@[simp] theorem State.complete_fbSize : (s.complete).fbSize = s.fbSize := rfl
@[simp] theorem State.complete_fbStride : (s.complete).fbStride = s.fbStride := rfl
@[simp] theorem State.complete_color : (s.complete).color = s.color := rfl
@[simp] theorem State.complete_p0 : (s.complete).p0 = s.p0 := rfl
@[simp] theorem State.complete_p1 : (s.complete).p1 = s.p1 := rfl
@[simp] theorem State.complete_maskMin : (s.complete).maskMin = s.maskMin := rfl
@[simp] theorem State.complete_maskMax : (s.complete).maskMax = s.maskMax := rfl
@[simp] theorem State.complete_faultAddr : (s.complete).faultAddr = s.faultAddr := rfl
@[simp] theorem State.complete_latch : (s.complete).latch = s.latch := rfl
@[simp] theorem State.complete_maskRam : (s.complete).maskRam = s.maskRam := rfl
@[simp] theorem State.complete_seeds : (s.complete).seeds = s.seeds := rfl
@[simp] theorem State.complete_progress : (s.complete).progress = .idle := rfl
@[simp] theorem State.complete_mem : (s.complete).mem = s.mem := rfl
@[simp] theorem State.complete_posted : (s.complete).posted = s.posted := rfl
@[simp] theorem State.complete_lent : (s.complete).lent = s.lent := rfl
@[simp] theorem State.complete_events : (s.complete).events = s.events := rfl
@[simp] theorem State.complete_hostReads : (s.complete).hostReads = s.hostReads := rfl
@[simp] theorem State.complete_trace : (s.complete).trace = s.trace := rfl
@[simp] theorem State.complete_freeCount : (s.complete).freeCount = s.freeCount := rfl

/-! ### `State.raise` -/
@[simp] theorem State.raise_cfg (code : ErrCode) : (s.raise code).cfg = s.cfg := rfl
@[simp] theorem State.raise_ctrl (code : ErrCode) : (s.raise code).ctrl = s.ctrl := rfl
@[simp] theorem State.raise_status (code : ErrCode) :
    (s.raise code).status = { s.status with errcode := code, err := true, busy := false } := rfl
@[simp] theorem State.raise_fbBase (code : ErrCode) : (s.raise code).fbBase = s.fbBase := rfl
@[simp] theorem State.raise_fbSize (code : ErrCode) : (s.raise code).fbSize = s.fbSize := rfl
@[simp] theorem State.raise_fbStride (code : ErrCode) : (s.raise code).fbStride = s.fbStride := rfl
@[simp] theorem State.raise_color (code : ErrCode) : (s.raise code).color = s.color := rfl
@[simp] theorem State.raise_p0 (code : ErrCode) : (s.raise code).p0 = s.p0 := rfl
@[simp] theorem State.raise_p1 (code : ErrCode) : (s.raise code).p1 = s.p1 := rfl
@[simp] theorem State.raise_maskMin (code : ErrCode) : (s.raise code).maskMin = s.maskMin := rfl
@[simp] theorem State.raise_maskMax (code : ErrCode) : (s.raise code).maskMax = s.maskMax := rfl
@[simp] theorem State.raise_faultAddr (code : ErrCode) : (s.raise code).faultAddr = s.faultAddr := rfl
@[simp] theorem State.raise_latch (code : ErrCode) : (s.raise code).latch = s.latch := rfl
@[simp] theorem State.raise_maskRam (code : ErrCode) : (s.raise code).maskRam = s.maskRam := rfl
@[simp] theorem State.raise_seeds (code : ErrCode) : (s.raise code).seeds = s.seeds := rfl
@[simp] theorem State.raise_progress (code : ErrCode) : (s.raise code).progress = .idle := rfl
@[simp] theorem State.raise_mem (code : ErrCode) : (s.raise code).mem = s.mem := rfl
@[simp] theorem State.raise_posted (code : ErrCode) : (s.raise code).posted = s.posted := rfl
@[simp] theorem State.raise_lent (code : ErrCode) : (s.raise code).lent = s.lent := rfl
@[simp] theorem State.raise_events (code : ErrCode) : (s.raise code).events = s.events := rfl
@[simp] theorem State.raise_hostReads (code : ErrCode) : (s.raise code).hostReads = s.hostReads := rfl
@[simp] theorem State.raise_trace (code : ErrCode) : (s.raise code).trace = s.trace := rfl
@[simp] theorem State.raise_freeCount (code : ErrCode) : (s.raise code).freeCount = s.freeCount := rfl

/-! ### `State.dropMask` -/
@[simp] theorem State.dropMask_cfg : (s.dropMask).cfg = s.cfg := rfl
@[simp] theorem State.dropMask_ctrl : (s.dropMask).ctrl = s.ctrl := rfl
@[simp] theorem State.dropMask_status : (s.dropMask).status = { s.status with maskValid := false } := rfl
@[simp] theorem State.dropMask_fbBase : (s.dropMask).fbBase = s.fbBase := rfl
@[simp] theorem State.dropMask_fbSize : (s.dropMask).fbSize = s.fbSize := rfl
@[simp] theorem State.dropMask_fbStride : (s.dropMask).fbStride = s.fbStride := rfl
@[simp] theorem State.dropMask_color : (s.dropMask).color = s.color := rfl
@[simp] theorem State.dropMask_p0 : (s.dropMask).p0 = s.p0 := rfl
@[simp] theorem State.dropMask_p1 : (s.dropMask).p1 = s.p1 := rfl
@[simp] theorem State.dropMask_maskMin : (s.dropMask).maskMin = s.maskMin := rfl
@[simp] theorem State.dropMask_maskMax : (s.dropMask).maskMax = s.maskMax := rfl
@[simp] theorem State.dropMask_faultAddr : (s.dropMask).faultAddr = s.faultAddr := rfl
@[simp] theorem State.dropMask_latch : (s.dropMask).latch = s.latch := rfl
@[simp] theorem State.dropMask_maskRam : (s.dropMask).maskRam = s.maskRam := rfl
@[simp] theorem State.dropMask_seeds : (s.dropMask).seeds = s.seeds := rfl
@[simp] theorem State.dropMask_progress : (s.dropMask).progress = s.progress := rfl
@[simp] theorem State.dropMask_mem : (s.dropMask).mem = s.mem := rfl
@[simp] theorem State.dropMask_posted : (s.dropMask).posted = s.posted := rfl
@[simp] theorem State.dropMask_lent : (s.dropMask).lent = s.lent := rfl
@[simp] theorem State.dropMask_events : (s.dropMask).events = s.events := rfl
@[simp] theorem State.dropMask_hostReads : (s.dropMask).hostReads = s.hostReads := rfl
@[simp] theorem State.dropMask_trace : (s.dropMask).trace = s.trace := rfl
@[simp] theorem State.dropMask_freeCount : (s.dropMask).freeCount = s.freeCount := rfl

/-! ### `State.goto` -/
@[simp] theorem State.goto_cfg (k : Cont) : (s.goto k).cfg = s.cfg := rfl
@[simp] theorem State.goto_ctrl (k : Cont) : (s.goto k).ctrl = s.ctrl := rfl
@[simp] theorem State.goto_status (k : Cont) : (s.goto k).status = s.status := rfl
@[simp] theorem State.goto_fbBase (k : Cont) : (s.goto k).fbBase = s.fbBase := rfl
@[simp] theorem State.goto_fbSize (k : Cont) : (s.goto k).fbSize = s.fbSize := rfl
@[simp] theorem State.goto_fbStride (k : Cont) : (s.goto k).fbStride = s.fbStride := rfl
@[simp] theorem State.goto_color (k : Cont) : (s.goto k).color = s.color := rfl
@[simp] theorem State.goto_p0 (k : Cont) : (s.goto k).p0 = s.p0 := rfl
@[simp] theorem State.goto_p1 (k : Cont) : (s.goto k).p1 = s.p1 := rfl
@[simp] theorem State.goto_maskMin (k : Cont) : (s.goto k).maskMin = s.maskMin := rfl
@[simp] theorem State.goto_maskMax (k : Cont) : (s.goto k).maskMax = s.maskMax := rfl
@[simp] theorem State.goto_faultAddr (k : Cont) : (s.goto k).faultAddr = s.faultAddr := rfl
@[simp] theorem State.goto_latch (k : Cont) : (s.goto k).latch = s.latch := rfl
@[simp] theorem State.goto_maskRam (k : Cont) : (s.goto k).maskRam = s.maskRam := rfl
@[simp] theorem State.goto_seeds (k : Cont) : (s.goto k).seeds = s.seeds := rfl
@[simp] theorem State.goto_progress (k : Cont) : (s.goto k).progress = .running k := rfl
@[simp] theorem State.goto_mem (k : Cont) : (s.goto k).mem = s.mem := rfl
@[simp] theorem State.goto_posted (k : Cont) : (s.goto k).posted = s.posted := rfl
@[simp] theorem State.goto_lent (k : Cont) : (s.goto k).lent = s.lent := rfl
@[simp] theorem State.goto_events (k : Cont) : (s.goto k).events = s.events := rfl
@[simp] theorem State.goto_hostReads (k : Cont) : (s.goto k).hostReads = s.hostReads := rfl
@[simp] theorem State.goto_trace (k : Cont) : (s.goto k).trace = s.trace := rfl
@[simp] theorem State.goto_freeCount (k : Cont) : (s.goto k).freeCount = s.freeCount := rfl

/-! ### `State.noteRead` -/
@[simp] theorem State.noteRead_cfg (a : Word) : (s.noteRead a).cfg = s.cfg := rfl
@[simp] theorem State.noteRead_ctrl (a : Word) : (s.noteRead a).ctrl = s.ctrl := rfl
@[simp] theorem State.noteRead_status (a : Word) : (s.noteRead a).status = s.status := rfl
@[simp] theorem State.noteRead_fbBase (a : Word) : (s.noteRead a).fbBase = s.fbBase := rfl
@[simp] theorem State.noteRead_fbSize (a : Word) : (s.noteRead a).fbSize = s.fbSize := rfl
@[simp] theorem State.noteRead_fbStride (a : Word) : (s.noteRead a).fbStride = s.fbStride := rfl
@[simp] theorem State.noteRead_color (a : Word) : (s.noteRead a).color = s.color := rfl
@[simp] theorem State.noteRead_p0 (a : Word) : (s.noteRead a).p0 = s.p0 := rfl
@[simp] theorem State.noteRead_p1 (a : Word) : (s.noteRead a).p1 = s.p1 := rfl
@[simp] theorem State.noteRead_maskMin (a : Word) : (s.noteRead a).maskMin = s.maskMin := rfl
@[simp] theorem State.noteRead_maskMax (a : Word) : (s.noteRead a).maskMax = s.maskMax := rfl
@[simp] theorem State.noteRead_faultAddr (a : Word) : (s.noteRead a).faultAddr = s.faultAddr := rfl
@[simp] theorem State.noteRead_latch (a : Word) : (s.noteRead a).latch = s.latch := rfl
@[simp] theorem State.noteRead_maskRam (a : Word) : (s.noteRead a).maskRam = s.maskRam := rfl
@[simp] theorem State.noteRead_seeds (a : Word) : (s.noteRead a).seeds = s.seeds := rfl
@[simp] theorem State.noteRead_progress (a : Word) : (s.noteRead a).progress = s.progress := rfl
@[simp] theorem State.noteRead_mem (a : Word) : (s.noteRead a).mem = s.mem := rfl
@[simp] theorem State.noteRead_posted (a : Word) : (s.noteRead a).posted = s.posted := rfl
@[simp] theorem State.noteRead_lent (a : Word) : (s.noteRead a).lent = s.lent := rfl
@[simp] theorem State.noteRead_events (a : Word) : (s.noteRead a).events = s.events := rfl
@[simp] theorem State.noteRead_hostReads (a : Word) : (s.noteRead a).hostReads = s.hostReads := rfl
@[simp] theorem State.noteRead_trace (a : Word) :
    (s.noteRead a).trace = { kind := AccessKind.read, addr := a, size := s.latch.fmt.bpp } :: s.trace := rfl
@[simp] theorem State.noteRead_freeCount (a : Word) : (s.noteRead a).freeCount = s.freeCount := rfl

/-! ### `State.writePixel` -/
@[simp] theorem State.writePixel_cfg (a v : Word) : (s.writePixel a v).cfg = s.cfg := rfl
@[simp] theorem State.writePixel_ctrl (a v : Word) : (s.writePixel a v).ctrl = s.ctrl := rfl
@[simp] theorem State.writePixel_status (a v : Word) : (s.writePixel a v).status = s.status := rfl
@[simp] theorem State.writePixel_fbBase (a v : Word) : (s.writePixel a v).fbBase = s.fbBase := rfl
@[simp] theorem State.writePixel_fbSize (a v : Word) : (s.writePixel a v).fbSize = s.fbSize := rfl
@[simp] theorem State.writePixel_fbStride (a v : Word) : (s.writePixel a v).fbStride = s.fbStride := rfl
@[simp] theorem State.writePixel_color (a v : Word) : (s.writePixel a v).color = s.color := rfl
@[simp] theorem State.writePixel_p0 (a v : Word) : (s.writePixel a v).p0 = s.p0 := rfl
@[simp] theorem State.writePixel_p1 (a v : Word) : (s.writePixel a v).p1 = s.p1 := rfl
@[simp] theorem State.writePixel_maskMin (a v : Word) : (s.writePixel a v).maskMin = s.maskMin := rfl
@[simp] theorem State.writePixel_maskMax (a v : Word) : (s.writePixel a v).maskMax = s.maskMax := rfl
@[simp] theorem State.writePixel_faultAddr (a v : Word) : (s.writePixel a v).faultAddr = s.faultAddr := rfl
@[simp] theorem State.writePixel_latch (a v : Word) : (s.writePixel a v).latch = s.latch := rfl
@[simp] theorem State.writePixel_maskRam (a v : Word) : (s.writePixel a v).maskRam = s.maskRam := rfl
@[simp] theorem State.writePixel_seeds (a v : Word) : (s.writePixel a v).seeds = s.seeds := rfl
@[simp] theorem State.writePixel_progress (a v : Word) : (s.writePixel a v).progress = s.progress := rfl
@[simp] theorem State.writePixel_mem (a v : Word) :
    (s.writePixel a v).mem = storeLE s.mem a.toNat v.toNat s.latch.fmt.bpp := rfl
@[simp] theorem State.writePixel_posted (a v : Word) : (s.writePixel a v).posted = s.posted := rfl
@[simp] theorem State.writePixel_lent (a v : Word) : (s.writePixel a v).lent = s.lent := rfl
@[simp] theorem State.writePixel_events (a v : Word) : (s.writePixel a v).events = s.events := rfl
@[simp] theorem State.writePixel_hostReads (a v : Word) : (s.writePixel a v).hostReads = s.hostReads := rfl
@[simp] theorem State.writePixel_trace (a v : Word) :
    (s.writePixel a v).trace = { kind := AccessKind.write, addr := a, size := s.latch.fmt.bpp } :: s.trace := rfl
@[simp] theorem State.writePixel_freeCount (a v : Word) : (s.writePixel a v).freeCount = s.freeCount := rfl

/-! ### `State.busError` -/
@[simp] theorem State.busError_cfg (a : Word) : (s.busError a).cfg = s.cfg := rfl
@[simp] theorem State.busError_ctrl (a : Word) : (s.busError a).ctrl = s.ctrl := rfl
@[simp] theorem State.busError_status (a : Word) :
    (s.busError a).status = { s.status with errcode := .busError, err := true, busy := false } := rfl
@[simp] theorem State.busError_fbBase (a : Word) : (s.busError a).fbBase = s.fbBase := rfl
@[simp] theorem State.busError_fbSize (a : Word) : (s.busError a).fbSize = s.fbSize := rfl
@[simp] theorem State.busError_fbStride (a : Word) : (s.busError a).fbStride = s.fbStride := rfl
@[simp] theorem State.busError_color (a : Word) : (s.busError a).color = s.color := rfl
@[simp] theorem State.busError_p0 (a : Word) : (s.busError a).p0 = s.p0 := rfl
@[simp] theorem State.busError_p1 (a : Word) : (s.busError a).p1 = s.p1 := rfl
@[simp] theorem State.busError_maskMin (a : Word) : (s.busError a).maskMin = s.maskMin := rfl
@[simp] theorem State.busError_maskMax (a : Word) : (s.busError a).maskMax = s.maskMax := rfl
@[simp] theorem State.busError_faultAddr (a : Word) : (s.busError a).faultAddr = a := rfl
@[simp] theorem State.busError_latch (a : Word) : (s.busError a).latch = s.latch := rfl
@[simp] theorem State.busError_maskRam (a : Word) : (s.busError a).maskRam = s.maskRam := rfl
@[simp] theorem State.busError_seeds (a : Word) : (s.busError a).seeds = s.seeds := rfl
@[simp] theorem State.busError_progress (a : Word) : (s.busError a).progress = .idle := rfl
@[simp] theorem State.busError_mem (a : Word) : (s.busError a).mem = s.mem := rfl
@[simp] theorem State.busError_posted (a : Word) : (s.busError a).posted = s.posted := rfl
@[simp] theorem State.busError_lent (a : Word) : (s.busError a).lent = s.lent := rfl
@[simp] theorem State.busError_events (a : Word) : (s.busError a).events = s.events := rfl
@[simp] theorem State.busError_hostReads (a : Word) : (s.busError a).hostReads = s.hostReads := rfl
@[simp] theorem State.busError_trace (a : Word) : (s.busError a).trace = s.trace := rfl
@[simp] theorem State.busError_freeCount (a : Word) : (s.busError a).freeCount = s.freeCount := rfl

/-! ### `State.mark` -/
@[simp] theorem State.mark_cfg (lx ly : Nat) : (s.mark lx ly).cfg = s.cfg := rfl
@[simp] theorem State.mark_ctrl (lx ly : Nat) : (s.mark lx ly).ctrl = s.ctrl := rfl
@[simp] theorem State.mark_status (lx ly : Nat) : (s.mark lx ly).status = s.status := rfl
@[simp] theorem State.mark_fbBase (lx ly : Nat) : (s.mark lx ly).fbBase = s.fbBase := rfl
@[simp] theorem State.mark_fbSize (lx ly : Nat) : (s.mark lx ly).fbSize = s.fbSize := rfl
@[simp] theorem State.mark_fbStride (lx ly : Nat) : (s.mark lx ly).fbStride = s.fbStride := rfl
@[simp] theorem State.mark_color (lx ly : Nat) : (s.mark lx ly).color = s.color := rfl
@[simp] theorem State.mark_p0 (lx ly : Nat) : (s.mark lx ly).p0 = s.p0 := rfl
@[simp] theorem State.mark_p1 (lx ly : Nat) : (s.mark lx ly).p1 = s.p1 := rfl
@[simp] theorem State.mark_maskMin (lx ly : Nat) : (s.mark lx ly).maskMin = s.maskMin := rfl
@[simp] theorem State.mark_maskMax (lx ly : Nat) : (s.mark lx ly).maskMax = s.maskMax := rfl
@[simp] theorem State.mark_faultAddr (lx ly : Nat) : (s.mark lx ly).faultAddr = s.faultAddr := rfl
@[simp] theorem State.mark_latch (lx ly : Nat) : (s.mark lx ly).latch = s.latch := rfl
@[simp] theorem State.mark_maskRam (lx ly : Nat) :
    (s.mark lx ly).maskRam = MaskRam.set s.maskRam (s.maskBit lx ly) := rfl
@[simp] theorem State.mark_seeds (lx ly : Nat) : (s.mark lx ly).seeds = s.seeds := rfl
@[simp] theorem State.mark_progress (lx ly : Nat) : (s.mark lx ly).progress = s.progress := rfl
@[simp] theorem State.mark_mem (lx ly : Nat) : (s.mark lx ly).mem = s.mem := rfl
@[simp] theorem State.mark_posted (lx ly : Nat) : (s.mark lx ly).posted = s.posted := rfl
@[simp] theorem State.mark_lent (lx ly : Nat) : (s.mark lx ly).lent = s.lent := rfl
@[simp] theorem State.mark_events (lx ly : Nat) : (s.mark lx ly).events = s.events := rfl
@[simp] theorem State.mark_hostReads (lx ly : Nat) : (s.mark lx ly).hostReads = s.hostReads := rfl
@[simp] theorem State.mark_trace (lx ly : Nat) : (s.mark lx ly).trace = s.trace := rfl
@[simp] theorem State.mark_freeCount (lx ly : Nat) : (s.mark lx ly).freeCount = s.freeCount := rfl

/-! ### `State.forgetMask` -/
@[simp] theorem State.forgetMask_cfg : (s.forgetMask).cfg = s.cfg := rfl
@[simp] theorem State.forgetMask_ctrl : (s.forgetMask).ctrl = s.ctrl := rfl
@[simp] theorem State.forgetMask_status : (s.forgetMask).status = s.status := rfl
@[simp] theorem State.forgetMask_fbBase : (s.forgetMask).fbBase = s.fbBase := rfl
@[simp] theorem State.forgetMask_fbSize : (s.forgetMask).fbSize = s.fbSize := rfl
@[simp] theorem State.forgetMask_fbStride : (s.forgetMask).fbStride = s.fbStride := rfl
@[simp] theorem State.forgetMask_color : (s.forgetMask).color = s.color := rfl
@[simp] theorem State.forgetMask_p0 : (s.forgetMask).p0 = s.p0 := rfl
@[simp] theorem State.forgetMask_p1 : (s.forgetMask).p1 = s.p1 := rfl
@[simp] theorem State.forgetMask_maskMin : (s.forgetMask).maskMin = s.maskMin := rfl
@[simp] theorem State.forgetMask_maskMax : (s.forgetMask).maskMax = s.maskMax := rfl
@[simp] theorem State.forgetMask_faultAddr : (s.forgetMask).faultAddr = s.faultAddr := rfl
@[simp] theorem State.forgetMask_latch : (s.forgetMask).latch = s.latch := rfl
@[simp] theorem State.forgetMask_maskRam :
    (s.forgetMask).maskRam = MaskRam.ofBits (Config.freeMaskBits s.freeCount) s.cfg.maskBytes := rfl
@[simp] theorem State.forgetMask_seeds : (s.forgetMask).seeds = s.seeds := rfl
@[simp] theorem State.forgetMask_progress : (s.forgetMask).progress = s.progress := rfl
@[simp] theorem State.forgetMask_mem : (s.forgetMask).mem = s.mem := rfl
@[simp] theorem State.forgetMask_posted : (s.forgetMask).posted = s.posted := rfl
@[simp] theorem State.forgetMask_lent : (s.forgetMask).lent = s.lent := rfl
@[simp] theorem State.forgetMask_events : (s.forgetMask).events = s.events := rfl
@[simp] theorem State.forgetMask_hostReads : (s.forgetMask).hostReads = s.hostReads := rfl
@[simp] theorem State.forgetMask_trace : (s.forgetMask).trace = s.trace := rfl
@[simp] theorem State.forgetMask_freeCount : (s.forgetMask).freeCount = s.freeCount + 1 := rfl

/-! ### `State.forgetSeeds` -/
@[simp] theorem State.forgetSeeds_cfg : (s.forgetSeeds).cfg = s.cfg := rfl
@[simp] theorem State.forgetSeeds_ctrl : (s.forgetSeeds).ctrl = s.ctrl := rfl
@[simp] theorem State.forgetSeeds_status : (s.forgetSeeds).status = s.status := rfl
@[simp] theorem State.forgetSeeds_fbBase : (s.forgetSeeds).fbBase = s.fbBase := rfl
@[simp] theorem State.forgetSeeds_fbSize : (s.forgetSeeds).fbSize = s.fbSize := rfl
@[simp] theorem State.forgetSeeds_fbStride : (s.forgetSeeds).fbStride = s.fbStride := rfl
@[simp] theorem State.forgetSeeds_color : (s.forgetSeeds).color = s.color := rfl
@[simp] theorem State.forgetSeeds_p0 : (s.forgetSeeds).p0 = s.p0 := rfl
@[simp] theorem State.forgetSeeds_p1 : (s.forgetSeeds).p1 = s.p1 := rfl
@[simp] theorem State.forgetSeeds_maskMin : (s.forgetSeeds).maskMin = s.maskMin := rfl
@[simp] theorem State.forgetSeeds_maskMax : (s.forgetSeeds).maskMax = s.maskMax := rfl
@[simp] theorem State.forgetSeeds_faultAddr : (s.forgetSeeds).faultAddr = s.faultAddr := rfl
@[simp] theorem State.forgetSeeds_latch : (s.forgetSeeds).latch = s.latch := rfl
@[simp] theorem State.forgetSeeds_maskRam : (s.forgetSeeds).maskRam = s.maskRam := rfl
@[simp] theorem State.forgetSeeds_seeds :
    (s.forgetSeeds).seeds = (Config.freeSeeds s.freeCount).take s.cfg.seedDepth := rfl
@[simp] theorem State.forgetSeeds_progress : (s.forgetSeeds).progress = s.progress := rfl
@[simp] theorem State.forgetSeeds_mem : (s.forgetSeeds).mem = s.mem := rfl
@[simp] theorem State.forgetSeeds_posted : (s.forgetSeeds).posted = s.posted := rfl
@[simp] theorem State.forgetSeeds_lent : (s.forgetSeeds).lent = s.lent := rfl
@[simp] theorem State.forgetSeeds_events : (s.forgetSeeds).events = s.events := rfl
@[simp] theorem State.forgetSeeds_hostReads : (s.forgetSeeds).hostReads = s.hostReads := rfl
@[simp] theorem State.forgetSeeds_trace : (s.forgetSeeds).trace = s.trace := rfl
@[simp] theorem State.forgetSeeds_freeCount : (s.forgetSeeds).freeCount = s.freeCount + 1 := rfl

/-! ### `State.endFill` -/
@[simp] theorem State.endFill_cfg : (s.endFill).cfg = s.cfg := rfl
@[simp] theorem State.endFill_ctrl : (s.endFill).ctrl = s.ctrl := rfl
@[simp] theorem State.endFill_status : (s.endFill).status = { s.status with maskValid := false } := rfl
@[simp] theorem State.endFill_fbBase : (s.endFill).fbBase = s.fbBase := rfl
@[simp] theorem State.endFill_fbSize : (s.endFill).fbSize = s.fbSize := rfl
@[simp] theorem State.endFill_fbStride : (s.endFill).fbStride = s.fbStride := rfl
@[simp] theorem State.endFill_color : (s.endFill).color = s.color := rfl
@[simp] theorem State.endFill_p0 : (s.endFill).p0 = s.p0 := rfl
@[simp] theorem State.endFill_p1 : (s.endFill).p1 = s.p1 := rfl
@[simp] theorem State.endFill_maskMin : (s.endFill).maskMin = s.maskMin := rfl
@[simp] theorem State.endFill_maskMax : (s.endFill).maskMax = s.maskMax := rfl
@[simp] theorem State.endFill_faultAddr : (s.endFill).faultAddr = s.faultAddr := rfl
@[simp] theorem State.endFill_latch : (s.endFill).latch = s.latch := rfl
@[simp] theorem State.endFill_maskRam : (s.endFill).maskRam = s.maskRam := rfl
@[simp] theorem State.endFill_seeds :
    (s.endFill).seeds = (Config.freeSeeds s.freeCount).take s.cfg.seedDepth := rfl
@[simp] theorem State.endFill_progress : (s.endFill).progress = s.progress := rfl
@[simp] theorem State.endFill_mem : (s.endFill).mem = s.mem := rfl
@[simp] theorem State.endFill_posted : (s.endFill).posted = s.posted := rfl
@[simp] theorem State.endFill_lent : (s.endFill).lent = s.lent := rfl
@[simp] theorem State.endFill_events : (s.endFill).events = s.events := rfl
@[simp] theorem State.endFill_hostReads : (s.endFill).hostReads = s.hostReads := rfl
@[simp] theorem State.endFill_trace : (s.endFill).trace = s.trace := rfl
@[simp] theorem State.endFill_freeCount : (s.endFill).freeCount = s.freeCount + 1 := rfl

/-! ### `newMask` -/
@[simp] theorem newMask_cfg : (newMask s).cfg = s.cfg := rfl
@[simp] theorem newMask_ctrl : (newMask s).ctrl = s.ctrl := rfl
@[simp] theorem newMask_status : (newMask s).status = { s.status with maskValid := true } := rfl
@[simp] theorem newMask_fbBase : (newMask s).fbBase = s.fbBase := rfl
@[simp] theorem newMask_fbSize : (newMask s).fbSize = s.fbSize := rfl
@[simp] theorem newMask_fbStride : (newMask s).fbStride = s.fbStride := rfl
@[simp] theorem newMask_color : (newMask s).color = s.color := rfl
@[simp] theorem newMask_p0 : (newMask s).p0 = s.p0 := rfl
@[simp] theorem newMask_p1 : (newMask s).p1 = s.p1 := rfl
@[simp] theorem newMask_maskMin : (newMask s).maskMin = s.latch.p0 := rfl
@[simp] theorem newMask_maskMax : (newMask s).maskMax = s.latch.p1 := rfl
@[simp] theorem newMask_faultAddr : (newMask s).faultAddr = s.faultAddr := rfl
@[simp] theorem newMask_latch : (newMask s).latch = s.latch := rfl
@[simp] theorem newMask_maskRam : (newMask s).maskRam = [] := rfl
@[simp] theorem newMask_seeds : (newMask s).seeds = s.seeds := rfl
@[simp] theorem newMask_progress : (newMask s).progress = s.progress := rfl
@[simp] theorem newMask_mem : (newMask s).mem = s.mem := rfl
@[simp] theorem newMask_posted : (newMask s).posted = s.posted := rfl
@[simp] theorem newMask_lent : (newMask s).lent = s.lent := rfl
@[simp] theorem newMask_events : (newMask s).events = s.events := rfl
@[simp] theorem newMask_hostReads : (newMask s).hostReads = s.hostReads := rfl
@[simp] theorem newMask_trace : (newMask s).trace = s.trace := rfl
@[simp] theorem newMask_freeCount : (newMask s).freeCount = s.freeCount := rfl

/-! ### `State.accept` -/
@[simp] theorem State.accept_cfg (v : Word) : (s.accept v).cfg = s.cfg := rfl
@[simp] theorem State.accept_ctrl (v : Word) : (s.accept v).ctrl = s.ctrl := rfl
@[simp] theorem State.accept_status (v : Word) : (s.accept v).status = { s.status with busy := true } := rfl
@[simp] theorem State.accept_fbBase (v : Word) : (s.accept v).fbBase = s.fbBase := rfl
@[simp] theorem State.accept_fbSize (v : Word) : (s.accept v).fbSize = s.fbSize := rfl
@[simp] theorem State.accept_fbStride (v : Word) : (s.accept v).fbStride = s.fbStride := rfl
@[simp] theorem State.accept_color (v : Word) : (s.accept v).color = s.color := rfl
@[simp] theorem State.accept_p0 (v : Word) : (s.accept v).p0 = s.p0 := rfl
@[simp] theorem State.accept_p1 (v : Word) : (s.accept v).p1 = s.p1 := rfl
@[simp] theorem State.accept_maskMin (v : Word) : (s.accept v).maskMin = s.maskMin := rfl
@[simp] theorem State.accept_maskMax (v : Word) : (s.accept v).maskMax = s.maskMax := rfl
@[simp] theorem State.accept_faultAddr (v : Word) : (s.accept v).faultAddr = s.faultAddr := rfl
@[simp] theorem State.accept_latch (v : Word) : (s.accept v).latch = s.snapshot v := rfl
@[simp] theorem State.accept_maskRam (v : Word) : (s.accept v).maskRam = s.maskRam := rfl
@[simp] theorem State.accept_seeds (v : Word) : (s.accept v).seeds = s.seeds := rfl
@[simp] theorem State.accept_progress (v : Word) : (s.accept v).progress = .running .start := rfl
@[simp] theorem State.accept_mem (v : Word) : (s.accept v).mem = s.mem := rfl
@[simp] theorem State.accept_posted (v : Word) : (s.accept v).posted = s.posted := rfl
@[simp] theorem State.accept_lent (v : Word) : (s.accept v).lent = s.snapshot v :: s.lent := rfl
@[simp] theorem State.accept_events (v : Word) : (s.accept v).events = s.events := rfl
@[simp] theorem State.accept_hostReads (v : Word) : (s.accept v).hostReads = s.hostReads := rfl
@[simp] theorem State.accept_trace (v : Word) : (s.accept v).trace = s.trace := rfl
@[simp] theorem State.accept_freeCount (v : Word) : (s.accept v).freeCount = s.freeCount := rfl

/-! ### `State.overrun` -/
@[simp] theorem State.overrun_cfg : (s.overrun).cfg = s.cfg := rfl
@[simp] theorem State.overrun_ctrl : (s.overrun).ctrl = s.ctrl := rfl
@[simp] theorem State.overrun_status : (s.overrun).status = { s.status with ovr := true } := rfl
@[simp] theorem State.overrun_fbBase : (s.overrun).fbBase = s.fbBase := rfl
@[simp] theorem State.overrun_fbSize : (s.overrun).fbSize = s.fbSize := rfl
@[simp] theorem State.overrun_fbStride : (s.overrun).fbStride = s.fbStride := rfl
@[simp] theorem State.overrun_color : (s.overrun).color = s.color := rfl
@[simp] theorem State.overrun_p0 : (s.overrun).p0 = s.p0 := rfl
@[simp] theorem State.overrun_p1 : (s.overrun).p1 = s.p1 := rfl
@[simp] theorem State.overrun_maskMin : (s.overrun).maskMin = s.maskMin := rfl
@[simp] theorem State.overrun_maskMax : (s.overrun).maskMax = s.maskMax := rfl
@[simp] theorem State.overrun_faultAddr : (s.overrun).faultAddr = s.faultAddr := rfl
@[simp] theorem State.overrun_latch : (s.overrun).latch = s.latch := rfl
@[simp] theorem State.overrun_maskRam : (s.overrun).maskRam = s.maskRam := rfl
@[simp] theorem State.overrun_seeds : (s.overrun).seeds = s.seeds := rfl
@[simp] theorem State.overrun_progress : (s.overrun).progress = s.progress := rfl
@[simp] theorem State.overrun_mem : (s.overrun).mem = s.mem := rfl
@[simp] theorem State.overrun_posted : (s.overrun).posted = s.posted := rfl
@[simp] theorem State.overrun_lent : (s.overrun).lent = s.lent := rfl
@[simp] theorem State.overrun_events : (s.overrun).events = s.events := rfl
@[simp] theorem State.overrun_hostReads : (s.overrun).hostReads = s.hostReads := rfl
@[simp] theorem State.overrun_trace : (s.overrun).trace = s.trace := rfl
@[simp] theorem State.overrun_freeCount : (s.overrun).freeCount = s.freeCount := rfl

/-! ### `State.giveHost` -/
@[simp] theorem State.giveHost_cfg (v : Word) : (s.giveHost v).cfg = s.cfg := rfl
@[simp] theorem State.giveHost_ctrl (v : Word) : (s.giveHost v).ctrl = s.ctrl := rfl
@[simp] theorem State.giveHost_status (v : Word) : (s.giveHost v).status = s.status := rfl
@[simp] theorem State.giveHost_fbBase (v : Word) : (s.giveHost v).fbBase = s.fbBase := rfl
@[simp] theorem State.giveHost_fbSize (v : Word) : (s.giveHost v).fbSize = s.fbSize := rfl
@[simp] theorem State.giveHost_fbStride (v : Word) : (s.giveHost v).fbStride = s.fbStride := rfl
@[simp] theorem State.giveHost_color (v : Word) : (s.giveHost v).color = s.color := rfl
@[simp] theorem State.giveHost_p0 (v : Word) : (s.giveHost v).p0 = s.p0 := rfl
@[simp] theorem State.giveHost_p1 (v : Word) : (s.giveHost v).p1 = s.p1 := rfl
@[simp] theorem State.giveHost_maskMin (v : Word) : (s.giveHost v).maskMin = s.maskMin := rfl
@[simp] theorem State.giveHost_maskMax (v : Word) : (s.giveHost v).maskMax = s.maskMax := rfl
@[simp] theorem State.giveHost_faultAddr (v : Word) : (s.giveHost v).faultAddr = s.faultAddr := rfl
@[simp] theorem State.giveHost_latch (v : Word) : (s.giveHost v).latch = s.latch := rfl
@[simp] theorem State.giveHost_maskRam (v : Word) : (s.giveHost v).maskRam = s.maskRam := rfl
@[simp] theorem State.giveHost_seeds (v : Word) : (s.giveHost v).seeds = s.seeds := rfl
@[simp] theorem State.giveHost_progress (v : Word) : (s.giveHost v).progress = s.progress := rfl
@[simp] theorem State.giveHost_mem (v : Word) : (s.giveHost v).mem = s.mem := rfl
@[simp] theorem State.giveHost_posted (v : Word) : (s.giveHost v).posted = s.posted := rfl
@[simp] theorem State.giveHost_lent (v : Word) : (s.giveHost v).lent = s.lent := rfl
@[simp] theorem State.giveHost_events (v : Word) : (s.giveHost v).events = s.events := rfl
@[simp] theorem State.giveHost_hostReads (v : Word) : (s.giveHost v).hostReads = v :: s.hostReads := rfl
@[simp] theorem State.giveHost_trace (v : Word) : (s.giveHost v).trace = s.trace := rfl
@[simp] theorem State.giveHost_freeCount (v : Word) : (s.giveHost v).freeCount = s.freeCount := rfl

/-! ### `State.returnFrames` -/
@[simp] theorem State.returnFrames_cfg (off : Nat) : (s.returnFrames off).cfg = s.cfg := rfl
@[simp] theorem State.returnFrames_ctrl (off : Nat) : (s.returnFrames off).ctrl = s.ctrl := rfl
@[simp] theorem State.returnFrames_status (off : Nat) : (s.returnFrames off).status = s.status := rfl
@[simp] theorem State.returnFrames_fbBase (off : Nat) : (s.returnFrames off).fbBase = s.fbBase := rfl
@[simp] theorem State.returnFrames_fbSize (off : Nat) : (s.returnFrames off).fbSize = s.fbSize := rfl
@[simp] theorem State.returnFrames_fbStride (off : Nat) : (s.returnFrames off).fbStride = s.fbStride := rfl
@[simp] theorem State.returnFrames_color (off : Nat) : (s.returnFrames off).color = s.color := rfl
@[simp] theorem State.returnFrames_p0 (off : Nat) : (s.returnFrames off).p0 = s.p0 := rfl
@[simp] theorem State.returnFrames_p1 (off : Nat) : (s.returnFrames off).p1 = s.p1 := rfl
@[simp] theorem State.returnFrames_maskMin (off : Nat) : (s.returnFrames off).maskMin = s.maskMin := rfl
@[simp] theorem State.returnFrames_maskMax (off : Nat) : (s.returnFrames off).maskMax = s.maskMax := rfl
@[simp] theorem State.returnFrames_faultAddr (off : Nat) : (s.returnFrames off).faultAddr = s.faultAddr := rfl
@[simp] theorem State.returnFrames_latch (off : Nat) : (s.returnFrames off).latch = s.latch := rfl
@[simp] theorem State.returnFrames_maskRam (off : Nat) : (s.returnFrames off).maskRam = s.maskRam := rfl
@[simp] theorem State.returnFrames_seeds (off : Nat) : (s.returnFrames off).seeds = s.seeds := rfl
@[simp] theorem State.returnFrames_progress (off : Nat) : (s.returnFrames off).progress = s.progress := rfl
@[simp] theorem State.returnFrames_mem (off : Nat) : (s.returnFrames off).mem = s.mem := rfl
@[simp] theorem State.returnFrames_posted (off : Nat) : (s.returnFrames off).posted = s.posted := rfl
@[simp] theorem State.returnFrames_lent (off : Nat) :
    (s.returnFrames off).lent = if off = 0x08 ∧ s.status.busy = false then [] else s.lent := rfl
@[simp] theorem State.returnFrames_events (off : Nat) : (s.returnFrames off).events = s.events := rfl
@[simp] theorem State.returnFrames_hostReads (off : Nat) : (s.returnFrames off).hostReads = s.hostReads := rfl
@[simp] theorem State.returnFrames_trace (off : Nat) : (s.returnFrames off).trace = s.trace := rfl
@[simp] theorem State.returnFrames_freeCount (off : Nat) : (s.returnFrames off).freeCount = s.freeCount := rfl

/-! ### `State.writeByte` -/

@[simp] theorem State.writeByte_cfg (a : Word) (v : Byte) : (s.writeByte a v).cfg = s.cfg := rfl
@[simp] theorem State.writeByte_ctrl (a : Word) (v : Byte) : (s.writeByte a v).ctrl = s.ctrl := rfl
@[simp] theorem State.writeByte_status (a : Word) (v : Byte) : (s.writeByte a v).status = s.status := rfl
@[simp] theorem State.writeByte_fbBase (a : Word) (v : Byte) : (s.writeByte a v).fbBase = s.fbBase := rfl
@[simp] theorem State.writeByte_fbSize (a : Word) (v : Byte) : (s.writeByte a v).fbSize = s.fbSize := rfl
@[simp] theorem State.writeByte_fbStride (a : Word) (v : Byte) : (s.writeByte a v).fbStride = s.fbStride := rfl
@[simp] theorem State.writeByte_color (a : Word) (v : Byte) : (s.writeByte a v).color = s.color := rfl
@[simp] theorem State.writeByte_p0 (a : Word) (v : Byte) : (s.writeByte a v).p0 = s.p0 := rfl
@[simp] theorem State.writeByte_p1 (a : Word) (v : Byte) : (s.writeByte a v).p1 = s.p1 := rfl
@[simp] theorem State.writeByte_maskMin (a : Word) (v : Byte) : (s.writeByte a v).maskMin = s.maskMin := rfl
@[simp] theorem State.writeByte_maskMax (a : Word) (v : Byte) : (s.writeByte a v).maskMax = s.maskMax := rfl
@[simp] theorem State.writeByte_faultAddr (a : Word) (v : Byte) : (s.writeByte a v).faultAddr = s.faultAddr := rfl
@[simp] theorem State.writeByte_latch (a : Word) (v : Byte) : (s.writeByte a v).latch = s.latch := rfl
@[simp] theorem State.writeByte_maskRam (a : Word) (v : Byte) : (s.writeByte a v).maskRam = s.maskRam := rfl
@[simp] theorem State.writeByte_seeds (a : Word) (v : Byte) : (s.writeByte a v).seeds = s.seeds := rfl
@[simp] theorem State.writeByte_progress (a : Word) (v : Byte) : (s.writeByte a v).progress = s.progress := rfl
@[simp] theorem State.writeByte_mem (a : Word) (v : Byte) :
    (s.writeByte a v).mem = Memory.write s.mem a.toNat v := rfl
@[simp] theorem State.writeByte_posted (a : Word) (v : Byte) :
    (s.writeByte a v).posted = s.posted.filter fun c => decide (c.1 ≠ a) := rfl
@[simp] theorem State.writeByte_lent (a : Word) (v : Byte) : (s.writeByte a v).lent = s.lent := rfl
@[simp] theorem State.writeByte_events (a : Word) (v : Byte) : (s.writeByte a v).events = s.events := rfl
@[simp] theorem State.writeByte_hostReads (a : Word) (v : Byte) : (s.writeByte a v).hostReads = s.hostReads := rfl
@[simp] theorem State.writeByte_trace (a : Word) (v : Byte) : (s.writeByte a v).trace = s.trace := rfl
@[simp] theorem State.writeByte_freeCount (a : Word) (v : Byte) : (s.writeByte a v).freeCount = s.freeCount := rfl

/-! ### What the geometry of the mask reads -/

theorem State.maskWidth_congr {s t : State} (h0 : t.maskMin = s.maskMin) (h1 : t.maskMax = s.maskMax) :
    t.maskWidth = s.maskWidth := by rw [State.maskWidth, State.maskWidth, h0, h1]

theorem State.maskHeight_congr {s t : State} (h0 : t.maskMin = s.maskMin) (h1 : t.maskMax = s.maskMax) :
    t.maskHeight = s.maskHeight := by rw [State.maskHeight, State.maskHeight, h0, h1]

theorem State.maskBit_congr {s t : State} (h0 : t.maskMin = s.maskMin) (h1 : t.maskMax = s.maskMax)
    (lx ly : Nat) : t.maskBit lx ly = s.maskBit lx ly := by
  rw [State.maskBit, State.maskBit, State.maskWidth_congr h0 h1]

theorem State.mask_congr {s t : State} (h0 : t.maskMin = s.maskMin) (h1 : t.maskMax = s.maskMax)
    (hr : t.maskRam = s.maskRam) (lx ly : Nat) : t.mask lx ly = s.mask lx ly := by
  rw [State.mask, State.mask, State.maskBit_congr h0 h1, hr]

end Sys2Proof.Machine
end

