-- ==== Sys2Proof/Laws/Operands.lean ====
section
/-! SUPPORT. Laws of the operand helpers: fields, fixed point, ranges, frame addresses, channels, the place of a mask
pixel in the mask RAM. -/

namespace Sys2Proof.Machine

/-! ### Fields and coordinates -/

theorem field_lt (v : Word) (lo len : Nat) : field v lo len < 2 ^ len := Nat.mod_lt _ (by positivity)

theorem sext16_range (n : Nat) (h : n < 65536) : -32768 ≤ sext16 n ∧ sext16 n ≤ 32767 := by
  unfold sext16
  split <;> omega

theorem coordX_range (p : Word) : -32768 ≤ coordX p ∧ coordX p ≤ 32767 :=
  sext16_range _ (by simpa using field_lt p 0 16)

theorem coordY_range (p : Word) : -32768 ≤ coordY p ∧ coordY p ≤ 32767 :=
  sext16_range _ (by simpa using field_lt p 16 16)

/-! ### Fixed point (00_scope.md R10) -/

theorem fpart_le (i : Int) : fpart i ≤ 15 := by
  unfold fpart ipart floorDiv
  omega

/-- A fixed-point value is its integer part and its fraction. -/
theorem ipart_fpart (i : Int) : 16 * ipart i + fpart i = i := by
  unfold fpart ipart floorDiv
  omega

/-! ### Ranges (00_scope.md R9) -/

theorem mem_intRange {a b v : Int} : v ∈ intRange a b ↔ a ≤ v ∧ v ≤ b := by
  simp only [intRange, List.mem_map, List.mem_range]
  constructor
  · rintro ⟨k, hk, rfl⟩
    omega
  · rintro ⟨h1, h2⟩
    exact ⟨(v - a).toNat, by omega, by omega⟩

theorem length_intRange (a b : Int) : (intRange a b).length = (b + 1 - a).toNat := by
  simp [intRange]

theorem pairwise_intRange (a b : Int) : (intRange a b).Pairwise (· < ·) := by
  rw [intRange, List.pairwise_map]
  exact List.pairwise_lt_range.imp fun {x y} h => by omega

/-! ### Frame geometry (20_memory.md) -/

theorem Fmt.bpp_le (f : Fmt) : f.bpp ≤ 4 := by cases f <;> simp [Fmt.bpp]

theorem Fmt.bpp_pos (f : Fmt) : 0 < f.bpp := by cases f <;> simp [Fmt.bpp]

theorem Snapshot.inFrame_iff {l : Snapshot} {x y : Int} :
    l.inFrame x y = true ↔ 0 ≤ x ∧ x < l.width ∧ 0 ≤ y ∧ y < l.height := by
  simp [Snapshot.inFrame]

/-- With an aligned base and stride every FMT0 pixel address is a multiple of 4 (20_memory.md R66). -/
theorem Snapshot.pixAddr_aligned (l : Snapshot) (x y : Int) (h : l.aligned = true) :
    (l.pixAddr x y).toNat % l.fmt.bpp = 0 := by
  unfold Snapshot.aligned at h
  cases hf : l.fmt with
  | fmt1 => simp [Fmt.bpp, Nat.mod_one]
  | fmt0 =>
    simp only [hf, decide_eq_true_eq] at h
    obtain ⟨hb, hs⟩ := h
    have hy : y.toNat * l.fbStride.toNat % 4 = 0 := by rw [Nat.mul_mod, hs, Nat.mul_zero, Nat.zero_mod]
    simp only [Snapshot.pixAddr, hf, Fmt.bpp, BitVec.toNat_ofNat]
    rw [Nat.mod_mod_of_dvd _ (by norm_num : 4 ∣ 2 ^ 32)]
    omega

theorem Snapshot.colC_lt (l : Snapshot) : l.colC.toNat < 256 ^ l.fmt.bpp := by
  cases hf : l.fmt with
  | fmt0 =>
    have := l.color.isLt
    simp only [Snapshot.colC, hf, Fmt.bpp]
    omega
  | fmt1 =>
    have := field_lt l.color 0 8
    simp only [Snapshot.colC, hf, Fmt.bpp, BitVec.toNat_ofNat]
    omega

/-- A value that fits the container reads back as stored. -/
theorem pixel_roundTrip (v : Word) (size : Nat) (h : v.toNat < 256 ^ size) :
    BitVec.ofNat 32 (v.toNat % 256 ^ size) = v := by
  rw [Nat.mod_eq_of_lt h]
  simp

/-! ### The mask domain (10_state.md R40, R41) -/

theorem State.maskBit_eq (s : State) (lx ly : Nat) :
    s.maskBit lx ly = 8 * rowBytes s.maskWidth * ly + lx := by
  have h := Nat.div_add_mod lx 8
  have e : 8 * (ly * rowBytes s.maskWidth + lx / 8) = 8 * rowBytes s.maskWidth * ly + 8 * (lx / 8) := by ring
  rw [State.maskBit, e]
  omega

theorem le_rowBytes (w : Nat) : w ≤ 8 * rowBytes w := by
  unfold rowBytes
  omega

theorem State.inMask_iff {s : State} {lx ly : Nat} :
    s.inMask lx ly = true ↔ lx < s.maskWidth ∧ ly < s.maskHeight := by
  simp [State.inMask]

/-- Two mask pixels have two places in the mask RAM. -/
theorem State.maskBit_inj {s : State} {lx ly u v : Nat} (hx : lx < s.maskWidth) (hu : u < s.maskWidth)
    (h : s.maskBit lx ly = s.maskBit u v) : lx = u ∧ ly = v := by
  rw [State.maskBit_eq, State.maskBit_eq] at h
  have hw := le_rowBytes s.maskWidth
  have hy : ly = v := by
    rcases lt_trichotomy ly v with hlt | heq | hgt
    · have := Nat.mul_le_mul_left (8 * rowBytes s.maskWidth) (show ly + 1 ≤ v from hlt)
      rw [Nat.mul_add, Nat.mul_one] at this
      omega
    · exact heq
    · have := Nat.mul_le_mul_left (8 * rowBytes s.maskWidth) (show v + 1 ≤ ly from hgt)
      rw [Nat.mul_add, Nat.mul_one] at this
      omega
  subst hy
  exact ⟨by omega, rfl⟩

/-- A mask pixel's place lies inside a RAM that holds the mask. -/
theorem State.maskBit_lt {s : State} {lx ly : Nat} (hx : lx < s.maskWidth) (hy : ly < s.maskHeight)
    (hf : rowBytes s.maskWidth * s.maskHeight ≤ s.cfg.maskBytes) : s.maskBit lx ly < 8 * s.cfg.maskBytes := by
  rw [State.maskBit_eq]
  have hw := le_rowBytes s.maskWidth
  have h1 := Nat.mul_le_mul_left (8 * rowBytes s.maskWidth) (show ly + 1 ≤ s.maskHeight from hy)
  rw [Nat.mul_add, Nat.mul_one, Nat.mul_assoc 8, Nat.mul_assoc 8] at h1
  rw [Nat.mul_assoc 8]
  omega

/-- After `mask(lx, ly) <- 1`, in the domain, that bit is 1 and every other one is as it was. -/
theorem State.mask_mark {s : State} {lx ly u v : Nat} (hx : lx < s.maskWidth) (hu : u < s.maskWidth) :
    (s.mark lx ly).mask u v = (decide (u = lx ∧ v = ly) || s.mask u v) := by
  have hb : (s.mark lx ly).maskBit u v = s.maskBit u v := State.maskBit_congr rfl rfl u v
  rw [State.mask, hb, State.mark_maskRam, MaskRam.get_set, State.mask]
  congr 1
  rw [decide_eq_decide]
  exact ⟨fun h => State.maskBit_inj hu hx h, fun h => by rw [h.1, h.2]⟩

end Sys2Proof.Machine
end

