-- ==== Sys2Proof/Laws/Engine.lean ====
section
/-! SUPPORT. Laws of the engine: what one step can change, how runs of steps compose, and that a command's budget of
steps suffices. -/

namespace Sys2Proof.Machine

/-! ### Runs of engine steps -/

theorem engineStep_idle {s : State} (h : s.progress = .idle) : engineStep s = s := by
  simp [engineStep, h]

@[simp] theorem runEngine_zero (s : State) : runEngine 0 s = s := rfl

/-- One more step at the front; an idle engine stays as it is. -/
theorem runEngine_succ (n : Nat) (s : State) : runEngine (n + 1) s = runEngine n (engineStep s) := by
  rw [runEngine]
  cases h : s.progress with
  | running k => rfl
  | idle =>
    rw [engineStep_idle h]
    cases n with
    | zero => rfl
    | succ n => simp [runEngine, h]

theorem runEngine_idle (n : Nat) {s : State} (h : s.progress = .idle) : runEngine n s = s := by
  induction n with
  | zero => rfl
  | succ n ih => rw [runEngine_succ, engineStep_idle h, ih]

theorem runEngine_add (m n : Nat) (s : State) : runEngine (m + n) s = runEngine n (runEngine m s) := by
  induction m generalizing s with
  | zero => simp
  | succ m ih => rw [Nat.add_right_comm, runEngine_succ, runEngine_succ, ih]

/-- Steps beyond the first idle state change nothing. -/
theorem runEngine_of_idle {m n : Nat} {s : State} (h : (runEngine m s).progress = .idle) (hmn : m ≤ n) :
    runEngine n s = runEngine m s := by
  obtain ⟨k, rfl⟩ := Nat.exists_eq_add_of_le hmn
  rw [runEngine_add, runEngine_idle k h]

/-- A property that every engine step keeps is kept by a run of them. -/
theorem runEngine_induct {P : State → Prop} (step : ∀ s, P s → P (engineStep s)) (n : Nat) {s : State}
    (h : P s) : P (runEngine n s) := by
  induction n generalizing s with
  | zero => exact h
  | succ n ih => rw [runEngine_succ]; exact ih (step s h)

/-- The same for a whole command after its first step. -/
theorem finish_induct {P : State → Prop} (step : ∀ s, P s → P (engineStep s)) {s : State} (h : P s) :
    P (finish s) := runEngine_induct step _ h

theorem finish_idle {s : State} (h : s.progress = .idle) : finish s = s := runEngine_idle _ h

/-- The meaning of every command is its first step, then the engine's steps to completion. -/
theorem exec_eq (i : Instr) (s : State) : exec i s = .next (finish (begin i s)) := by cases i <;> rfl

/-! ### What an engine step leaves alone -/

theorem State.SameHostSide.refl (s : State) : s.SameHostSide s :=
  ⟨rfl, rfl, rfl, rfl, rfl, rfl, rfl, rfl, rfl, rfl, rfl, rfl, rfl, rfl⟩

theorem State.SameHostSide.trans {s t u : State} (h : s.SameHostSide t) (k : t.SameHostSide u) :
    s.SameHostSide u :=
  ⟨k.cfg.trans h.cfg, k.ctrl.trans h.ctrl, k.fbBase.trans h.fbBase, k.fbSize.trans h.fbSize,
    k.fbStride.trans h.fbStride, k.color.trans h.color, k.p0.trans h.p0, k.p1.trans h.p1,
    k.latch.trans h.latch, k.posted.trans h.posted, k.lent.trans h.lent, k.events.trans h.events, k.hostReads.trans h.hostReads,
    k.ovr.trans h.ovr⟩

theorem State.SameMask.refl (s : State) : s.SameMask s := ⟨rfl, rfl, rfl, rfl, rfl, rfl⟩

theorem State.SameMask.trans {s t u : State} (h : s.SameMask t) (k : t.SameMask u) : s.SameMask u :=
  ⟨k.maskMin.trans h.maskMin, k.maskMax.trans h.maskMax, k.maskRam.trans h.maskRam,
    k.maskValid.trans h.maskValid, k.seeds.trans h.seeds, k.freeCount.trans h.freeCount⟩

theorem State.SameBus.refl (s : State) : s.SameBus s := ⟨rfl, rfl, rfl⟩

theorem State.SameBus.trans {s t u : State} (h : s.SameBus t) (k : t.SameBus u) : s.SameBus u :=
  ⟨k.mem.trans h.mem, k.trace.trans h.trace, k.faultAddr.trans h.faultAddr⟩

/-! ### `plotPixel` calls (41_pixel_blender.md R143) -/

/-- One step at the head of a plot list is one of four: nothing to access, a refused access, a full write, or the
read of a partial plot. -/
theorem stepPlot_cases (p : Plot) (rest : List Plot) (s : State) :
    (s.touches p = false ∧ stepPlot p rest s = s.goto (.plots rest)) ∨
    (s.touches p = true ∧ s.admitsPixel (s.plotAddr p) = false ∧ stepPlot p rest s = s.busError (s.plotAddr p)) ∨
    (s.touches p = true ∧ s.admitsPixel (s.plotAddr p) = true ∧ 16 ≤ p.cov ∧
      stepPlot p rest s = (s.writePixel (s.plotAddr p) s.latch.colC).goto (.plots rest)) ∨
    (s.touches p = true ∧ s.admitsPixel (s.plotAddr p) = true ∧ p.cov < 16 ∧
      stepPlot p rest s = (s.noteRead (s.plotAddr p)).goto
        (.blendWrite (s.plotAddr p) (blend s.latch.fmt (s.pixelAt (s.plotAddr p)) s.latch.colC p.cov) rest)) := by
  have ha : s.plotAddr p = s.latch.pixAddr p.x p.y := rfl
  unfold stepPlot State.touches
  cases hin : s.latch.inFrame p.x p.y
  · exact .inl (by simp)
  · by_cases hc : p.cov = 0
    · exact .inl (by simp [hc])
    · cases hadm : s.admitsPixel (s.plotAddr p)
      · exact .inr (.inl (by rw [ha] at hadm; simp [hc, hadm, ha]))
      · by_cases h16 : 16 ≤ p.cov
        · exact .inr (.inr (.inl (by rw [ha] at hadm; simp [hc, hadm, ha, h16])))
        · exact .inr (.inr (.inr (by
            rw [ha] at hadm
            simp only [hc, hadm, ha, h16, Bool.not_true, Bool.false_eq_true, if_false, ne_eq,
              not_false_eq_true, decide_true, Bool.and_self, true_and, and_true]
            omega)))

theorem stepBlendWrite_admitted {a v : Word} {rest : List Plot} {s : State} (h : s.admitsPixel a = true) :
    stepBlendWrite a v rest s = (s.writePixel a v).goto (.plots rest) := by simp [stepBlendWrite, h]

theorem stepBlendWrite_refused {a v : Word} {rest : List Plot} {s : State} (h : s.admitsPixel a = false) :
    stepBlendWrite a v rest s = s.busError a := by simp [stepBlendWrite, h]

/-! Whole `plotPixel` calls, by coverage class (41_pixel_blender.md R141, R143). -/

theorem State.plotted_none {p : Plot} {s : State} (h : s.touches p = false) : State.plotted p s = s := by
  simp [State.plotted, h]

theorem State.plotted_full {p : Plot} {s : State} (h : s.touches p = true) (hc : 16 ≤ p.cov) :
    State.plotted p s = s.writePixel (s.plotAddr p) s.latch.colC := by simp [State.plotted, h, hc]

theorem State.plotted_partial {p : Plot} {s : State} (h : s.touches p = true) (hc : p.cov < 16) :
    State.plotted p s = (s.noteRead (s.plotAddr p)).writePixel (s.plotAddr p)
      (blend s.latch.fmt (s.pixelAt (s.plotAddr p)) s.latch.colC p.cov) := by
  simp [State.plotted, h, Nat.not_le.2 hc]

@[simp] theorem State.plotted_latch (p : Plot) (s : State) : (State.plotted p s).latch = s.latch := by
  unfold State.plotted
  split
  · rfl
  · split <;> rfl

@[simp] theorem State.plotted_cfg (p : Plot) (s : State) : (State.plotted p s).cfg = s.cfg := by
  unfold State.plotted
  split
  · rfl
  · split <;> rfl

/-- A whole `plotPixel` changes memory and the bus trace, and nothing else. -/
theorem State.plotted_frame (p : Plot) (s : State) :
    ∃ m tr, State.plotted p s = { s with mem := m, trace := tr } := by
  unfold State.plotted
  split
  · exact ⟨s.mem, s.trace, rfl⟩
  · split
    · exact ⟨_, _, rfl⟩
    · exact ⟨_, _, rfl⟩

theorem State.plottedAll_frame (ps : List Plot) (s : State) :
    ∃ m tr, State.plottedAll ps s = { s with mem := m, trace := tr } := by
  induction ps generalizing s with
  | nil => exact ⟨s.mem, s.trace, rfl⟩
  | cons p ps ih =>
    obtain ⟨m, tr, h⟩ := State.plotted_frame p s
    obtain ⟨m', tr', h'⟩ := ih (State.plotted p s)
    exact ⟨m', tr', by rw [show State.plottedAll (p :: ps) s = State.plottedAll ps (State.plotted p s) from rfl,
      h', h]⟩

@[simp] theorem State.plottedAll_nil (s : State) : State.plottedAll [] s = s := rfl

@[simp] theorem State.plottedAll_cons (p : Plot) (ps : List Plot) (s : State) :
    State.plottedAll (p :: ps) s = State.plottedAll ps (State.plotted p s) := rfl

@[simp] theorem State.plottedAll_latch (ps : List Plot) (s : State) :
    (State.plottedAll ps s).latch = s.latch := by
  obtain ⟨m, tr, h⟩ := State.plottedAll_frame ps s
  rw [h]

@[simp] theorem State.plottedAll_cfg (ps : List Plot) (s : State) : (State.plottedAll ps s).cfg = s.cfg := by
  obtain ⟨m, tr, h⟩ := State.plottedAll_frame ps s
  rw [h]

/-- Whether the bus admits a plot depends on the parameters and the snapshot only. -/
theorem State.admitsPlot_congr {s t : State} (hc : t.cfg = s.cfg) (hl : t.latch = s.latch) (p : Plot) :
    t.admitsPlot p = s.admitsPlot p := by
  simp only [State.admitsPlot, State.touches, State.admitsPixel, State.plotAddr, hc, hl]

/-- With every access admitted, a list of plots takes the engine at most two steps each: the state is that of the
whole calls, and the rest of the list is still to come. -/
theorem runEngine_plots (ps rest : List Plot) (s : State) (h : ∀ p ∈ ps, s.admitsPlot p = true) :
    ∃ n ≤ 2 * ps.length,
      runEngine n (s.goto (.plots (ps ++ rest))) = (State.plottedAll ps s).goto (.plots rest) := by
  induction ps generalizing s with
  | nil => exact ⟨0, by simp, rfl⟩
  | cons p ps ih =>
    obtain ⟨n, hn, hrun⟩ := ih (State.plotted p s) fun q hq => by
      rw [State.admitsPlot_congr (State.plotted_cfg p s) (State.plotted_latch p s)]
      exact h q (by simp [hq])
    have hp : s.admitsPlot p = true := h p (by simp)
    have hstep : engineStep (s.goto (.plots (p :: ps ++ rest))) =
        stepPlot p (ps ++ rest) (s.goto (.plots (p :: ps ++ rest))) := rfl
    rcases stepPlot_cases p (ps ++ rest) (s.goto (.plots (p :: ps ++ rest))) with
      ⟨ht, he⟩ | ⟨ht, ha, -⟩ | ⟨ht, ha, h16, he⟩ | ⟨ht, ha, h16, he⟩
    · have ht : s.touches p = false := ht
      refine ⟨n + 1, by simp; omega, ?_⟩
      rw [runEngine_succ, hstep, he, State.plottedAll_cons, ← hrun]
      simp [State.plotted, ht, State.goto]
    · have ht : s.touches p = true := ht
      have ha : s.admitsPixel (s.plotAddr p) = false := ha
      simp [State.admitsPlot, ht, ha] at hp
    · have ht : s.touches p = true := ht
      refine ⟨n + 1, by simp; omega, ?_⟩
      rw [runEngine_succ, hstep, he, State.plottedAll_cons, ← hrun]
      simp [State.plotted, ht, h16, State.goto, State.writePixel, State.plotAddr]
    · have ht : s.touches p = true := ht
      have ha : s.admitsPixel (s.plotAddr p) = true := ha
      refine ⟨n + 2, by simp; omega, ?_⟩
      rw [runEngine_succ, hstep, he, runEngine_succ, State.plottedAll_cons, ← hrun]
      rw [State.plotted_partial ht h16]
      exact congrArg (runEngine n) (stepBlendWrite_admitted (by exact ha))

/-- A list of plots whose first refused one is `p` ends at `p` with a bus error. -/
theorem runEngine_refused (before after : List Plot) (p : Plot) (s : State)
    (hb : ∀ q ∈ before, s.admitsPlot q = true) (hp : s.admitsPlot p = false) :
    ∃ n ≤ 2 * before.length + 1, runEngine n (s.goto (.plots (before ++ p :: after))) =
      State.busError (s.plotAddr p) (State.plottedAll before s) := by
  obtain ⟨n, hn, hrun⟩ := runEngine_plots before (p :: after) s hb
  refine ⟨n + 1, by omega, ?_⟩
  rw [runEngine_add, hrun, runEngine_succ, runEngine_zero]
  show stepPlot p after _ = _
  have hp' : (State.plottedAll before s).admitsPlot p = false := by
    rw [State.admitsPlot_congr (State.plottedAll_cfg before s) (State.plottedAll_latch before s), hp]
  have ha : (State.plottedAll before s).plotAddr p = s.plotAddr p := by
    simp [State.plotAddr]
  simp only [State.admitsPlot, Bool.or_eq_false_iff, Bool.not_eq_false'] at hp'
  rcases stepPlot_cases p after ((State.plottedAll before s).goto (.plots (p :: after))) with
    ⟨ht, -⟩ | ⟨-, -, he⟩ | ⟨-, hadm, -, -⟩ | ⟨-, hadm, -, -⟩
  · exact absurd (ht.symm.trans hp'.1) (by simp)
  · rw [he, ← ha]
    rfl
  · exact absurd (hadm.symm.trans hp'.2) (by simp)
  · exact absurd (hadm.symm.trans hp'.2) (by simp)

/-- A command that starts with plots the bus admits makes them all and completes. -/
theorem finish_plots (ps : List Plot) (s : State) (h : ∀ p ∈ ps, s.admitsPlot p = true) :
    finish (s.goto (.plots ps)) = (State.plottedAll ps s).complete := by
  obtain ⟨n, hn, hrun⟩ := runEngine_plots ps [] s h
  rw [List.append_nil] at hrun
  have hlast : runEngine (n + 1) (s.goto (.plots ps)) = (State.plottedAll ps s).complete := by
    rw [runEngine_add, hrun]
    rfl
  have hb : budget (s.goto (.plots ps)) = 2 * ps.length + 1 := rfl
  rw [finish, hb, runEngine_of_idle (m := n + 1) (by rw [hlast]; rfl) (by omega), hlast]

/-- A command that starts with plots, one of them refused, ends there. -/
theorem finish_refused (before after : List Plot) (p : Plot) (s : State)
    (hb : ∀ q ∈ before, s.admitsPlot q = true) (hp : s.admitsPlot p = false) :
    finish (s.goto (.plots (before ++ p :: after))) =
      State.busError (s.plotAddr p) (State.plottedAll before s) := by
  obtain ⟨n, hn, hrun⟩ := runEngine_refused before after p s hb hp
  have hbud : budget (s.goto (.plots (before ++ p :: after))) = 2 * (before ++ p :: after).length + 1 := rfl
  rw [finish, hbud, runEngine_of_idle (m := n) (by rw [hrun]; rfl) (by simp; omega), hrun]

/-- Every list of plots splits at its first refused one, if it has one. -/
theorem State.plots_split (s : State) (ps : List Plot) :
    (∀ p ∈ ps, s.admitsPlot p = true) ∨
    ∃ before p after, ps = before ++ p :: after ∧ (∀ q ∈ before, s.admitsPlot q = true) ∧
      s.admitsPlot p = false := by
  induction ps with
  | nil => exact .inl (by simp)
  | cons p ps ih =>
    cases hp : s.admitsPlot p with
    | false => exact .inr ⟨[], p, ps, rfl, by simp, hp⟩
    | true =>
      rcases ih with h | ⟨before, q, after, rfl, hb, hq⟩
      · exact .inl (by simpa [hp] using h)
      · exact .inr ⟨p :: before, q, after, rfl, by simpa [hp] using hb, hq⟩

end Sys2Proof.Machine
end

