-- ==== Sys2Proof/Laws/Blender.lean ====
section
/-! SUPPORT. Laws of pixel containers and of the blend (20_memory.md R64, 41_pixel_blender.md R142). -/

namespace Sys2Proof.Machine

/-- Writing a channel and reading it back. -/
theorem channel_setChannel_same (f : Fmt) (c : Channel) (v : Word) (n : Nat) (h : n < 2 ^ f.channelBits) :
    channel f c (setChannel f c v n) = n := by
  have hv := v.isLt
  cases f <;> cases c <;>
    simp only [channel, setChannel, Channel.low, Fmt.channelBits, field, BitVec.toNat_ofNat] at * <;> omega

/-- Writing a channel leaves the others alone. -/
theorem channel_setChannel_other (f : Fmt) (c d : Channel) (v : Word) (n : Nat) (h : n < 2 ^ f.channelBits)
    (hd : d ≠ c) : channel f d (setChannel f c v n) = channel f d v := by
  have hv := v.isLt
  cases f <;> cases c <;> cases d <;> first
    | exact absurd rfl hd
    | (simp only [channel, setChannel, Channel.low, Fmt.channelBits, field, BitVec.toNat_ofNat] at *; omega)

/-- Writing a channel leaves the X bits alone. -/
theorem xBits_setChannel (f : Fmt) (c : Channel) (v : Word) (n : Nat) (h : n < 2 ^ f.channelBits) :
    xBits f (setChannel f c v n) = xBits f v := by
  have hv := v.isLt
  cases f <;> cases c <;>
    simp only [xBits, setChannel, Channel.low, Fmt.channelBits, field, BitVec.toNat_ofNat] at * <;> omega

/-- Writing the value a channel holds changes nothing. -/
theorem setChannel_self (f : Fmt) (c : Channel) (v : Word) : setChannel f c v (channel f c v) = v := by
  have hv := v.isLt
  apply BitVec.eq_of_toNat_eq
  cases f <;> cases c <;>
    simp only [channel, setChannel, Channel.low, Fmt.channelBits, field, BitVec.toNat_ofNat] <;> omega

theorem channel_lt (f : Fmt) (c : Channel) (v : Word) : channel f c v < 2 ^ f.channelBits :=
  Nat.mod_lt _ (by positivity)

/-- A blended channel, with its bounds: it lies between the old value and the target. -/
theorem blendChannel_spec (o t cov : Nat) (h : cov ≤ 15) :
    (blendChannel o t cov : Int) = o + (((t : Int) - o) * cov + 8) / 16 ∧
      min o t ≤ blendChannel o t cov ∧ blendChannel o t cov ≤ max o t := by
  have hc : (cov : Int) ≤ 15 := by exact_mod_cast h
  have h0 : (0 : Int) ≤ cov := by positivity
  have key : min (o : Int) t ≤ o + (((t : Int) - o) * cov + 8) / 16 ∧
      o + (((t : Int) - o) * cov + 8) / 16 ≤ max (o : Int) t := by
    rcases le_total (o : Int) t with hle | hle
    · have h1 : 0 ≤ ((t : Int) - o) * cov := mul_nonneg (by omega) h0
      have h2 : ((t : Int) - o) * cov ≤ (t - o) * 15 := mul_le_mul_of_nonneg_left hc (by omega)
      omega
    · have h1 : 0 ≤ ((o : Int) - t) * cov := mul_nonneg (by omega) h0
      have h2 : ((o : Int) - t) * cov ≤ (o - t) * 15 := mul_le_mul_of_nonneg_left hc (by omega)
      have h3 : ((t : Int) - o) * cov = -(((o : Int) - t) * cov) := by ring
      omega
  unfold blendChannel floorDiv
  omega

theorem blendChannel_lt {f : Fmt} {o t cov : Nat} (ho : o < 2 ^ f.channelBits) (ht : t < 2 ^ f.channelBits)
    (h : cov ≤ 15) : blendChannel o t cov < 2 ^ f.channelBits := by
  have := (blendChannel_spec o t cov h).2.2
  omega

theorem blendOne_channel {f : Fmt} {col old new : Word} {cov : Nat} (h : cov ≤ 15) (c d : Channel) :
    channel f d (blendOne f col cov c old new) =
      if d = c then blendChannel (channel f c old) (channel f c col) cov else channel f d new := by
  have hlt := blendChannel_lt (channel_lt f c old) (channel_lt f c col) h
  unfold blendOne
  split
  · next hd =>
    subst hd
    exact channel_setChannel_same f _ new _ hlt
  · next hd => exact channel_setChannel_other f c d new _ hlt hd

theorem blendOne_xBits {f : Fmt} {col old new : Word} {cov : Nat} (h : cov ≤ 15) (c : Channel) :
    xBits f (blendOne f col cov c old new) = xBits f new :=
  xBits_setChannel f c new _ (blendChannel_lt (channel_lt f c old) (channel_lt f c col) h)

/-- Every channel of a blend. -/
theorem channel_blend {f : Fmt} {col old : Word} {cov : Nat} (h : cov ≤ 15) (c : Channel) :
    channel f c (blend f old col cov) = blendChannel (channel f c old) (channel f c col) cov := by
  unfold blend
  rw [blendOne_channel h, blendOne_channel h, blendOne_channel h]
  cases c <;> rfl

theorem xBits_blend {f : Fmt} {col old : Word} {cov : Nat} (h : cov ≤ 15) :
    xBits f (blend f old col cov) = xBits f old := by
  unfold blend
  rw [blendOne_xBits h, blendOne_xBits h, blendOne_xBits h]

/-- Blending the colour with itself gives the colour. -/
theorem blend_self (f : Fmt) (col : Word) (cov : Nat) : blend f col col cov = col := by
  have h : ∀ c, blendOne f col cov c col col = col := fun c => by
    have e : blendChannel (channel f c col) (channel f c col) cov = channel f c col := by
      simp [blendChannel, floorDiv]
    rw [blendOne, e, setChannel_self]
  rw [blend, h, h, h]

/-- A full plot leaves its pixel equal to the colour. -/
theorem State.pixelAt_plotted_full {p : Plot} {s : State} (hm : Memory.wf s.mem) (h : s.touches p = true)
    (hc : 16 ≤ p.cov) : (State.plotted p s).pixelAt (s.plotAddr p) = s.latch.colC := by
  rw [State.plotted_full h hc]
  show BitVec.ofNat 32 (loadLE (storeLE s.mem _ _ s.latch.fmt.bpp) _ s.latch.fmt.bpp) = _
  rw [loadLE_storeLE_same _ _ _ _ hm (Fmt.bpp_le _)]
  exact pixel_roundTrip _ _ s.latch.colC_lt

end Sys2Proof.Machine
end

