-- ==== Sys2Proof/Laws/Step.lean ====
section
/-! SUPPORT. Laws of the machine's step: whose move it is, and the engine's turn. -/

namespace Sys2Proof.Machine

/-- With no move pending, a step is the engine's turn. -/
theorem step_of_events_nil {s : State} (h : s.events = []) : step s = engineTurn s := by
  rw [step, nextMove, h]

/-- With a move pending, a step takes it. -/
theorem step_of_events_cons {s : State} {e : Event} {rest : List Event} (h : s.events = e :: rest) :
    step s = takeEvent e rest s := by
  rw [step, nextMove, h]

theorem engineTurn_idle {s : State} (h : s.progress = .idle) : engineTurn s = .next s := by
  rw [engineTurn, h]

/-- The engine's turn on an accepted legal word runs its command. -/
theorem engineTurn_command {s : State} {i : Instr} (h : s.progress = .running .start)
    (hd : decode s.latch.cmd = .ok i) : engineTurn s = exec i s := by
  rw [engineTurn, h]
  simp only [hd]

/-- The engine's turn on an accepted illegal word raises ILLEGAL_CMD. -/
theorem engineTurn_illegal {s : State} {e : DecodeError} (h : s.progress = .running .start)
    (hd : decode s.latch.cmd = .error e) : engineTurn s = .next (s.raise .illegalCmd) := by
  rw [engineTurn, h]
  simp only [hd]

/-- The engine's turn is one engine step, then the steps to completion. -/
theorem engineTurn_eq (s : State) :
    engineTurn s = .next (if s.progress = .running .start then finish (engineStep s) else finish s) := by
  cases h : s.progress with
  | idle => rw [engineTurn_idle h, if_neg (by simp), finish_idle h]
  | running k =>
    cases k with
    | start =>
      rw [if_pos rfl]
      have hs : engineStep s = firstStep s := by rw [engineStep, h]
      rw [hs]
      cases hd : decode s.latch.cmd with
      | ok i => rw [engineTurn_command h hd, exec_eq, firstStep, hd]
      | error e => rw [engineTurn_illegal h hd, firstStep, hd]; exact congrArg _ (finish_idle rfl).symm
    | plots ps => rw [if_neg (by simp), engineTurn, h]
    | blendWrite a v rest => rw [if_neg (by simp), engineTurn, h]
    | fill p => rw [if_neg (by simp), engineTurn, h]

/-- A run takes its first step, then the rest. -/
theorem run_next {s t : State} (k : Nat) (h : step s = .next t) :
    Sys2Proof.core.run (k + 1) s = Sys2Proof.core.run k t := by
  simp only [Host.Core.run]
  rw [show Sys2Proof.core.step s = .next t from h]

theorem run_zero (s : State) : Sys2Proof.core.run 0 s = .next s := rfl

/-- Of the register writes, only the one of STATUS changes STATUS, and none changes FAULT_ADDR. -/
theorem State.writeReg_status (s : State) (off : Nat) (v : Word) :
    (s.writeReg off v).status = (if off = 0x08 then s.status.writeOneToClear v else s.status) ∧
      (s.writeReg off v).faultAddr = s.faultAddr := by
  unfold State.writeReg
  split <;> first
    | exact ⟨rfl, rfl⟩
    | (split <;> simp_all)

end Sys2Proof.Machine
end

