-- ==== Sys2Proof/Laws/Borrow.lean ====
section
/-! SUPPORT. The borrowed bytes, computed row by row, are those of the in-frame pixel containers; how a byte
access ends; and the host's view of memory. -/

namespace Sys2Proof.Machine

/-- A byte lies `d` bytes after a row's start, mod 2^32. -/
theorem toNat_sub_ofNat (a : Word) (row d : Nat) (hd : d < 2 ^ 32) :
    (a - BitVec.ofNat 32 row).toNat = d ↔ a.toNat = (row + d) % 2 ^ 32 := by
  have := a.isLt
  rw [BitVec.toNat_sub, BitVec.toNat_ofNat]
  omega

/-- `ownsByte` decides 20_memory.md R72's "every byte of every in-frame pixel container". -/
theorem Snapshot.ownsByte_iff (l : Snapshot) (a : Word) : l.ownsByte a = true ↔ l.Holds a.toNat := by
  have hW : l.width < 2 ^ 16 := field_lt l.fbSize 0 16
  have hbpp := Fmt.bpp_le l.fmt
  have hpos := Fmt.bpp_pos l.fmt
  have hsize : l.width * l.fmt.bpp < 2 ^ 32 := by
    have := Nat.mul_le_mul (Nat.le_of_lt hW) hbpp
    omega
  simp only [Snapshot.ownsByte, List.any_eq_true, List.mem_range, decide_eq_true_eq, Snapshot.Holds, mem_bytesAt,
    Snapshot.inFrame_iff]
  constructor
  · rintro ⟨y, hy, hd⟩
    have hdiv := Nat.div_add_mod (a - BitVec.ofNat 32 (l.fbBase.toNat + y * l.fbStride.toNat)).toNat l.fmt.bpp
    have hmod := Nat.mod_lt (a - BitVec.ofNat 32 (l.fbBase.toNat + y * l.fbStride.toNat)).toNat hpos
    have ha := (toNat_sub_ofNat a (l.fbBase.toNat + y * l.fbStride.toNat) _ (by omega)).1 rfl
    have hx := (Nat.div_lt_iff_lt_mul hpos).2 hd
    generalize (a - BitVec.ofNat 32 (l.fbBase.toNat + y * l.fbStride.toNat)).toNat = d at *
    refine ⟨(d / l.fmt.bpp : Nat), y, ⟨by positivity, by exact_mod_cast hx, by positivity, by exact_mod_cast hy⟩,
      d % l.fmt.bpp, hmod, ?_⟩
    simp only [Snapshot.pixAddr, Int.toNat_natCast, BitVec.toNat_ofNat]
    rw [Nat.mul_comm (d / l.fmt.bpp)]
    omega
  · rintro ⟨x, y, ⟨hx0, hx, hy0, hy⟩, k, hk, ha⟩
    obtain ⟨x, rfl⟩ := Int.eq_ofNat_of_zero_le hx0
    obtain ⟨y, rfl⟩ := Int.eq_ofNat_of_zero_le hy0
    have hx' : x + 1 ≤ l.width := by omega
    have hmul := Nat.mul_le_mul_right l.fmt.bpp hx'
    rw [Nat.add_mul, Nat.one_mul] at hmul
    refine ⟨y, by omega, ?_⟩
    have hd := (toNat_sub_ofNat a (l.fbBase.toNat + y * l.fbStride.toNat) (x * l.fmt.bpp + k) (by omega)).2 (by
      rw [ha]
      simp only [Snapshot.pixAddr, Int.toNat_natCast, BitVec.toNat_ofNat]
      omega)
    omega

/-- `borrowed` decides whether the byte is the engine's for that agent. -/
theorem State.borrowed_iff (s : State) (who : Agent) (a : Word) : s.borrowed who a = true ↔ s.LentByte who a := by
  cases who <;> simp [State.borrowed, State.LentByte, Snapshot.ownsByte_iff]

/-- A byte access ends in one of three ways: refused in the register window, a fault on a lent byte, else its effect. -/
theorem byteAccess_cases (who : Agent) (a : Word) (s t : State) :
    ((a - s.cfg.regBase).toNat < 64 ∧ byteAccess who a s t = .refused .registerAccess) ∨
    (64 ≤ (a - s.cfg.regBase).toNat ∧ s.LentByte who a ∧ byteAccess who a s t = .fault .borrowBreach) ∨
    (64 ≤ (a - s.cfg.regBase).toNat ∧ ¬s.LentByte who a ∧ byteAccess who a s t = .next t) := by
  have hwin : Config.inWindow s.cfg a = true ↔ (a - s.cfg.regBase).toNat < 64 := decide_eq_true_iff
  unfold byteAccess
  by_cases hw : (a - s.cfg.regBase).toNat < 64
  · exact .inl ⟨hw, if_pos (hwin.2 hw)⟩
  · rw [if_neg (fun h => hw (hwin.1 h))]
    by_cases hb : s.LentByte who a
    · exact .inr (.inl ⟨by omega, hb, if_pos ((s.borrowed_iff who a).2 hb)⟩)
    · exact .inr (.inr ⟨by omega, hb, if_neg (fun h => hb ((s.borrowed_iff who a).1 h))⟩)

/-- A byte access that answers a next state answers its effect. -/
theorem byteAccess_next {who : Agent} {a : Word} {s t u : State} (h : byteAccess who a s t = .next u) : u = t := by
  rcases byteAccess_cases who a s t with ⟨-, e⟩ | ⟨-, -, e⟩ | ⟨-, -, e⟩ <;> rw [e] at h <;> simp_all

/-! ### The memory as the host has left it (20_memory.md R75) -/

/-- The host's view of a byte is its newest write in flight to it, else memory. -/
theorem State.hostByte_of_newest {s : State} {a : Word} {v : Byte} {older newer : List (Word × Byte)}
    (h : s.posted = older ++ (a, v) :: newer) (hn : ∀ c ∈ newer, c.1 ≠ a) : s.hostByte a = v := by
  unfold State.hostByte
  rw [h, List.reverse_append, List.reverse_cons, List.append_assoc, List.find?_append,
    List.find?_eq_none.2 (by simpa using hn)]
  simp

theorem State.hostByte_of_none {s : State} {a : Word} (h : ∀ c ∈ s.posted, c.1 ≠ a) :
    s.hostByte a = Memory.read s.mem a.toNat := by
  unfold State.hostByte
  rw [List.find?_eq_none.2 (by simpa using h)]

/-- A byte either has a newest write in flight or none. -/
theorem posted_split (l : List (Word × Byte)) (a : Word) :
    (∀ c ∈ l, c.1 ≠ a) ∨ ∃ older v newer, l = older ++ (a, v) :: newer ∧ ∀ c ∈ newer, c.1 ≠ a := by
  induction l with
  | nil => exact .inl (by simp)
  | cons c l ih =>
    rcases ih with h | ⟨older, v, newer, rfl, h⟩
    · by_cases hc : c.1 = a
      · exact .inr ⟨[], c.2, l, by rw [← hc]; rfl, h⟩
      · exact .inl (by simpa using ⟨hc, fun x y hm => h (x, y) hm⟩)
    · exact .inr ⟨c :: older, v, newer, rfl, h⟩

/-- The host's view of a byte depends on the writes in flight to it and on memory there. -/
theorem State.hostByte_congr {s t : State} {b : Word}
    (hp : t.posted.filter (fun c => decide (c.1 = b)) = s.posted.filter (fun c => decide (c.1 = b)))
    (hm : Memory.read t.mem b.toNat = Memory.read s.mem b.toNat) : t.hostByte b = s.hostByte b := by
  unfold State.hostByte
  rw [← List.head?_filter, ← List.head?_filter, List.filter_reverse, List.filter_reverse, hp, hm]

/-- A completed write is what the host then reads at its byte, and leaves its view of every other byte. -/
theorem State.hostByte_writeByte (s : State) (a b : Word) (v : Byte) (hw : Memory.wf s.mem) :
    (s.writeByte a v).hostByte b = if b = a then v else s.hostByte b := by
  split
  · next h =>
    subst h
    rw [State.hostByte_of_none (by simp), State.writeByte_mem, Memory.read_write_same _ _ _ hw.1]
  · next h =>
    refine State.hostByte_congr ?_ (Memory.read_write_other _ _ _ _ fun e => h (BitVec.eq_of_toNat_eq e))
    rw [State.writeByte_posted, List.filter_filter]
    exact List.filter_congr fun c _ => by by_cases hc : c.1 = b <;> simp [hc, h]

/-- A write issued in flight is what the host then reads at its byte, and leaves its view of every other byte. -/
theorem State.hostByte_post (s : State) (a b : Word) (v : Byte) :
    ({ s with posted := s.posted ++ [(a, v)] } : State).hostByte b = if b = a then v else s.hostByte b := by
  split
  · next h =>
    subst h
    exact State.hostByte_of_newest (older := s.posted) (newer := []) rfl (by simp)
  · next h => exact State.hostByte_congr (by simp [Ne.symm h]) rfl

/-- The oldest write in flight leaves the host's view of every byte as it lands. -/
theorem State.hostByte_drain {s : State} {a : Word} {v : Byte} {rest : List (Word × Byte)}
    (h : s.posted = (a, v) :: rest) (b : Word) (hw : Memory.wf s.mem) :
    ({ s with posted := rest, mem := Memory.write s.mem a.toNat v } : State).hostByte b = s.hostByte b := by
  by_cases hb : b = a
  · subst hb
    rcases posted_split rest b with hn | ⟨older, w, newer, rfl, hn⟩
    · rw [State.hostByte_of_none hn, State.hostByte_of_newest (older := []) h hn]
      exact Memory.read_write_same _ _ _ hw.1
    · rw [State.hostByte_of_newest (older := older) rfl hn,
        State.hostByte_of_newest (older := (b, v) :: older) h hn]
  · refine State.hostByte_congr ?_ (Memory.read_write_other _ _ _ _ fun e => hb (BitVec.eq_of_toNat_eq e))
    rw [h]
    simp [Ne.symm hb]

end Sys2Proof.Machine
end

