-- ==== Sys2Proof/Laws/EdgeMask.lean ====
section
/-! SUPPORT. Laws of the edge mask: burning pixels, and the integer midpoint walk (43_edge_mask.md). -/

namespace Sys2Proof.Machine

/-! ### Burning visited pixels into the mask -/

@[simp] theorem burn_nil (s : State) : burn [] s = s := rfl

@[simp] theorem burn_cons (v : Int × Int) (vs : List (Int × Int)) (s : State) :
    burn (v :: vs) s = burn vs (maskSet v s) := rfl

theorem maskSet_frame (v : Int × Int) (s : State) : ∃ r, maskSet v s = { s with maskRam := r } := by
  unfold maskSet
  split
  · exact ⟨_, rfl⟩
  · exact ⟨s.maskRam, rfl⟩

/-- Burning changes the mask RAM, and nothing else. -/
theorem burn_frame (vs : List (Int × Int)) (s : State) : ∃ r, burn vs s = { s with maskRam := r } := by
  induction vs generalizing s with
  | nil => exact ⟨s.maskRam, rfl⟩
  | cons v vs ih =>
    obtain ⟨r, h⟩ := maskSet_frame v s
    obtain ⟨r', h'⟩ := ih (maskSet v s)
    exact ⟨r', by rw [burn_cons, h', h]⟩

/-- One visited pixel sets its own bit, when it lies in the domain, and no other. -/
theorem mask_maskSet {s : State} {x y : Nat} (h : s.inMask x y = true) (v : Int × Int) :
    (maskSet v s).mask x y = true ↔ s.mask x y = true ∨ v = (s.minX + x, s.minY + y) := by
  have hd := State.inMask_iff.1 h
  obtain ⟨a, b⟩ := v
  unfold maskSet
  by_cases hin : 0 ≤ a - s.minX ∧ a - s.minX < s.maskWidth ∧ 0 ≤ b - s.minY ∧ b - s.minY < s.maskHeight
  · rw [if_pos hin, State.mask_mark (by omega) hd.1, Bool.or_eq_true, decide_eq_true_eq, or_comm, Prod.mk.injEq]
    refine or_congr_right ?_
    constructor <;> rintro ⟨h1, h2⟩ <;> constructor <;> omega
  · rw [if_neg hin, Prod.mk.injEq]
    refine ⟨.inl, fun hh => hh.resolve_right ?_⟩
    rintro ⟨rfl, rfl⟩
    exact hin ⟨by omega, by omega, by omega, by omega⟩

/-- Burning sets the bits of the visited domain pixels, clears none, and drops every other pixel. -/
theorem mask_burn {s : State} {x y : Nat} (h : s.inMask x y = true) (vs : List (Int × Int)) :
    (burn vs s).mask x y = true ↔ s.mask x y = true ∨ (s.minX + (x : Int), s.minY + (y : Int)) ∈ vs := by
  induction vs generalizing s with
  | nil => simp
  | cons v vs ih =>
    obtain ⟨r, hr⟩ := maskSet_frame v s
    have hi : (maskSet v s).inMask x y = true := by rw [hr]; exact h
    have hx : (maskSet v s).minX = s.minX := by rw [hr]; rfl
    have hy : (maskSet v s).minY = s.minY := by rw [hr]; rfl
    rw [burn_cons, ih hi, mask_maskSet h, hx, hy, List.mem_cons, or_assoc, eq_comm (a := v)]

/-! ### The midpoint walk -/

section
variable {ap aq sp sq : Int}

theorem midpointWalk_length (n : Nat) (d p q : Int) : (midpointWalk ap aq sp sq n d p q).length = n + 1 := by
  induction n generalizing d p q with
  | zero => rfl
  | succ n ih =>
    rw [midpointWalk]
    split <;> rw [List.length_cons, ih]

theorem midpointWalk_head (n : Nat) (d p q : Int) : (midpointWalk ap aq sp sq n d p q).head? = some (p, q) := by
  cases n with
  | zero => rfl
  | succ n =>
    rw [midpointWalk]
    split <;> rfl

/-- The decision value after `j` dominant and `r` minor steps. -/
def midpointD (ap aq : Int) (j r : Int) : Int := 2 * aq - ap + 2 * aq * j - 2 * ap * r

/-- The minor steps taken when `k` dominant ones are: `aq*k/ap` rounded to the nearest, an exact tie down. -/
def midpointMinor (ap aq k : Int) : Int := -((ap - 2 * aq * k) / (2 * ap))

theorem midpointMinor_bounds (h : 0 < ap) (k : Int) :
    2 * aq * k - ap ≤ 2 * ap * midpointMinor ap aq k ∧ 2 * ap * midpointMinor ap aq k < 2 * aq * k + ap := by
  have h1 := Int.mul_ediv_add_emod (ap - 2 * aq * k) (2 * ap)
  have h2 := Int.emod_nonneg (ap - 2 * aq * k) (b := 2 * ap) (by omega)
  have h3 := Int.emod_lt_of_pos (ap - 2 * aq * k) (b := 2 * ap) (by omega)
  unfold midpointMinor
  rw [Int.mul_neg]
  constructor <;> linarith

theorem midpointMinor_unique (h : 0 < ap) {k m : Int} (h1 : 2 * aq * k - ap ≤ 2 * ap * m)
    (h2 : 2 * ap * m < 2 * aq * k + ap) : midpointMinor ap aq k = m := by
  obtain ⟨g1, g2⟩ := midpointMinor_bounds (aq := aq) h k
  have e1 : 2 * ap * (midpointMinor ap aq k - m) < 2 * ap * 1 := by rw [Int.mul_sub]; linarith
  have e2 : 2 * ap * (m - midpointMinor ap aq k) < 2 * ap * 1 := by rw [Int.mul_sub]; linarith
  have := lt_of_mul_lt_mul_left e1 (by omega)
  have := lt_of_mul_lt_mul_left e2 (by omega)
  omega

theorem midpointMinor_zero (h0 : 0 < ap) : midpointMinor ap aq 0 = 0 :=
  midpointMinor_unique h0 (by omega) (by omega)

theorem midpointMinor_last (h0 : 0 < ap) : midpointMinor ap aq ap = aq :=
  midpointMinor_unique h0 (by nlinarith) (by nlinarith)

/-- A dominant step takes a minor step exactly when the decision value is positive. -/
theorem midpointMinor_succ (h0 : 0 < ap) (h1 : 0 ≤ aq) (h2 : aq ≤ ap) (j : Int) :
    midpointMinor ap aq (j + 1) =
      if 0 < midpointD ap aq j (midpointMinor ap aq j) then midpointMinor ap aq j + 1 else midpointMinor ap aq j := by
  obtain ⟨g1, g2⟩ := midpointMinor_bounds (aq := aq) h0 j
  unfold midpointD
  split
  · exact midpointMinor_unique h0 (by rw [Int.mul_add, Int.mul_add]; linarith) (by rw [Int.mul_add, Int.mul_add]; linarith)
  · exact midpointMinor_unique h0 (by rw [Int.mul_add]; linarith) (by rw [Int.mul_add]; linarith)

/-- The walk in closed form. -/
theorem midpointWalk_eq (h0 : 0 < ap) (h1 : 0 ≤ aq) (h2 : aq ≤ ap) (p0 q0 : Int) (n : Nat) (j : Int) :
    midpointWalk ap aq sp sq n (midpointD ap aq j (midpointMinor ap aq j)) (p0 + sp * j)
        (q0 + sq * midpointMinor ap aq j) =
      (List.range (n + 1)).map fun (k : Nat) => (p0 + sp * (j + (k : Int)), q0 + sq * midpointMinor ap aq (j + (k : Int))) := by
  induction n generalizing j with
  | zero => simp [midpointWalk]
  | succ n ih =>
    have hs := midpointMinor_succ h0 h1 h2 j
    have hr : (List.range (n + 1 + 1)).map (fun (k : Nat) =>
          (p0 + sp * (j + (k : Int)), q0 + sq * midpointMinor ap aq (j + (k : Int)))) =
        (p0 + sp * j, q0 + sq * midpointMinor ap aq j) ::
          (List.range (n + 1)).map fun (k : Nat) =>
            (p0 + sp * (j + 1 + (k : Int)), q0 + sq * midpointMinor ap aq (j + 1 + (k : Int))) := by
      rw [List.range_succ_eq_map, List.map_cons, List.map_map]
      refine congrArg₂ List.cons (by simp) (List.map_congr_left fun k _ => ?_)
      simp only [Function.comp, Nat.cast_succ]
      rw [show j + ((k : Int) + 1) = j + 1 + k by ring]
    rw [midpointWalk, hr, ← ih (j + 1)]
    split
    · next hd =>
      rw [if_pos hd] at hs
      rw [hs]
      congr 2 <;> (try unfold midpointD) <;> ring
    · next hd =>
      rw [if_neg hd] at hs
      rw [hs]
      congr 2 <;> (try unfold midpointD) <;> ring

end

/-- The sign and the length of a difference. -/
theorem stepSign_mul (a b : Int) : stepSign a b * ((b - a).natAbs : Int) = b - a := by
  unfold stepSign
  split <;> omega

theorem stepSign_eq (a b : Int) : stepSign a b = 1 ∨ stepSign a b = -1 := by
  unfold stepSign
  split <;> simp

/-- One axis' walk from its start: the pixel after `k` dominant steps. -/
def midpointAt (a0 a1 b0 b1 : Int) (k : Nat) : Int × Int :=
  (a0 + stepSign a0 a1 * k,
    b0 + stepSign b0 b1 * midpointMinor ((a1 - a0).natAbs : Int) ((b1 - b0).natAbs : Int) k)

/-- `midpointEdge` in closed form, dominant axis first. -/
theorem midpointWalk_start (a0 a1 b0 b1 : Int) (h : (b1 - b0).natAbs ≤ (a1 - a0).natAbs) :
    midpointWalk (a1 - a0).natAbs (b1 - b0).natAbs (stepSign a0 a1) (stepSign b0 b1) (a1 - a0).natAbs
        (2 * ((b1 - b0).natAbs : Int) - (a1 - a0).natAbs) a0 b0 =
      (List.range ((a1 - a0).natAbs + 1)).map (midpointAt a0 a1 b0 b1) := by
  rcases Nat.eq_zero_or_pos (a1 - a0).natAbs with hz | hpos
  · have hb : (b1 - b0).natAbs = 0 := by omega
    rw [hz, hb]
    simp [midpointWalk, midpointAt, hz, hb, midpointMinor]
  · have hp : (0 : Int) < ((a1 - a0).natAbs : Int) := by omega
    have hz := midpointMinor_zero (aq := ((b1 - b0).natAbs : Int)) hp
    have := midpointWalk_eq (sp := stepSign a0 a1) (sq := stepSign b0 b1) hp (aq := (b1 - b0).natAbs) (by omega)
      (by omega) a0 b0 (a1 - a0).natAbs 0
    rw [hz] at this
    simp only [Int.mul_zero, Int.add_zero, zero_add] at this
    rw [show midpointD (a1 - a0).natAbs (b1 - b0).natAbs 0 0 = 2 * ((b1 - b0).natAbs : Int) - (a1 - a0).natAbs by
      unfold midpointD; ring] at this
    exact this

end Sys2Proof.Machine
end

