-- ==== Sys2Proof/Laws/FloodFill.lean ====
section
/-! SUPPORT. The flood fill's loop invariant: what is painted is sound, what is left is covered by a seed or by the
position of the loop, the stores fit, and the loop's measure falls (44_flood_fill.md R202, R208, R209). -/

namespace Sys2Proof.Machine

/-! ### What the loop never changes -/

/-- A state without what the loop changes: the mask RAM, the seed store, the progress, memory and the trace. -/
def State.eraseFill (s : State) : State :=
  { s with maskRam := [], seeds := [], progress := .idle, mem := [], trace := [] }

/-- `u` differs from `s` at most in what the loop changes. -/
def State.FillRest (s u : State) : Prop := u.eraseFill = s.eraseFill

theorem State.FillRest.congr {s u : State} (h : s.FillRest u) {α : Type} (f : State → α) :
    f u.eraseFill = f s.eraseFill := congrArg f h

section
variable {s u : State} (h : s.FillRest u)
include h

theorem State.FillRest.cfg : u.cfg = s.cfg := h.congr State.cfg
theorem State.FillRest.latch : u.latch = s.latch := h.congr State.latch
theorem State.FillRest.status : u.status = s.status := h.congr State.status
theorem State.FillRest.maskMin : u.maskMin = s.maskMin := h.congr State.maskMin
theorem State.FillRest.maskMax : u.maskMax = s.maskMax := h.congr State.maskMax
theorem State.FillRest.faultAddr : u.faultAddr = s.faultAddr := h.congr State.faultAddr
theorem State.FillRest.freeCount : u.freeCount = s.freeCount := h.congr State.freeCount

theorem State.FillRest.sameHostSide : s.SameHostSide u :=
  ⟨h.cfg, h.congr State.ctrl, h.congr State.fbBase, h.congr State.fbSize, h.congr State.fbStride,
    h.congr State.color, h.congr State.p0, h.congr State.p1, h.latch, h.congr State.posted, h.congr State.lent,
    h.congr State.events, h.congr State.hostReads, h.congr (fun t => t.status.ovr)⟩

theorem State.FillRest.maskWidth : u.maskWidth = s.maskWidth := h.congr State.maskWidth
theorem State.FillRest.maskHeight : u.maskHeight = s.maskHeight := h.congr State.maskHeight
theorem State.FillRest.minX : u.minX = s.minX := h.congr State.minX
theorem State.FillRest.minY : u.minY = s.minY := h.congr State.minY

theorem State.FillRest.inMask (x y : Nat) : u.inMask x y = s.inMask x y :=
  h.congr (fun t => State.inMask t x y)

theorem State.FillRest.imageInFrame (x y : Nat) : u.imageInFrame x y = s.imageInFrame x y :=
  h.congr (fun t => State.imageInFrame t x y)

theorem State.FillRest.imageAddr (x y : Nat) : u.imageAddr x y = s.imageAddr x y :=
  h.congr (fun t => State.imageAddr t x y)

theorem State.FillRest.admitsPixel (a : Word) : u.admitsPixel a = s.admitsPixel a :=
  h.congr (fun t => State.admitsPixel t a)

end

theorem State.FillRest.refl (s : State) : s.FillRest s := rfl

/-! ### The painted frame pixels -/

/-- Two aligned containers are equal or disjoint, byte by byte: a byte that lies in both has one place in each. -/
theorem Snapshot.containers_agree {l : Snapshot} (hal : l.aligned = true) {x y u v : Int} {j k : Nat}
    (hj : j < l.fmt.bpp) (hk : k < l.fmt.bpp)
    (h : ((l.pixAddr x y).toNat + j) % 2 ^ 32 = ((l.pixAddr u v).toNat + k) % 2 ^ 32) : j = k := by
  cases hf : l.fmt with
  | fmt1 =>
    rw [hf, Fmt.bpp] at hj hk
    omega
  | fmt0 =>
    have h1 := l.pixAddr_aligned x y hal
    have h2 := l.pixAddr_aligned u v hal
    rw [hf, Fmt.bpp] at hj hk h1 h2
    omega

/-- Memory after the colour was written to the images of the pixels of `order`, and nothing else. -/
structure State.FillMem (s : State) (m : List Host.Cell) (order : List Seed) : Prop where
  wf : Memory.wf m
  colour : ∀ q ∈ order, ∀ k < s.latch.fmt.bpp,
    Memory.read m (((s.imageAddr q.1 q.2).toNat + k) % 2 ^ 32) = BitVec.ofNat 8 (s.latch.colC.toNat / 256 ^ k)
  others : ∀ b, (∀ q ∈ order, b ∉ bytesAt (s.imageAddr q.1 q.2) s.latch.fmt.bpp) →
    Memory.read m b = Memory.read s.mem b

theorem State.FillMem.nil {s : State} (h : Memory.wf s.mem) : s.FillMem s.mem [] :=
  ⟨h, by simp, fun _ _ => rfl⟩

/-- One more write of the colour. -/
theorem State.FillMem.cons {s : State} {m : List Host.Cell} {order : List Seed} (h : s.FillMem m order)
    (hal : s.latch.aligned = true) (q : Seed) :
    s.FillMem (storeLE m (s.imageAddr q.1 q.2).toNat s.latch.colC.toNat s.latch.fmt.bpp) (q :: order) := by
  have hb := Fmt.bpp_le s.latch.fmt
  refine ⟨storeLE_wf _ _ _ _ h.wf, fun p hp k hk => ?_, fun b hb => ?_⟩
  · by_cases hin : ∃ j < s.latch.fmt.bpp,
        ((s.imageAddr p.1 p.2).toNat + k) % 2 ^ 32 = ((s.imageAddr q.1 q.2).toNat + j) % 2 ^ 32
    · obtain ⟨j, hj, e⟩ := hin
      have : k = j := Snapshot.containers_agree hal hk hj e
      subst this
      rw [e, read_storeLE_byte _ _ _ _ _ h.wf hk hb]
    · rw [read_storeLE_other _ _ _ _ _ fun j hj e => hin ⟨j, hj, e⟩]
      rcases List.mem_cons.1 hp with rfl | hp
      · exact absurd ⟨k, hk, rfl⟩ hin
      · exact h.colour p hp k hk
  · rw [read_storeLE_other _ _ _ _ _ fun j hj e => hb q (by simp) (mem_bytesAt.2 ⟨j, hj, e⟩)]
    exact h.others b fun p hp => hb p (by simp [hp])

/-! ### Painted, required and covered pixels -/

/-- A domain pixel the fill has marked. -/
def State.Painted (s u : State) (x y : Nat) : Prop :=
  s.inMask x y = true ∧ u.mask x y = true ∧ s.mask x y = false

/-- A pixel the fill still owes a visit: the command's seed, or a neighbour of a painted pixel. -/
def State.Required (s u : State) (x y : Nat) : Prop :=
  (s.minX + x = s.latch.x0 ∧ s.minY + y = s.latch.y0) ∨ ∃ a b, Adjacent a b x y ∧ s.Painted u a b

/-- A seed of the store reaches the pixel along its own row, over unset pixels. -/
def State.SeedCovers (u : State) (x y : Nat) : Prop :=
  ∃ a, (a, y) ∈ u.seeds ∧ ∀ k, min a x ≤ k → k ≤ max a x → u.mask k y = false

/-- The rows next to row `y`. -/
def RowNextTo (y y' : Nat) : Prop := y + 1 = y' ∨ y' + 1 = y

/-- The position of the loop will reach the pixel. -/
def State.PosCovers (u : State) (x y : Nat) : FillPos → Prop
  | .pop => False
  | .right x0 y0 e =>
    (y = y0 ∧ ((e ≤ x ∧ ∀ k, e ≤ k → k ≤ x → u.mask k y = false) ∨
      (x < x0 ∧ ∀ k, x ≤ k → k < x0 → u.mask k y = false))) ∨
    (x0 ≤ x ∧ x < e ∧ RowNextTo y0 y)
  | .left y0 lo e =>
    (y = y0 ∧ x < lo ∧ ∀ k, x ≤ k → k < lo → u.mask k y = false) ∨ (lo ≤ x ∧ x < e ∧ RowNextTo y0 y)
  | .rows y0 c e _ _ => c ≤ x ∧ x < e ∧ RowNextTo y0 y

/-- What a latch of step 4 says at column `c`: the pixel before `c` in its row is unset and covered by a seed. -/
def State.LatchOk (u : State) (c y : Nat) (latch : Bool) : Prop :=
  latch = true → 1 ≤ c ∧ u.mask (c - 1) y = false ∧ u.SeedCovers (c - 1) y

/-- Where the loop stands, and what it has painted there. -/
def State.PosOk (s u : State) : FillPos → Prop
  | .pop => True
  | .right x y e => x < s.maskWidth ∧ y < s.maskHeight ∧ x ≤ e ∧ e ≤ s.maskWidth ∧ s.Component x y ∧
      (x < e ∨ u.mask x y = false) ∧ ∀ k, x ≤ k → k < e → s.Painted u k y
  | .left y lo e => y < s.maskHeight ∧ lo < e ∧ e ≤ s.maskWidth ∧ ∀ k, lo ≤ k → k < e → s.Painted u k y
  | .rows y c e la lb => y < s.maskHeight ∧ c ≤ e ∧ e ≤ s.maskWidth ∧
      (∀ k, c ≤ k → k < e → s.Painted u k y) ∧
      (∀ up, y = up + 1 → u.LatchOk c up la) ∧ (y + 1 < s.maskHeight → u.LatchOk c (y + 1) lb)

/-- Columns painted in this row whose neighbours in the rows next to it are not looked at yet. -/
def pendingColumns : FillPos → Nat
  | .pop => 0
  | .right x _ e => e - x
  | .left _ lo e => e - lo
  | .rows _ c e _ _ => e - c

/-- The unset pixels of the domain. -/
def State.unsetCount (u : State) : Nat :=
  ((Finset.range u.maskWidth ×ˢ Finset.range u.maskHeight).filter fun q => u.mask q.1 q.2 = false).card

theorem State.unsetCount_le (u : State) : u.unsetCount ≤ u.maskWidth * u.maskHeight := by
  refine (Finset.card_filter_le _ _).trans ?_
  simp

/-- Marking an unset pixel of the domain leaves one fewer. -/
theorem State.unsetCount_mark {u : State} {x y : Nat} (hx : x < u.maskWidth) (hy : y < u.maskHeight)
    (h : u.mask x y = false) : (u.mark x y).unsetCount + 1 = u.unsetCount := by
  have hm : ((x, y) : Nat × Nat) ∈
      (Finset.range u.maskWidth ×ˢ Finset.range u.maskHeight).filter fun q => u.mask q.1 q.2 = false := by
    simp [hx, hy, h]
  have he : (Finset.range u.maskWidth ×ˢ Finset.range u.maskHeight).filter
      (fun q => (u.mark x y).mask q.1 q.2 = false) =
      ((Finset.range u.maskWidth ×ˢ Finset.range u.maskHeight).filter
        fun q => u.mask q.1 q.2 = false).erase (x, y) := by
    ext ⟨a, b⟩
    simp only [Finset.mem_filter, Finset.mem_product, Finset.mem_range, Finset.mem_erase, ne_eq, Prod.mk.injEq]
    constructor
    · rintro ⟨⟨ha, hb⟩, hmask⟩
      rw [State.mask_mark hx ha, Bool.or_eq_false_iff] at hmask
      exact ⟨by simpa using hmask.1, ⟨ha, hb⟩, hmask.2⟩
    · rintro ⟨hne, ⟨ha, hb⟩, hmask⟩
      refine ⟨⟨ha, hb⟩, ?_⟩
      rw [State.mask_mark hx ha, hmask]
      simpa using hne
  have hc := Finset.card_erase_add_one hm
  rw [← he] at hc
  exact hc

/-! ### The invariant -/

/-- What holds of the state at every moment of a fill, at its end too: only the component is painted, and the frame
holds the colour where `order` says. -/
structure State.FillWeak (s u : State) (order : List Seed) : Prop where
  rest : s.FillRest u
  grows : ∀ x y, s.inMask x y = true → s.mask x y = true → u.mask x y = true
  sound : ∀ x y, s.inMask x y = true → u.mask x y = true → s.mask x y = true ∨ s.Component x y
  painted : ∀ q ∈ order, s.Component q.1 q.2 ∧ s.imageInFrame q.1 q.2 = true
  nodup : order.Nodup
  trace : u.trace =
    order.map (fun q => { kind := .write, addr := s.imageAddr q.1 q.2, size := s.latch.fmt.bpp }) ++ s.trace
  mem : Memory.wf s.mem → s.FillMem u.mem order

/-- The same between two steps: every in-frame painted pixel is in `order`. -/
structure State.FillCore (s u : State) (order : List Seed) : Prop extends s.FillWeak u order where
  complete : ∀ q : Seed, s.Painted u q.1 q.2 → s.imageInFrame q.1 q.2 = true → q ∈ order
  onlyMarked : ∀ q ∈ order, s.Painted u q.1 q.2

/-- The loop invariant, at position `p`. -/
structure State.FillLoop (s u : State) (p : FillPos) (order : List Seed) : Prop extends s.FillCore u order where
  aligned : s.latch.aligned = true
  pos : s.PosOk u p
  seeds : ∀ q ∈ u.seeds, s.inMask q.1 q.2 = true ∧ (u.mask q.1 q.2 = true ∨ s.Component q.1 q.2)
  cover : ∀ x y, s.inMask x y = true → u.mask x y = false → s.Required u x y →
    u.SeedCovers x y ∨ u.PosCovers x y p
  bound : u.seeds.length + 2 * u.unsetCount + 2 * pendingColumns p ≤ 2 * (s.maskWidth * s.maskHeight) + 1

/-- How a fill ends. -/
inductive State.FillEnd (s : State) : State → Prop
  /-- The store is empty: the fill is complete. -/
  | done (u : State) (order : List Seed) : s.FillLoop u .pop order → u.seeds = [] →
      State.FillEnd s u.endFill.complete
  /-- A paint was refused. -/
  | refused (u : State) (order : List Seed) (x y : Nat) : s.FillWeak u order → s.Component x y →
      s.imageInFrame x y = true → s.admitsPixel (s.imageAddr x y) = false →
      State.FillEnd s (State.raise .busError (State.endFill { u with faultAddr := s.imageAddr x y }))
  /-- A push overflowed, so the store is shallower than the bound of 44_flood_fill.md R209. -/
  | overflow (u : State) (order : List Seed) : s.FillWeak u order →
      s.cfg.seedDepth < 2 * (s.maskWidth * s.maskHeight) + 1 → State.FillEnd s (seedOverflow u)

/-- The loop's measure. -/
def State.fillFuel (u : State) (p : FillPos) : Nat := 12 * u.unsetCount + 5 * u.seeds.length + posBudget p

theorem State.FillWeak.component {s u : State} {order : List Seed} (h : s.FillWeak u order) {x y : Nat}
    (hp : s.Painted u x y) : s.Component x y := by
  rcases h.sound x y hp.1 hp.2.1 with h' | h'
  · rw [hp.2.2] at h'
    exact absurd h' (by simp)
  · exact h'

theorem State.FillWeak.unset {s u : State} {order : List Seed} (h : s.FillWeak u order) {x y : Nat}
    (hi : s.inMask x y = true) (hm : u.mask x y = false) : s.Unset x y := by
  refine ⟨hi, ?_⟩
  cases hs : s.mask x y with
  | false => rfl
  | true => rw [h.grows x y hi hs] at hm; exact hm

theorem Adjacent.symm {x y u v : Nat} (h : Adjacent x y u v) : Adjacent u v x y := by
  unfold Adjacent at *
  omega

/-- A component pixel lies in the domain, and its bit was 0. -/
theorem State.Component.unset {s : State} {x y : Nat} (h : s.Component x y) : s.Unset x y := by
  cases h <;> assumption

/-! ### One paint -/

section
variable {s u : State} {order : List Seed} {x y : Nat}

/-- The mask after a domain pixel is marked. -/
theorem State.FillWeak.mask_mark (h : s.FillWeak u order) (hi : s.inMask x y = true) {a b : Nat}
    (ha : s.inMask a b = true) : (u.mark x y).mask a b = (decide (a = x ∧ b = y) || u.mask a b) :=
  State.mask_mark (by rw [h.rest.maskWidth]; exact (State.inMask_iff.1 hi).1)
    (by rw [h.rest.maskWidth]; exact (State.inMask_iff.1 ha).1)

/-- Marking a pixel of the component. -/
theorem State.FillWeak.mark (h : s.FillWeak u order) (hc : s.Component x y) : s.FillWeak (u.mark x y) order where
  rest := h.rest
  grows a b ha hm := by rw [h.mask_mark hc.unset.1 ha, h.grows a b ha hm, Bool.or_true]
  sound a b ha hm := by
    rw [h.mask_mark hc.unset.1 ha, Bool.or_eq_true, decide_eq_true_eq] at hm
    rcases hm with ⟨rfl, rfl⟩ | hm
    · exact .inr hc
    · exact h.sound a b ha hm
  painted := h.painted
  nodup := h.nodup
  trace := h.trace
  mem := h.mem

theorem State.FillWeak.painted_mark (h : s.FillWeak u order) (hc : s.Component x y) {a b : Nat} :
    s.Painted (u.mark x y) a b ↔ (a = x ∧ b = y) ∨ s.Painted u a b := by
  constructor
  · rintro ⟨hi, hm, h0⟩
    rw [h.mask_mark hc.unset.1 hi, Bool.or_eq_true, decide_eq_true_eq] at hm
    exact hm.imp_right fun hm => ⟨hi, hm, h0⟩
  · rintro (⟨rfl, rfl⟩ | ⟨hi, hm, h0⟩)
    · exact ⟨hc.unset.1, by rw [h.mask_mark hc.unset.1 hc.unset.1]; simp, hc.unset.2⟩
    · exact ⟨hi, by rw [h.mask_mark hc.unset.1 hi, hm, Bool.or_true], h0⟩

/-- One paint of an unset component pixel: refused, or the core of the invariant goes on. -/
theorem State.FillCore.paint (h : s.FillCore u order) (hal : s.latch.aligned = true) (hc : s.Component x y)
    (hm : u.mask x y = false) (k : Cont) :
    s.FillEnd (paintThen x y k (u.mark x y)) ∨
    ∃ m tr order', s.FillCore { u.mark x y with mem := m, trace := tr } order' ∧
      paintThen x y k (u.mark x y) = State.goto k { u.mark x y with mem := m, trace := tr } := by
  have hw := h.toFillWeak.mark hc
  have hfr : (u.mark x y).latch.inFrame ((u.mark x y).minX + x) ((u.mark x y).minY + y) = s.imageInFrame x y :=
    hw.rest.imageInFrame x y
  have had : (u.mark x y).latch.pixAddr ((u.mark x y).minX + x) ((u.mark x y).minY + y) = s.imageAddr x y :=
    hw.rest.imageAddr x y
  have hcol : (u.mark x y).latch.colC = s.latch.colC := congrArg Snapshot.colC hw.rest.latch
  have hfmt : (u.mark x y).latch.fmt = s.latch.fmt := congrArg Snapshot.fmt hw.rest.latch
  unfold paintThen
  rw [hfr, had, hcol, hw.rest.admitsPixel]
  cases hin : s.imageInFrame x y
  · refine .inr ⟨u.mem, u.trace, order, ⟨hw, fun q hq hf => ?_, fun q hq => ?_⟩, by simp; rfl⟩
    · rcases (h.painted_mark hc).1 hq with ⟨ha, hb⟩ | hq
      · rw [ha, hb, hin] at hf
        exact absurd hf (by simp)
      · exact h.complete q hq hf
    · exact (h.painted_mark hc).2 (.inr (h.onlyMarked q hq))
  · cases hadm : s.admitsPixel (s.imageAddr x y)
    · exact .inl (by simpa using State.FillEnd.refused _ _ x y hw hc hin hadm)
    · refine .inr ⟨storeLE u.mem (s.imageAddr x y).toNat s.latch.colC.toNat s.latch.fmt.bpp,
        { kind := .write, addr := s.imageAddr x y, size := s.latch.fmt.bpp } :: u.trace, (x, y) :: order,
        ⟨⟨hw.rest, hw.grows, hw.sound, ?_, ?_, ?_, ?_⟩, ?_, ?_⟩, ?_⟩
      · intro q hq
        rcases List.mem_cons.1 hq with rfl | hq
        · exact ⟨hc, hin⟩
        · exact h.painted q hq
      · refine List.nodup_cons.2 ⟨fun hq => ?_, h.nodup⟩
        have := (h.onlyMarked _ hq).2.1
        rw [hm] at this
        exact absurd this (by simp)
      · show _ :: u.trace = _
        rw [h.trace]
        rfl
      · exact fun hmem => (h.mem hmem).cons hal (x, y)
      · intro q hq hf
        rcases (h.painted_mark hc).1 hq with ⟨ha, hb⟩ | hq
        · exact List.mem_cons.2 (.inl (Prod.ext ha hb))
        · exact List.mem_cons_of_mem _ (h.complete q hq hf)
      · intro q hq
        refine (h.painted_mark hc).2 ?_
        rcases List.mem_cons.1 hq with rfl | hq
        · exact .inl ⟨rfl, rfl⟩
        · exact .inr (h.onlyMarked q hq)
      · simp only [Bool.not_true, Bool.false_eq_true, if_false]
        simp only [State.writePixel, hfmt]
        rfl

theorem State.FillWeak.required_mark (h : s.FillWeak u order) (hc : s.Component x y) {a b : Nat}
    (hr : s.Required (u.mark x y) a b) : s.Required u a b ∨ Adjacent x y a b := by
  rcases hr with hr | ⟨c, d, had, hp⟩
  · exact .inl (.inl hr)
  · rcases (h.painted_mark hc).1 hp with ⟨rfl, rfl⟩ | hp
    · exact .inr had
    · exact .inl (.inr ⟨c, d, had, hp⟩)

/-- A seed still covers its pixel after a paint, unless the painted pixel lay between them. -/
theorem State.FillLoop.seedCovers_mark {p : FillPos} (h : s.FillLoop u p order) (hi : s.inMask x y = true)
    {a b : Nat} (ha : s.inMask a b = true) (hs : u.SeedCovers a b) :
    (u.mark x y).SeedCovers a b ∨
      (b = y ∧ ∀ k, min x a ≤ k → k ≤ max x a → u.mask k y = false) := by
  obtain ⟨c, hc, hk⟩ := hs
  have hcm := State.inMask_iff.1 (h.seeds _ hc).1
  have ham := State.inMask_iff.1 ha
  by_cases hb : b = y ∧ min c a ≤ x ∧ x ≤ max c a
  · obtain ⟨rfl, h1, h2⟩ := hb
    exact .inr ⟨rfl, fun k hk1 hk2 => hk k (by omega) (by omega)⟩
  · refine .inl ⟨c, hc, fun k hk1 hk2 => ?_⟩
    rw [h.mask_mark hi (State.inMask_iff.2 ⟨by simp only at hcm; omega, ham.2⟩), hk k hk1 hk2, Bool.or_false,
      decide_eq_false_iff_not]
    rintro ⟨rfl, rfl⟩
    exact hb ⟨rfl, hk1, hk2⟩

end

/-! ### One step of the loop -/

/-- The loop goes on from `u`, with a smaller measure. -/
def State.FillGoesOn (s u t : State) (p : FillPos) : Prop :=
  ∃ p' v order, t = v.goto (.fill p') ∧ s.FillLoop v p' order ∧ v.fillFuel p' < u.fillFuel p

section
variable {s u : State} {order : List Seed}

theorem fillStep_pop (h : s.FillLoop u .pop order) :
    s.FillEnd (stepPop u) ∨ s.FillGoesOn u (stepPop u) .pop := by
  unfold stepPop
  cases hs : u.seeds with
  | nil => exact .inl (.done u order h hs)
  | cons q rest =>
    obtain ⟨x, y⟩ := q
    refine .inr ?_
    have hq := h.seeds (x, y) (by simp [hs])
    have hb := h.bound
    simp only [hs, List.length_cons, pendingColumns] at hb
    have hrest : ∀ q ∈ rest, s.inMask q.1 q.2 = true ∧ (u.mask q.1 q.2 = true ∨ s.Component q.1 q.2) :=
      fun q hq => h.seeds q (by simp [hs, hq])
    cases hm : u.mask x y
    · have hc : s.Component x y := by
        rcases hq.2 with h' | h'
        · rw [hm] at h'; exact absurd h' (by simp)
        · exact h'
      have hd := State.inMask_iff.1 hq.1
      refine ⟨.right x y x, { u with seeds := rest }, order, by simp [hm],
        ⟨⟨⟨h.rest, h.grows, h.sound, h.painted, h.nodup, h.trace, h.mem⟩, h.complete, h.onlyMarked⟩, h.aligned,
          ⟨hd.1, hd.2, le_refl _, by omega, hc, .inr hm, fun k _ _ => by omega⟩, hrest, ?_, ?_⟩, ?_⟩
      · intro a b ha hma hr
        rcases h.cover a b ha hma hr with ⟨c, hc, hk⟩ | hp
        · rw [hs, List.mem_cons] at hc
          rcases hc with hc | hc
          · obtain ⟨rfl, rfl⟩ := Prod.mk.inj hc
            refine .inr (.inl ⟨rfl, ?_⟩)
            rcases Nat.lt_or_ge a c with hlt | hge
            · exact .inr ⟨hlt, fun k h1 h2 => hk k (by omega) (by omega)⟩
            · exact .inl ⟨hge, fun k h1 h2 => hk k (by omega) (by omega)⟩
          · exact .inl ⟨c, hc, hk⟩
        · exact absurd hp (by simp [State.PosCovers])
      · show rest.length + 2 * u.unsetCount + 2 * (x - x) ≤ _
        omega
      · show 12 * u.unsetCount + 5 * rest.length + (11 * (x - x) + 3) < 12 * u.unsetCount + 5 * u.seeds.length + 0
        rw [hs, List.length_cons]
        omega
    · refine ⟨.pop, { u with seeds := rest }, order, by simp [hm],
        ⟨⟨⟨h.rest, h.grows, h.sound, h.painted, h.nodup, h.trace, h.mem⟩, h.complete, h.onlyMarked⟩, h.aligned,
          trivial, hrest, ?_, ?_⟩, ?_⟩
      · intro a b ha hma hr
        rcases h.cover a b ha hma hr with ⟨c, hc, hk⟩ | hp
        · rw [hs, List.mem_cons] at hc
          rcases hc with hc | hc
          · obtain ⟨rfl, rfl⟩ := Prod.mk.inj hc
            have := hk c (by omega) (by omega)
            rw [hm] at this
            exact absurd this (by simp)
          · exact .inl ⟨c, hc, hk⟩
        · exact absurd hp (by simp [State.PosCovers])
      · show rest.length + 2 * u.unsetCount + 2 * 0 ≤ _
        omega
      · show 12 * u.unsetCount + 5 * rest.length + 0 < 12 * u.unsetCount + 5 * u.seeds.length + 0
        rw [hs, List.length_cons]
        omega

/-- What a paint does to the counts. -/
theorem State.FillWeak.unsetCount_mark (h : s.FillWeak u order) {x y : Nat} (hi : s.inMask x y = true)
    (hm : u.mask x y = false) : (u.mark x y).unsetCount + 1 = u.unsetCount := by
  have hd := State.inMask_iff.1 hi
  exact State.unsetCount_mark (by rw [h.rest.maskWidth]; exact hd.1) (by rw [h.rest.maskHeight]; exact hd.2) hm

theorem fillStep_right {x y e : Nat} (h : s.FillLoop u (.right x y e) order) :
    s.FillEnd (stepRight x y e u) ∨ s.FillGoesOn u (stepRight x y e u) (.right x y e) := by
  obtain ⟨hx, hy, hxe, he, hcx, hne, hrun⟩ := h.pos
  have hw : u.maskWidth = s.maskWidth := h.rest.maskWidth
  unfold stepRight
  by_cases hgo : e < u.maskWidth ∧ u.mask e y = false
  · rw [if_pos hgo]
    obtain ⟨hew, hme⟩ := hgo
    rw [hw] at hew
    have hi : s.inMask e y = true := State.inMask_iff.2 ⟨hew, hy⟩
    have hc : s.Component e y := by
      rcases Nat.lt_or_ge x e with hlt | hge
      · exact .step (e - 1) y e y (h.component (hrun (e - 1) (by omega) (by omega)))
          (.inl ⟨rfl, .inl (by omega)⟩) (h.unset hi hme)
      · rw [show e = x by omega]; exact hcx
    rcases h.paint h.aligned hc hme (.fill (.right x y (e + 1))) with hend | ⟨m, tr, order', hcore, heq⟩
    · exact .inl hend
    · have hcnt := h.unsetCount_mark hi hme
      refine .inr ⟨.right x y (e + 1), { u.mark e y with mem := m, trace := tr }, order', heq,
        ⟨hcore, h.aligned, ⟨hx, hy, by omega, by omega, hcx, .inl (by omega), fun k h1 h2 => ?_⟩, ?_, ?_, ?_⟩, ?_⟩
      · refine (h.painted_mark hc).2 ?_
        rcases Nat.lt_or_ge k e with hlt | hge
        · exact .inr (hrun k h1 hlt)
        · exact .inl ⟨by omega, rfl⟩
      · intro q hq
        have hq := h.seeds q hq
        refine ⟨hq.1, hq.2.imp_left fun hm => ?_⟩
        show (u.mark e y).mask q.1 q.2 = true
        rw [h.mask_mark hi hq.1, hm, Bool.or_true]
      · intro a b ha hma hr
        have ham := State.inMask_iff.1 ha
        have hma' : (u.mark e y).mask a b = false := hma
        have hmk : ∀ k, k < s.maskWidth → k ≠ e → u.mask k y = false → (u.mark e y).mask k y = false := by
          intro k hk hke hmk
          rw [h.mask_mark hi (State.inMask_iff.2 ⟨hk, hy⟩), hmk]
          simp [hke]
        rw [h.mask_mark hi ha, Bool.or_eq_false_iff, decide_eq_false_iff_not] at hma'
        have hspan : b = y → (∀ k, min e a ≤ k → k ≤ max e a → u.mask k y = false) →
            u.PosCovers a b (.right x y (e + 1)) ∧ ∀ k, min e a ≤ k → k ≤ max e a → k ≠ e →
              (u.mark e y).mask k y = false := by
          rintro rfl hk
          have hae : a ≠ e := fun hae => hma'.1 ⟨hae, rfl⟩
          refine ⟨?_, fun k h1 h2 h3 => hmk k (by omega) h3 (hk k h1 h2)⟩
          refine .inl ⟨rfl, ?_⟩
          rcases Nat.lt_or_ge a e with hlt | hge
          · rcases Nat.lt_or_ge x e with hxl | hxg
            · have h1 := hk (e - 1) (by omega) (by omega)
              rw [(hrun (e - 1) (by omega) (by omega)).2.1] at h1
              exact absurd h1 (by simp)
            · exact .inr ⟨by omega, fun k h1 h2 => hk k (by omega) (by omega)⟩
          · exact .inl ⟨by omega, fun k h1 h2 => hk k (by omega) (by omega)⟩
        rcases h.required_mark hc hr with hr | hadj
        · rcases h.cover a b ha hma'.2 hr with hsc | hpc
          · rcases h.seedCovers_mark hi ha hsc with hsc | ⟨hb, hk⟩
            · exact .inl hsc
            · obtain ⟨hp, hk'⟩ := hspan hb hk
              refine .inr ?_
              rcases hp with ⟨rfl, hp⟩ | hp
              · refine .inl ⟨rfl, ?_⟩
                rcases hp with ⟨h1, h2⟩ | ⟨h1, h2⟩
                · exact .inl ⟨h1, fun k h3 h4 => hk' k (by omega) (by omega) (by omega)⟩
                · exact .inr ⟨h1, fun k h3 h4 => hk' k (by omega) (by omega) (by omega)⟩
              · exact .inr hp
          · refine .inr ?_
            rcases hpc with ⟨rfl, hp⟩ | ⟨h1, h2, h3⟩
            · have hae : a ≠ e := fun hae => hma'.1 ⟨hae, rfl⟩
              refine .inl ⟨rfl, ?_⟩
              rcases hp with ⟨h1, h2⟩ | ⟨h1, h2⟩
              · exact .inl ⟨by omega, fun k h3 h4 => hmk k (by omega) (by omega) (h2 k (by omega) h4)⟩
              · exact .inr ⟨h1, fun k h3 h4 => hmk k (by omega) (by omega) (h2 k h3 h4)⟩
            · exact .inr ⟨h1, by omega, h3⟩
        · refine .inr ?_
          rcases hadj with ⟨rfl, hadj | hadj⟩ | ⟨rfl, hadj⟩
          · exact .inl ⟨rfl, .inl ⟨by omega, fun k h3 h4 => by rw [show k = a by omega]; exact hma⟩⟩
          · rcases Nat.lt_or_ge x e with hxl | hxg
            · have h1 := (hrun a (by omega) (by omega)).2.1
              rw [hma'.2] at h1
              exact absurd h1 (by simp)
            · exact .inl ⟨rfl, .inr ⟨by omega, fun k h3 h4 => by rw [show k = a by omega]; exact hma⟩⟩
          · exact .inr ⟨by omega, by omega, hadj⟩
      · have hb := h.bound
        show u.seeds.length + 2 * (u.mark e y).unsetCount + 2 * (e + 1 - x) ≤ _
        simp only [pendingColumns] at hb
        omega
      · show 12 * (u.mark e y).unsetCount + 5 * u.seeds.length + (11 * (e + 1 - x) + 3) <
          12 * u.unsetCount + 5 * u.seeds.length + (11 * (e - x) + 3)
        omega
  · rw [if_neg hgo]
    have hend : e < s.maskWidth → u.mask e y = true := by
      intro hlt
      cases hme : u.mask e y
      · exact absurd ⟨by rw [hw]; exact hlt, hme⟩ hgo
      · rfl
    have hxlt : x < e := by
      rcases Nat.lt_or_ge x e with hlt | hge
      · exact hlt
      · have hex : e = x := by omega
        rcases hne with hne | hne
        · exact hne
        · rw [← hex, hend (by omega)] at hne
          exact absurd hne (by simp)
    refine .inr ⟨.left y x e, u, order, rfl, ⟨h.toFillCore, h.aligned, ⟨hy, hxlt, he, hrun⟩, h.seeds, ?_, h.bound⟩, ?_⟩
    · intro a b ha hma hr
      have ham := State.inMask_iff.1 ha
      refine (h.cover a b ha hma hr).imp_right fun hp => ?_
      rcases hp with ⟨rfl, ⟨h1, h2⟩ | ⟨h1, h2⟩⟩ | hp
      · have := h2 e (le_refl _) h1
        rw [hend (by omega)] at this
        exact absurd this (by simp)
      · exact .inl ⟨rfl, h1, h2⟩
      · exact .inr hp
    · show 12 * u.unsetCount + 5 * u.seeds.length + (11 * (e - x) + 2) <
        12 * u.unsetCount + 5 * u.seeds.length + (11 * (e - x) + 3)
      omega

theorem fillStep_left {y lo e : Nat} (h : s.FillLoop u (.left y lo e) order) :
    s.FillEnd (stepLeft y lo e u) ∨ s.FillGoesOn u (stepLeft y lo e u) (.left y lo e) := by
  obtain ⟨hy, hlo, he, hrun⟩ := h.pos
  have hlatch : ∀ c y', u.LatchOk c y' false := fun c y' hf => absurd hf (by simp)
  cases lo with
  | zero =>
    refine .inr ⟨.rows y 0 e false false, u, order, rfl, ⟨h.toFillCore, h.aligned,
      ⟨hy, by omega, he, hrun, fun _ _ => hlatch _ _, fun _ => hlatch _ _⟩, h.seeds, ?_, h.bound⟩, ?_⟩
    · intro a b ha hma hr
      refine (h.cover a b ha hma hr).imp_right fun hp => ?_
      rcases hp with ⟨-, h1, -⟩ | hp
      · omega
      · exact hp
    · show 12 * u.unsetCount + 5 * u.seeds.length + (11 * (e - 0) + 1) <
        12 * u.unsetCount + 5 * u.seeds.length + (11 * (e - 0) + 2)
      omega
  | succ w =>
    unfold stepLeft
    simp only
    cases hmw : u.mask w y
    · rw [if_pos rfl]
      have hi : s.inMask w y = true := State.inMask_iff.2 ⟨by omega, hy⟩
      have hc : s.Component w y := .step (w + 1) y w y (h.component (hrun (w + 1) (by omega) (by omega)))
        (.inl ⟨rfl, .inr rfl⟩) (h.unset hi hmw)
      rcases h.paint h.aligned hc hmw (.fill (.left y w e)) with hend | ⟨m, tr, order', hcore, heq⟩
      · exact .inl hend
      · have hcnt := h.unsetCount_mark hi hmw
        refine .inr ⟨.left y w e, { u.mark w y with mem := m, trace := tr }, order', heq,
          ⟨hcore, h.aligned, ⟨hy, by omega, he, fun k h1 h2 => ?_⟩, ?_, ?_, ?_⟩, ?_⟩
        · refine (h.painted_mark hc).2 ?_
          rcases Nat.lt_or_ge w k with hlt | hge
          · exact .inr (hrun k (by omega) h2)
          · exact .inl ⟨by omega, rfl⟩
        · intro q hq
          have hq := h.seeds q hq
          refine ⟨hq.1, hq.2.imp_left fun hm => ?_⟩
          show (u.mark w y).mask q.1 q.2 = true
          rw [h.mask_mark hi hq.1, hm, Bool.or_true]
        · intro a b ha hma hr
          have ham := State.inMask_iff.1 ha
          have hma' : (u.mark w y).mask a b = false := hma
          have hmk : ∀ k, k < w → u.mask k y = false → (u.mark w y).mask k y = false := by
            intro k hk hmk
            rw [h.mask_mark hi (State.inMask_iff.2 ⟨by omega, hy⟩), hmk]
            simp
            omega
          rw [h.mask_mark hi ha, Bool.or_eq_false_iff, decide_eq_false_iff_not] at hma'
          rcases h.required_mark hc hr with hr | hadj
          · rcases h.cover a b ha hma'.2 hr with hsc | hpc
            · rcases h.seedCovers_mark hi ha hsc with hsc | ⟨rfl, hk⟩
              · exact .inl hsc
              · have haw : a ≠ w := fun haw => hma'.1 ⟨haw, rfl⟩
                refine .inr (.inl ⟨rfl, ?_⟩)
                rcases Nat.lt_or_ge a w with hlt | hge
                · exact ⟨hlt, fun k h1 h2 => hmk k h2 (hk k (by omega) (by omega))⟩
                · have h1 := hk (w + 1) (by omega) (by omega)
                  rw [(hrun (w + 1) (by omega) (by omega)).2.1] at h1
                  exact absurd h1 (by simp)
            · refine .inr ?_
              rcases hpc with ⟨rfl, h1, h2⟩ | ⟨h1, h2, h3⟩
              · have haw : a ≠ w := fun haw => hma'.1 ⟨haw, rfl⟩
                exact .inl ⟨rfl, by omega, fun k h3 h4 => hmk k h4 (h2 k h3 (by omega))⟩
              · exact .inr ⟨by omega, h2, h3⟩
          · refine .inr ?_
            rcases hadj with ⟨rfl, hadj | hadj⟩ | ⟨rfl, hadj⟩
            · have h1 := (hrun a (by omega) (by omega)).2.1
              rw [hma'.2] at h1
              exact absurd h1 (by simp)
            · exact .inl ⟨rfl, by omega, fun k h3 h4 => by rw [show k = a by omega]; exact hma⟩
            · exact .inr ⟨by omega, by omega, hadj⟩
        · have hb := h.bound
          show u.seeds.length + 2 * (u.mark w y).unsetCount + 2 * (e - w) ≤ _
          simp only [pendingColumns] at hb
          omega
        · show 12 * (u.mark w y).unsetCount + 5 * u.seeds.length + (11 * (e - w) + 2) <
            12 * u.unsetCount + 5 * u.seeds.length + (11 * (e - (w + 1)) + 2)
          omega
    · rw [if_neg (by simp)]
      refine .inr ⟨.rows y (w + 1) e false false, u, order, rfl, ⟨h.toFillCore, h.aligned,
        ⟨hy, by omega, he, hrun, fun _ _ => hlatch _ _, fun _ => hlatch _ _⟩, h.seeds, ?_, h.bound⟩, ?_⟩
      · intro a b ha hma hr
        refine (h.cover a b ha hma hr).imp_right fun hp => ?_
        rcases hp with ⟨rfl, h1, h2⟩ | hp
        · have := h2 w (by omega) (by omega)
          rw [hmw] at this
          exact absurd this (by simp)
        · exact hp
      · show 12 * u.unsetCount + 5 * u.seeds.length + (11 * (e - (w + 1)) + 1) <
          12 * u.unsetCount + 5 * u.seeds.length + (11 * (e - (w + 1)) + 2)
        omega

end

/-! ### Step 4, the rows above and below -/

/-- More seeds in front. -/
def State.moreSeeds (new : List Seed) (u : State) : State := { u with seeds := new ++ u.seeds }

@[simp] theorem State.moreSeeds_nil (u : State) : u.moreSeeds [] = u := rfl

theorem State.SeedCovers.more {u : State} {x y : Nat} (h : u.SeedCovers x y) (new : List Seed) :
    (u.moreSeeds new).SeedCovers x y := by
  obtain ⟨a, ha, hk⟩ := h
  exact ⟨a, List.mem_append_right _ ha, hk⟩

theorem State.LatchOk.more {u : State} {c y : Nat} {l : Bool} (h : u.LatchOk c y l) (new : List Seed) :
    (u.moreSeeds new).LatchOk c y l := fun hl => ⟨(h hl).1, (h hl).2.1, (h hl).2.2.more new⟩

/-- A row is looked at in one column: the push overflows, or at most one seed is added, an unset pixel of the
column, after which that pixel is covered when it is unset. -/
theorem seedRow_cases {u : State} {c y : Nat} {l : Bool} (hl : u.LatchOk c y l) :
    (seedRow c y l u = none ∧ u.cfg.seedDepth ≤ u.seeds.length) ∨
    ∃ new l', seedRow c y l u = some (u.moreSeeds new, l') ∧ new.length ≤ 1 ∧
      (∀ q ∈ new, q = (c, y) ∧ u.mask c y = false) ∧ (u.moreSeeds new).LatchOk (c + 1) y l' ∧
      (u.mask c y = false → (u.moreSeeds new).SeedCovers c y) := by
  unfold seedRow
  cases hm : u.mask c y
  · cases l
    · unfold State.push?
      by_cases hlt : u.seeds.length < u.cfg.seedDepth
      · have hcov : (u.moreSeeds [(c, y)]).SeedCovers c y :=
          ⟨c, List.mem_append_left _ (by simp), fun k h1 h2 => by rw [show k = c by omega]; exact hm⟩
        refine .inr ⟨[(c, y)], true, by simp [hlt, State.moreSeeds], by simp, by simp, ?_, fun _ => hcov⟩
        exact fun _ => ⟨by omega, hm, hcov⟩
      · exact .inl ⟨by simp [hlt], by omega⟩
    · obtain ⟨h1, h2, a, ha, hk⟩ := hl rfl
      have hcov : u.SeedCovers c y := ⟨a, ha, fun k h3 h4 => by
        by_cases hkc : k = c
        · rw [hkc]; exact hm
        · by_cases hka : k = a ∧ c ≤ a
          · by_cases hca : a = c
            · omega
            · exact hk k (by omega) (by omega)
          · exact hk k (by omega) (by omega)⟩
      exact .inr ⟨[], true, by simp, by simp, by simp, fun _ => ⟨by omega, hm, hcov⟩, fun _ => hcov⟩
  · exact .inr ⟨[], false, by simp, by simp, by simp, fun hf => absurd hf (by simp), fun hf => absurd hf (by simp)⟩

/-- Both rows are looked at in one column. -/
theorem stepRows_cases {s u : State} {order : List Seed} {y c e : Nat} {la lb : Bool} (hce : c < e)
    (h : s.FillLoop u (.rows y c e la lb) order) :
    (∃ new, new.length ≤ 1 ∧ stepRows y c e la lb u = seedOverflow (u.moreSeeds new) ∧
      u.cfg.seedDepth ≤ u.seeds.length + new.length) ∨
    ∃ new la' lb', stepRows y c e la lb u = (u.moreSeeds new).goto (.fill (.rows y (c + 1) e la' lb')) ∧
      new.length ≤ 2 ∧
      (∀ q ∈ new, q.1 = c ∧ RowNextTo y q.2 ∧ q.2 < s.maskHeight ∧ u.mask q.1 q.2 = false) ∧
      (∀ up, y = up + 1 → (u.moreSeeds new).LatchOk (c + 1) up la') ∧
      (y + 1 < s.maskHeight → (u.moreSeeds new).LatchOk (c + 1) (y + 1) lb') ∧
      ∀ b, RowNextTo y b → b < s.maskHeight → u.mask c b = false → (u.moreSeeds new).SeedCovers c b := by
  obtain ⟨hy, -, he, hrun, hla, hlb⟩ := h.pos
  have hh : u.maskHeight = s.maskHeight := h.rest.maskHeight
  have habove : (seedAbove c y la u = none ∧ u.cfg.seedDepth ≤ u.seeds.length) ∨
      ∃ new l', seedAbove c y la u = some (u.moreSeeds new, l') ∧ new.length ≤ 1 ∧
        (∀ q ∈ new, q.1 = c ∧ q.2 + 1 = y ∧ u.mask q.1 q.2 = false) ∧
        (∀ up, y = up + 1 → (u.moreSeeds new).LatchOk (c + 1) up l') ∧
        ∀ b, b + 1 = y → u.mask c b = false → (u.moreSeeds new).SeedCovers c b := by
    cases y with
    | zero => exact .inr ⟨[], la, rfl, by simp, by simp, by simp, by simp⟩
    | succ up =>
      rcases seedRow_cases (hla up rfl) with hn | ⟨new, l', h1, h2, h3, h4, h5⟩
      · exact .inl hn
      · refine .inr ⟨new, l', h1, h2, ?_, ?_, ?_⟩
        · intro q hq
          obtain ⟨rfl, hm⟩ := h3 q hq
          exact ⟨rfl, rfl, hm⟩
        · intro up' hup
          rw [show up' = up by omega]
          exact h4
        · intro b hb
          rw [show b = up by omega]
          exact h5
  unfold stepRows
  rw [if_pos hce]
  rcases habove with ⟨hn, hd⟩ | ⟨new1, la', h1, h2, h3, h4, h5⟩
  · exact .inl ⟨[], by simp, by rw [hn]; rfl, by simpa using hd⟩
  · have hbelow : (seedBelow c y lb (u.moreSeeds new1) = none ∧
          u.cfg.seedDepth ≤ (u.moreSeeds new1).seeds.length) ∨
        ∃ new l', seedBelow c y lb (u.moreSeeds new1) = some ((u.moreSeeds new1).moreSeeds new, l') ∧
          new.length ≤ 1 ∧
          (∀ q ∈ new, q.1 = c ∧ y + 1 = q.2 ∧ q.2 < s.maskHeight ∧ u.mask q.1 q.2 = false) ∧
          (y + 1 < s.maskHeight → ((u.moreSeeds new1).moreSeeds new).LatchOk (c + 1) (y + 1) l') ∧
          ∀ b, y + 1 = b → b < s.maskHeight → u.mask c b = false →
            ((u.moreSeeds new1).moreSeeds new).SeedCovers c b := by
      unfold seedBelow
      have hh' : (u.moreSeeds new1).maskHeight = s.maskHeight := hh
      rw [hh']
      by_cases hlt : y + 1 < s.maskHeight
      · rw [if_pos hlt]
        rcases seedRow_cases ((hlb hlt).more new1) with hn | ⟨new, l', g1, g2, g3, g4, g5⟩
        · exact .inl hn
        · refine .inr ⟨new, l', g1, g2, ?_, fun _ => g4, ?_⟩
          · intro q hq
            obtain ⟨rfl, hm⟩ := g3 q hq
            exact ⟨rfl, rfl, hlt, hm⟩
          · rintro b rfl _ hm
            exact g5 hm
      · rw [if_neg hlt]
        exact .inr ⟨[], lb, rfl, by simp, by simp, fun h => absurd h hlt, fun b hb h => absurd (hb ▸ h) hlt⟩
    simp only [h1]
    rcases hbelow with ⟨hn, hd⟩ | ⟨new2, lb', g1, g2, g3, g4, g5⟩
    · refine .inl ⟨new1, h2, by rw [hn], ?_⟩
      simp only [State.moreSeeds, List.length_append] at hd
      omega
    · have happ : (u.moreSeeds new1).moreSeeds new2 = u.moreSeeds (new2 ++ new1) := by
        simp [State.moreSeeds]
      rw [happ] at g1 g4 g5
      refine .inr ⟨new2 ++ new1, la', lb', by rw [g1], by rw [List.length_append]; omega, ?_, ?_, g4, ?_⟩
      · intro q hq
        rcases List.mem_append.1 hq with hq | hq
        · obtain ⟨a1, a2, a3, a4⟩ := g3 q hq
          exact ⟨a1, .inl a2, a3, a4⟩
        · obtain ⟨a1, a2, a3⟩ := h3 q hq
          exact ⟨a1, .inr a2, by omega, a3⟩
      · intro up hup
        rw [← happ]
        exact (h4 up hup).more new2
      · intro b hb hbh hm
        rcases hb with hb | hb
        · exact g5 b hb hbh hm
        · rw [← happ]
          exact (h5 b hb hm).more new2

theorem fillStep_rows {s u : State} {order : List Seed} {y c e : Nat} {la lb : Bool}
    (h : s.FillLoop u (.rows y c e la lb) order) :
    s.FillEnd (stepRows y c e la lb u) ∨ s.FillGoesOn u (stepRows y c e la lb u) (.rows y c e la lb) := by
  obtain ⟨hy, hce', he, hrun, -, -⟩ := h.pos
  have hb := h.bound
  simp only [pendingColumns] at hb
  rcases Nat.lt_or_ge c e with hce | hce
  · rcases stepRows_cases hce h with ⟨new, hn, heq, hd⟩ | ⟨new, la', lb', heq, hn, hnew, hla, hlb, hcov⟩
    · rw [heq]
      refine .inl (.overflow (u.moreSeeds new) order
        ⟨h.rest, h.grows, h.sound, h.painted, h.nodup, h.trace, h.mem⟩ ?_)
      rw [h.rest.cfg] at hd
      omega
    · rw [heq]
      refine .inr ⟨.rows y (c + 1) e la' lb', u.moreSeeds new, order, rfl,
        ⟨⟨⟨h.rest, h.grows, h.sound, h.painted, h.nodup, h.trace, h.mem⟩, h.complete, h.onlyMarked⟩, h.aligned,
          ⟨hy, hce, he, fun k h1 h2 => hrun k (by omega) h2, hla, hlb⟩, ?_, ?_, ?_⟩, ?_⟩
      · intro q hq
        rcases List.mem_append.1 hq with hq | hq
        · obtain ⟨h1, h2, h3, h4⟩ := hnew q hq
          have hi : s.inMask q.1 q.2 = true := State.inMask_iff.2 ⟨by omega, h3⟩
          refine ⟨hi, .inr (.step c y q.1 q.2 (h.component (hrun c (le_refl _) hce)) (.inr ⟨h1.symm, ?_⟩)
            (h.unset hi h4))⟩
          exact h2
        · exact h.seeds q hq
      · intro a b ha hma hr
        rcases h.cover a b ha hma hr with hs | ⟨h1, h2, h3⟩
        · exact .inl (hs.more new)
        · by_cases hac : a = c
          · subst hac
            exact .inl (hcov b h3 (State.inMask_iff.1 ha).2 hma)
          · exact .inr ⟨by omega, h2, h3⟩
      · show (new ++ u.seeds).length + 2 * u.unsetCount + 2 * (e - (c + 1)) ≤ _
        rw [List.length_append]
        omega
      · show 12 * u.unsetCount + 5 * (new ++ u.seeds).length + (11 * (e - (c + 1)) + 1) <
          12 * u.unsetCount + 5 * u.seeds.length + (11 * (e - c) + 1)
        rw [List.length_append]
        omega
  · unfold stepRows
    rw [if_neg (by omega)]
    refine .inr ⟨.pop, u, order, rfl, ⟨h.toFillCore, h.aligned, trivial, h.seeds, ?_, ?_⟩, ?_⟩
    · intro a b ha hma hr
      refine (h.cover a b ha hma hr).imp_right fun ⟨h1, h2, _⟩ => by omega
    · simp only [pendingColumns]
      omega
    · show 12 * u.unsetCount + 5 * u.seeds.length + 0 < 12 * u.unsetCount + 5 * u.seeds.length + (11 * (e - c) + 1)
      omega

/-! ### The whole fill -/

/-- One engine step of a running fill: it ends, or the loop goes on with a smaller measure. -/
theorem fill_step {s u : State} {p : FillPos} {order : List Seed} (h : s.FillLoop u p order) :
    s.FillEnd (stepFill p u) ∨ s.FillGoesOn u (stepFill p u) p := by
  cases p with
  | pop => exact fillStep_pop h
  | right x y e => exact fillStep_right h
  | left y lo e => exact fillStep_left h
  | rows y c e la lb => exact fillStep_rows h

/-- The invariant does not look at the progress state. -/
theorem State.FillLoop.goto {s u : State} {p : FillPos} {order : List Seed} (h : s.FillLoop u p order) (k : Cont) :
    s.FillLoop (u.goto k) p order :=
  ⟨⟨⟨h.rest, h.grows, h.sound, h.painted, h.nodup, h.trace, h.mem⟩, h.complete, h.onlyMarked⟩, h.aligned, h.pos,
    h.seeds, h.cover, h.bound⟩

/-- A running fill ends within its measure. -/
theorem fill_run {s : State} (n : Nat) {u : State} {p : FillPos} {order : List Seed} (h : s.FillLoop u p order)
    (hn : u.fillFuel p < n) : ∃ k ≤ n, s.FillEnd (runEngine k (u.goto (.fill p))) := by
  induction n generalizing u p order with
  | zero => omega
  | succ n ih =>
    have hstep : engineStep (u.goto (.fill p)) = stepFill p (u.goto (.fill p)) := rfl
    rcases fill_step (h.goto (.fill p)) with hend | ⟨p', v, order', heq, hv, hlt⟩
    · exact ⟨1, by omega, by rw [runEngine_succ, hstep, runEngine_zero]; exact hend⟩
    · have hlt : v.fillFuel p' < u.fillFuel p := hlt
      obtain ⟨k, hk, hend⟩ := ih hv (by omega)
      exact ⟨k + 1, by omega, by rw [runEngine_succ, hstep, heq]; exact hend⟩

theorem State.FillEnd.idle {s t : State} (h : s.FillEnd t) : t.progress = .idle := by cases h <;> rfl

/-- The loop's first state, from a seed in the mask domain. -/
theorem State.fillLoop_start {s : State} (hal : s.latch.aligned = true) {x y : Nat} (hi : s.inMask x y = true)
    (hx : s.minX + x = s.latch.x0) (hy : s.minY + y = s.latch.y0) :
    s.FillLoop { s with seeds := [(x, y)] } .pop [] where
  rest := rfl
  grows _ _ _ h := h
  sound _ _ _ h := .inl h
  painted := by simp
  nodup := List.nodup_nil
  trace := rfl
  mem := .nil
  complete q hq _ := by
    have h1 : s.mask q.1 q.2 = true := hq.2.1
    rw [hq.2.2] at h1
    exact absurd h1 (by simp)
  onlyMarked := by simp
  aligned := hal
  pos := trivial
  seeds q hq := by
    have hq : q ∈ [(x, y)] := hq
    rw [List.mem_singleton] at hq
    subst hq
    refine ⟨hi, ?_⟩
    show s.mask x y = true ∨ _
    cases hm : s.mask x y
    · exact .inr (.seed x y hx hy ⟨hi, hm⟩)
    · exact .inl rfl
  cover a b ha hma hr := by
    refine .inl ?_
    rcases hr with ⟨h1, h2⟩ | ⟨c, d, -, hp⟩
    · have ea : a = x := by omega
      have eb : b = y := by omega
      subst ea eb
      exact ⟨a, List.mem_singleton.2 rfl, fun k h3 h4 => by rw [show k = a by omega]; exact hma⟩
    · have h1 : s.mask c d = true := hp.2.1
      rw [hp.2.2] at h1
      exact absurd h1 (by simp)
  bound := by
    have := s.unsetCount_le
    show 1 + 2 * s.unsetCount + 2 * 0 ≤ _
    omega

/-- A `FILL` past its start checks either has its seed outside the mask domain and ends at once, or runs the loop to
one of its ends. -/
theorem finish_startFill {s : State} (hal : s.latch.aligned = true) :
    (¬(∃ x y : Nat, s.inMask x y = true ∧ s.minX + x = s.latch.x0 ∧ s.minY + y = s.latch.y0) ∧
      finish (startFill (s.latch.x0 - s.minX) (s.latch.y0 - s.minY) s) =
        (State.endFill { s with seeds := [] }).complete) ∨
    s.FillEnd (finish (startFill (s.latch.x0 - s.minX) (s.latch.y0 - s.minY) s)) := by
  unfold startFill
  split
  · next h =>
    obtain ⟨h1, h2, h3, h4⟩ := h
    refine .inr ?_
    have hi : s.inMask (s.latch.x0 - s.minX).toNat (s.latch.y0 - s.minY).toNat = true :=
      State.inMask_iff.2 ⟨by omega, by omega⟩
    have hloop := State.fillLoop_start hal hi (by omega) (by omega)
    generalize hv : ({ s with seeds := [((s.latch.x0 - s.minX).toNat, (s.latch.y0 - s.minY).toNat)] } : State) = v at *
    have hb : budget (v.goto (.fill .pop)) =
        12 * (v.maskWidth * v.maskHeight) + 5 * v.seeds.length + 0 + 1 := rfl
    have hu := v.unsetCount_le
    obtain ⟨k, hk, hend⟩ := fill_run (budget (v.goto (.fill .pop))) hloop (by
      rw [hb]
      show 12 * v.unsetCount + 5 * v.seeds.length + 0 < _
      omega)
    rw [finish, runEngine_of_idle hend.idle hk]
    exact hend
  · next h =>
    refine .inl ⟨?_, finish_idle rfl⟩
    rintro ⟨x, y, hi, hx, hy⟩
    have hi := State.inMask_iff.1 hi
    exact h ⟨by omega, by omega, by omega, by omega⟩

/-- At the end of a fill without error, exactly the component is painted. -/
theorem State.FillLoop.painted_iff {s u : State} {order : List Seed} (h : s.FillLoop u .pop order)
    (he : u.seeds = []) (x y : Nat) : s.Painted u x y ↔ s.Component x y := by
  have hcov : ∀ a b, s.inMask a b = true → s.Required u a b → u.mask a b = true := by
    intro a b ha hr
    cases hm : u.mask a b
    · rcases h.cover a b ha hm hr with ⟨c, hc, -⟩ | hp
      · rw [he] at hc
        exact absurd hc (by simp)
      · exact absurd hp (by simp [State.PosCovers])
    · rfl
  refine ⟨h.component, fun hc => ?_⟩
  induction hc with
  | seed a b hx hy hu => exact ⟨hu.1, hcov a b hu.1 (.inl ⟨hx, hy⟩), hu.2⟩
  | step a b c d _ hadj hu ih => exact ⟨hu.1, hcov c d hu.1 (.inr ⟨a, b, hadj, ih⟩), hu.2⟩

end Sys2Proof.Machine
end

