-- ==== Sys2Proof/Laws/HostSide.lean ====
section
/-! SUPPORT. The engine neither reads nor writes the host's side of the state: every engine step, and every whole
command, commutes with any change of it (10_state.md R43). -/

namespace Sys2Proof.Machine

/-- The host's side of the state: the registers it writes, its moves, its writes in flight and what it has read. -/
structure HostSide where
  ctrl      : Ctrl
  fbBase    : Word
  fbSize    : Word
  fbStride  : Word
  color     : Word
  p0        : Word
  p1        : Word
  posted    : List (Word × Byte)
  lent      : List Snapshot
  events    : List Event
  hostReads : List Word

/-- The state with another host's side. -/
def State.withHost (h : HostSide) (s : State) : State :=
  { s with
    ctrl := h.ctrl, fbBase := h.fbBase, fbSize := h.fbSize, fbStride := h.fbStride, color := h.color
    p0 := h.p0, p1 := h.p1, posted := h.posted, lent := h.lent, events := h.events, hostReads := h.hostReads }

/-- The host's side of a state. -/
def State.host (s : State) : HostSide :=
  { ctrl := s.ctrl, fbBase := s.fbBase, fbSize := s.fbSize, fbStride := s.fbStride, color := s.color
    p0 := s.p0, p1 := s.p1, posted := s.posted, lent := s.lent, events := s.events, hostReads := s.hostReads }

theorem State.withHost_host (s : State) : s.withHost s.host = s := rfl

variable (h : HostSide) (s : State)

theorem stepPlot_withHost (p : Plot) (rest : List Plot) :
    stepPlot p rest (s.withHost h) = (stepPlot p rest s).withHost h := by
  simp only [stepPlot, apply_ite (State.withHost h)]
  rfl

theorem stepPlots_withHost (ps : List Plot) : stepPlots ps (s.withHost h) = (stepPlots ps s).withHost h := by
  cases ps with
  | nil => rfl
  | cons p rest => exact stepPlot_withHost h s p rest

theorem stepBlendWrite_withHost (a v : Word) (rest : List Plot) :
    stepBlendWrite a v rest (s.withHost h) = (stepBlendWrite a v rest s).withHost h := by
  simp only [stepBlendWrite, apply_ite (State.withHost h)]
  rfl

theorem maskSet_withHost (v : Int × Int) : maskSet v (s.withHost h) = (maskSet v s).withHost h := by
  simp only [maskSet, apply_ite (State.withHost h)]
  rfl

theorem burn_withHost (vs : List (Int × Int)) : burn vs (s.withHost h) = (burn vs s).withHost h := by
  induction vs generalizing s with
  | nil => rfl
  | cons v vs ih =>
    show burn vs (maskSet v (s.withHost h)) = (burn vs (maskSet v s)).withHost h
    rw [maskSet_withHost, ih]

theorem beginMbegin_withHost : beginMbegin (s.withHost h) = (beginMbegin s).withHost h := by
  simp only [beginMbegin, apply_ite (State.withHost h)]
  rfl

theorem beginMedge_withHost : beginMedge (s.withHost h) = (beginMedge s).withHost h := by
  have hb := burn_withHost h s (midpointEdge s.latch.x0 s.latch.y0 s.latch.x1 s.latch.y1)
  simp only [beginMedge, apply_ite (State.withHost h)]
  rw [show (State.complete (burn (midpointEdge (s.withHost h).latch.x0 (s.withHost h).latch.y0
      (s.withHost h).latch.x1 (s.withHost h).latch.y1) (s.withHost h))) =
      (State.complete (burn (midpointEdge s.latch.x0 s.latch.y0 s.latch.x1 s.latch.y1) s)).withHost h from
    congrArg State.complete hb]
  rfl

theorem beginFill_withHost : beginFill (s.withHost h) = (beginFill s).withHost h := by
  simp only [beginFill, startFill, apply_ite (State.withHost h)]
  rfl

theorem begin_withHost (i : Instr) : begin i (s.withHost h) = (begin i s).withHost h := by
  cases i with
  | nop => rfl
  | plot cov =>
    simp only [begin, beginPlot, apply_ite (State.withHost h)]
    rfl
  | line =>
    simp only [begin, beginLine, apply_ite (State.withHost h)]
    rfl
  | mbegin => exact beginMbegin_withHost h s
  | medge => exact beginMedge_withHost h s
  | fill => exact beginFill_withHost h s

theorem firstStep_withHost : firstStep (s.withHost h) = (firstStep s).withHost h := by
  have hc : (s.withHost h).latch.cmd = s.latch.cmd := rfl
  unfold firstStep
  rw [hc]
  cases decode s.latch.cmd with
  | error e => rfl
  | ok i => exact begin_withHost h s i

theorem paintThen_withHost (lx ly : Nat) (k : Cont) :
    paintThen lx ly k (s.withHost h) = (paintThen lx ly k s).withHost h := by
  simp only [paintThen, apply_ite (State.withHost h)]
  rfl

theorem stepPop_withHost : stepPop (s.withHost h) = (stepPop s).withHost h := by
  have hs : (s.withHost h).seeds = s.seeds := rfl
  unfold stepPop
  rw [hs]
  cases s.seeds with
  | nil => rfl
  | cons q rest =>
    simp only [apply_ite (State.withHost h)]
    rfl

theorem stepRight_withHost (x y e : Nat) : stepRight x y e (s.withHost h) = (stepRight x y e s).withHost h := by
  simp only [stepRight, apply_ite (State.withHost h), ← paintThen_withHost]
  rfl

theorem stepLeft_withHost (y lo e : Nat) : stepLeft y lo e (s.withHost h) = (stepLeft y lo e s).withHost h := by
  cases lo with
  | zero => rfl
  | succ w =>
    simp only [stepLeft, apply_ite (State.withHost h), ← paintThen_withHost]
    rfl

/-- The row helpers' answers, with another host's side. -/
def withHostRow (r : Option (State × Bool)) : Option (State × Bool) := r.map fun t => (t.1.withHost h, t.2)

theorem seedRow_withHost (c y : Nat) (l : Bool) :
    seedRow c y l (s.withHost h) = withHostRow h (seedRow c y l s) := by
  have hm : (s.withHost h).mask c y = s.mask c y := rfl
  have hl : (s.withHost h).seeds.length < (s.withHost h).cfg.seedDepth ↔ s.seeds.length < s.cfg.seedDepth := Iff.rfl
  unfold seedRow State.push?
  rw [hm]
  cases s.mask c y
  · cases l
    · by_cases hlt : s.seeds.length < s.cfg.seedDepth
      · simp only [hl, hlt, if_true, Option.map_some, Bool.false_eq_true, if_false, withHostRow]
        rfl
      · simp [hl, hlt, withHostRow]
    · rfl
  · rfl

theorem seedAbove_withHost (c y : Nat) (l : Bool) :
    seedAbove c y l (s.withHost h) = withHostRow h (seedAbove c y l s) := by
  cases y with
  | zero => rfl
  | succ up => exact seedRow_withHost h s c up l

theorem seedBelow_withHost (c y : Nat) (l : Bool) :
    seedBelow c y l (s.withHost h) = withHostRow h (seedBelow c y l s) := by
  have hm : (s.withHost h).maskHeight = s.maskHeight := rfl
  unfold seedBelow
  rw [hm, seedRow_withHost]
  split <;> rfl

theorem stepRows_withHost (y c e : Nat) (la lb : Bool) :
    stepRows y c e la lb (s.withHost h) = (stepRows y c e la lb s).withHost h := by
  unfold stepRows
  rw [seedAbove_withHost]
  by_cases hc : c < e
  · simp only [hc, if_true]
    cases ha : seedAbove c y la s with
    | none => rfl
    | some r =>
      obtain ⟨s1, la1⟩ := r
      show (match seedBelow c y lb (s1.withHost h) with
        | none => seedOverflow (s1.withHost h)
        | some (s2, lb1) => s2.goto (.fill (.rows y (c + 1) e la1 lb1))) = _
      rw [seedBelow_withHost]
      cases hb : seedBelow c y lb s1 with
      | none => simp only [hb]; rfl
      | some r => simp only [hb]; rfl
  · simp only [hc, if_false]
    rfl

/-- The engine does not see the host's side (10_state.md R43). -/
theorem engineStep_withHost : engineStep (s.withHost h) = (engineStep s).withHost h := by
  have hp : (s.withHost h).progress = s.progress := rfl
  unfold engineStep
  rw [hp]
  cases s.progress with
  | idle => rfl
  | running k =>
    cases k with
    | start => exact firstStep_withHost h s
    | plots ps => exact stepPlots_withHost h s ps
    | blendWrite a v rest => exact stepBlendWrite_withHost h s a v rest
    | fill p =>
      cases p with
      | pop => exact stepPop_withHost h s
      | right x y e => exact stepRight_withHost h s x y e
      | left y lo e => exact stepLeft_withHost h s y lo e
      | rows y c e la lb => exact stepRows_withHost h s y c e la lb

theorem runEngine_withHost (n : Nat) : runEngine n (s.withHost h) = (runEngine n s).withHost h := by
  induction n generalizing s with
  | zero => rfl
  | succ n ih => rw [runEngine_succ, runEngine_succ, engineStep_withHost, ih]

theorem finish_withHost : finish (s.withHost h) = (finish s).withHost h := runEngine_withHost h s _

/-- A whole command does not see the host's side either. -/
theorem exec_withHost (i : Instr) {t : State} (ht : exec i s = .next t) :
    exec i (s.withHost h) = .next (t.withHost h) := by
  rw [exec_eq, Host.Outcome.next.injEq] at ht
  rw [exec_eq, begin_withHost, finish_withHost, ht]

/-- An engine step leaves the host's side as it was. -/
theorem engineStep_host : (engineStep s).host = s.host := by
  have e := engineStep_withHost s.host s
  rw [State.withHost_host] at e
  rw [e]
  rfl

theorem begin_host (i : Instr) : (begin i s).host = s.host := by
  have e := begin_withHost s.host s i
  rw [State.withHost_host] at e
  rw [e]
  rfl

/-- A whole command leaves the host's side as it was. -/
theorem exec_host (i : Instr) {t : State} (ht : exec i s = .next t) : t.host = s.host := by
  have e := exec_withHost s.host s i ht
  rw [State.withHost_host, ht, Host.Outcome.next.injEq] at e
  rw [e]
  rfl

/-- Any number of engine steps leaves the host's side as it was. -/
theorem runEngine_host (n : Nat) : (runEngine n s).host = s.host := by
  induction n generalizing s with
  | zero => rfl
  | succ n ih => rw [runEngine_succ, ih, engineStep_host]

/-! The moves still to be made do not reach the engine. -/

theorem engineStep_events (e : List Event) :
    engineStep { s with events := e } = { engineStep s with events := e } := by
  have h1 := engineStep_withHost { s.host with events := e } s
  rw [show State.withHost { s.host with events := e } (engineStep s) = { engineStep s with events := e } by
    rw [← engineStep_host s]; rfl] at h1
  exact h1

theorem begin_events (i : Instr) (e : List Event) :
    begin i { s with events := e } = { begin i s with events := e } := by
  have h1 := begin_withHost { s.host with events := e } s i
  rw [show State.withHost { s.host with events := e } (begin i s) = { begin i s with events := e } by
    rw [← begin_host s i]; rfl] at h1
  exact h1

end Sys2Proof.Machine
end

