-- ==== Sys2Proof/Laws/Commands.lean ====
section
/-! SUPPORT. How each command can end: one lemma per command, which says all its ends, and the accesses of plots. -/

namespace Sys2Proof.Machine

/-! ### Plots -/

/-- A list of plots either completes, or ends at its first refused plot. -/
theorem finish_plots_cases (ps : List Plot) (s : State) :
    ((∀ p ∈ ps, s.admitsPlot p = true) ∧ finish (s.goto (.plots ps)) = (State.plottedAll ps s).complete) ∨
    ∃ before p after, ps = before ++ p :: after ∧ (∀ q ∈ before, s.admitsPlot q = true) ∧ s.touches p = true ∧
      s.admitsPixel (s.plotAddr p) = false ∧
      finish (s.goto (.plots ps)) = State.busError (s.plotAddr p) (State.plottedAll before s) := by
  rcases State.plots_split s ps with h | ⟨b, p, a, rfl, h1, h2⟩
  · exact .inl ⟨h, finish_plots ps s h⟩
  · have h3 := h2
    simp only [State.admitsPlot, Bool.or_eq_false_iff, Bool.not_eq_false'] at h3
    exact .inr ⟨b, p, a, rfl, h1, h3.1, h3.2, finish_refused b a p s h1 h2⟩

/-- A plot makes at most two accesses. -/
theorem State.plotted_trace (p : Plot) (s : State) :
    ∃ made, (State.plotted p s).trace = made ++ s.trace ∧ made.length ≤ 2 := by
  unfold State.plotted
  split
  · exact ⟨[], rfl, by simp⟩
  · split
    · exact ⟨[_], rfl, by simp⟩
    · exact ⟨[_, _], rfl, by simp⟩

theorem State.plottedAll_trace (ps : List Plot) (s : State) :
    ∃ made, (State.plottedAll ps s).trace = made ++ s.trace ∧ made.length ≤ 2 * ps.length := by
  induction ps generalizing s with
  | nil => exact ⟨[], rfl, by simp⟩
  | cons p ps ih =>
    obtain ⟨m1, h1, l1⟩ := State.plotted_trace p s
    obtain ⟨m2, h2, l2⟩ := ih (State.plotted p s)
    refine ⟨m2 ++ m1, by rw [State.plottedAll_cons, h2, h1, List.append_assoc], ?_⟩
    rw [List.length_append, List.length_cons]
    omega

/-- A plot leaves every byte outside its container alone. -/
theorem State.plotted_read (p : Plot) (s : State) (b : Nat)
    (h : s.touches p = true → b ∉ bytesAt (s.plotAddr p) s.latch.fmt.bpp) :
    Memory.read (State.plotted p s).mem b = Memory.read s.mem b := by
  have hout : s.touches p = true → ∀ k < s.latch.fmt.bpp, b ≠ ((s.plotAddr p).toNat + k) % 2 ^ 32 :=
    fun ht k hk e => h ht (mem_bytesAt.2 ⟨k, hk, e⟩)
  unfold State.plotted
  cases ht : s.touches p
  · rfl
  · by_cases hc : 16 ≤ p.cov
    · simp only [Bool.not_true, Bool.false_eq_true, if_false, hc, if_true]
      exact read_storeLE_other _ _ _ _ _ (hout ht)
    · simp only [Bool.not_true, Bool.false_eq_true, if_false, hc]
      exact read_storeLE_other _ _ _ _ _ (hout ht)

theorem State.plottedAll_read (ps : List Plot) (s : State) (b : Nat)
    (h : ∀ p ∈ ps, s.touches p = true → b ∉ bytesAt (s.plotAddr p) s.latch.fmt.bpp) :
    Memory.read (State.plottedAll ps s).mem b = Memory.read s.mem b := by
  induction ps generalizing s with
  | nil => rfl
  | cons p ps ih =>
    rw [State.plottedAll_cons, ih (State.plotted p s), State.plotted_read p s b (h p (by simp))]
    intro q hq ht
    have hl := State.plotted_latch p s
    have ht' : s.touches q = true := by rw [State.touches, hl] at ht; exact ht
    have := h q (by simp [hq]) ht'
    rw [hl, State.plotAddr, hl]
    exact this

theorem linePlots_length (r : LineRound) (x0 y0 x1 y1 : Int) :
    (linePlots r x0 y0 x1 y1).length ≤ 2 * (max (x1 - x0).natAbs (y1 - y0).natAbs + 1) := by
  unfold linePlots
  split
  · unfold exactLine
    split <;> rw [List.length_map, length_intRange] <;> omega
  · unfold wuLine
    rw [List.length_flatMap]
    have : ∀ w a, (wuStep r w a).length = 2 := fun w a => rfl
    simp only [this, List.map_const', List.sum_replicate, length_intRange, smul_eq_mul]
    unfold wuSwap wuOrder isSteep
    split <;> simp only <;> split <;> simp only [decide_eq_true_eq] at * <;> omega

/-! ### The ends of each command -/

/-- `PLOT` ends with ALIGN, with its plot made, or with the bus error of its access. -/
theorem exec_plot_cases (cov : Nat) (s : State) :
    (s.latch.aligned = false ∧ exec (.plot cov) s = .next (s.raise .align)) ∨
    (s.latch.aligned = true ∧ s.admitsPlot (s.thePlot cov) = true ∧
      exec (.plot cov) s = .next (State.plotted (s.thePlot cov) s).complete) ∨
    (s.latch.aligned = true ∧ s.touches (s.thePlot cov) = true ∧
      s.admitsPixel (s.plotAddr (s.thePlot cov)) = false ∧
      exec (.plot cov) s = .next (s.busError (s.plotAddr (s.thePlot cov)))) := by
  rw [exec_eq]
  cases ha : s.latch.aligned
  · exact .inl ⟨rfl, by simp only [begin, beginPlot, ha, Bool.not_false, if_true]; rw [finish_idle rfl]⟩
  · have hb : begin (.plot cov) s = s.goto (.plots [s.thePlot cov]) := by
      simp only [begin, beginPlot, ha, Bool.not_true, Bool.false_eq_true, if_false]
      rfl
    rw [hb]
    refine .inr ?_
    rcases finish_plots_cases [s.thePlot cov] s with ⟨hadm, h⟩ | ⟨b, p, a, hps, -, h1, h2, h⟩
    · exact .inl ⟨rfl, hadm _ (by simp), by rw [h]; rfl⟩
    · cases b with
      | nil =>
        obtain ⟨rfl, -⟩ := List.cons.inj hps
        exact .inr ⟨rfl, h1, h2, by rw [h]; rfl⟩
      | cons q b => simp at hps

/-- `LINE` ends with ALIGN, with its plots made, or with the bus error of its first refused plot. -/
theorem exec_line_cases (s : State) :
    (s.latch.aligned = false ∧ exec .line s = .next (s.raise .align)) ∨
    (s.latch.aligned = true ∧ (∀ p ∈ s.theLine, s.admitsPlot p = true) ∧
      exec .line s = .next (State.plottedAll s.theLine s).complete) ∨
    (s.latch.aligned = true ∧ ∃ before p after, s.theLine = before ++ p :: after ∧
      (∀ q ∈ before, s.admitsPlot q = true) ∧ s.touches p = true ∧ s.admitsPixel (s.plotAddr p) = false ∧
      exec .line s = .next (State.busError (s.plotAddr p) (State.plottedAll before s))) := by
  rw [exec_eq]
  cases ha : s.latch.aligned
  · exact .inl ⟨rfl, by simp only [begin, beginLine, ha, Bool.not_false, if_true]; rw [finish_idle rfl]⟩
  · have hb : begin .line s = s.goto (.plots s.theLine) := by
      simp only [begin, beginLine, ha, Bool.not_true, Bool.false_eq_true, if_false]
      rfl
    rw [hb]
    refine .inr ?_
    rcases finish_plots_cases s.theLine s with ⟨hadm, h⟩ | ⟨b, p, a, hps, h0, h1, h2, h⟩
    · exact .inl ⟨rfl, hadm, by rw [h]⟩
    · exact .inr ⟨rfl, b, p, a, hps, h0, h1, h2, by rw [h]⟩

/-- `MBEGIN` ends with BBOX_INVALID, with MASK_OVERFLOW, or with its new mask. -/
theorem exec_mbegin_cases (s : State) :
    ((s.latch.x1 < s.latch.x0 ∨ s.latch.y1 < s.latch.y0) ∧ exec .mbegin s = .next (failBegin .bboxInvalid s)) ∨
    (s.latch.x0 ≤ s.latch.x1 ∧ s.latch.y0 ≤ s.latch.y1 ∧
      s.cfg.maskBytes < boxBytes s.latch.x0 s.latch.y0 s.latch.x1 s.latch.y1 ∧
      exec .mbegin s = .next (failBegin .maskOverflow s)) ∨
    (s.latch.x0 ≤ s.latch.x1 ∧ s.latch.y0 ≤ s.latch.y1 ∧
      boxBytes s.latch.x0 s.latch.y0 s.latch.x1 s.latch.y1 ≤ s.cfg.maskBytes ∧
      exec .mbegin s = .next (newMask s).complete) := by
  rw [exec_eq]
  simp only [begin, beginMbegin]
  by_cases h1 : s.latch.x1 < s.latch.x0 ∨ s.latch.y1 < s.latch.y0
  · exact .inl ⟨h1, by rw [if_pos h1, finish_idle rfl]⟩
  · by_cases h2 : s.cfg.maskBytes < boxBytes s.latch.x0 s.latch.y0 s.latch.x1 s.latch.y1
    · exact .inr (.inl ⟨by omega, by omega, h2, by rw [if_neg h1, if_pos h2, finish_idle rfl]⟩)
    · exact .inr (.inr ⟨by omega, by omega, by omega, by rw [if_neg h1, if_neg h2, finish_idle rfl]⟩)

/-- `MEDGE` ends with NO_MASK, or with its edge burned. -/
theorem exec_medge_cases (s : State) :
    (s.status.maskValid = false ∧ exec .medge s = .next (s.raise .noMask)) ∨
    (s.status.maskValid = true ∧ exec .medge s = .next (burn s.theEdge s).complete) := by
  rw [exec_eq]
  simp only [begin, beginMedge]
  cases h : s.status.maskValid
  · exact .inl ⟨rfl, by simp only [Bool.not_false, if_true]; rw [finish_idle rfl]⟩
  · refine .inr ⟨rfl, ?_⟩
    simp only [Bool.not_true, Bool.false_eq_true, if_false]
    rw [finish_idle rfl]
    rfl

/-- `FILL` ends with NO_MASK, with ALIGN, at once when no domain pixel is its seed, or at an end of its loop. -/
theorem exec_fill_cases (s : State) :
    (s.status.maskValid = false ∧ exec .fill s = .next (s.raise .noMask)) ∨
    (s.status.maskValid = true ∧ s.latch.aligned = false ∧ exec .fill s = .next (s.raise .align)) ∨
    (s.status.maskValid = true ∧ s.latch.aligned = true ∧
      (¬∃ x y : Nat, s.inMask x y = true ∧ s.minX + x = s.latch.x0 ∧ s.minY + y = s.latch.y0) ∧
      exec .fill s = .next (State.endFill { s with seeds := [] }).complete) ∨
    (s.status.maskValid = true ∧ s.latch.aligned = true ∧ ∃ t, exec .fill s = .next t ∧ s.FillEnd t) := by
  rw [exec_eq]
  simp only [begin, beginFill]
  cases hv : s.status.maskValid
  · exact .inl ⟨rfl, by simp only [Bool.not_false, if_true]; rw [finish_idle rfl]⟩
  · cases ha : s.latch.aligned
    · refine .inr (.inl ⟨rfl, rfl, ?_⟩)
      simp only [Bool.not_true, Bool.false_eq_true, if_false, Bool.not_false, if_true]
      rw [finish_idle rfl]
    · simp only [Bool.not_true, Bool.false_eq_true, if_false]
      refine .inr (.inr ?_)
      rcases finish_startFill ha with ⟨h1, h2⟩ | h
      · exact .inl ⟨trivial, trivial, h1, by rw [h2]⟩
      · exact .inr ⟨trivial, trivial, _, rfl, h⟩

/-! ### Accesses of the engine's first steps and of the fill's rows -/

/-- No first step of a command makes an access. -/
theorem begin_bus (i : Instr) (s : State) : (begin i s).trace = s.trace ∧ (begin i s).mem = s.mem := by
  cases i with
  | nop => exact ⟨rfl, rfl⟩
  | plot c => simp only [begin, beginPlot]; split <;> exact ⟨rfl, rfl⟩
  | line => simp only [begin, beginLine]; split <;> exact ⟨rfl, rfl⟩
  | mbegin =>
    simp only [begin, beginMbegin]
    split
    · exact ⟨rfl, rfl⟩
    · split <;> exact ⟨rfl, rfl⟩
  | medge =>
    simp only [begin, beginMedge]
    split
    · exact ⟨rfl, rfl⟩
    · obtain ⟨r, h⟩ := burn_frame (midpointEdge s.latch.x0 s.latch.y0 s.latch.x1 s.latch.y1) s
      rw [h]
      exact ⟨rfl, rfl⟩
  | fill =>
    simp only [begin, beginFill]
    split
    · exact ⟨rfl, rfl⟩
    · split
      · exact ⟨rfl, rfl⟩
      · unfold startFill
        split <;> exact ⟨rfl, rfl⟩

/-- A paint makes no access, or one admitted write. -/
theorem paintThen_access (lx ly : Nat) (k : Cont) (s : State) :
    ((paintThen lx ly k s).trace = s.trace ∧ (paintThen lx ly k s).mem = s.mem) ∨
    (∃ a v, s.admitsPixel a = true ∧ (paintThen lx ly k s).mem = storeLE s.mem a.toNat v s.latch.fmt.bpp ∧
      (paintThen lx ly k s).trace = { kind := .write, addr := a, size := s.latch.fmt.bpp } :: s.trace) := by
  unfold paintThen
  split
  · exact .inl ⟨rfl, rfl⟩
  · split
    · exact .inl ⟨rfl, rfl⟩
    · next h => exact .inr ⟨_, _, by simpa using h, rfl, rfl⟩

/-- Looking at a row changes the seed store only, by at most the column's own pixel, within the store's capacity. -/
theorem seedRow_frame {c y : Nat} {l l' : Bool} {s t : State} (h : seedRow c y l s = some (t, l')) :
    ∃ new, t = s.moreSeeds new ∧ (∀ q ∈ new, q = (c, y)) ∧ new.length ≤ 1 ∧ (s.SeedsFit → t.SeedsFit) := by
  unfold seedRow State.push? at h
  split at h
  · obtain ⟨rfl, -⟩ := Prod.mk.inj (Option.some.inj h)
    exact ⟨[], rfl, by simp, by simp, id⟩
  · split at h
    · obtain ⟨rfl, -⟩ := Prod.mk.inj (Option.some.inj h)
      exact ⟨[], rfl, by simp, by simp, id⟩
    · split at h
      · next hlt =>
        obtain ⟨rfl, -⟩ := Prod.mk.inj (Option.some.inj h)
        exact ⟨[(c, y)], rfl, by simp, by simp, fun _ => hlt⟩
      · exact absurd h (by simp)

theorem seedAbove_frame {c y : Nat} {l l' : Bool} {s t : State} (h : seedAbove c y l s = some (t, l')) :
    ∃ new, t = s.moreSeeds new ∧ (∀ q ∈ new, q.1 = c ∧ q.2 < y) ∧ new.length ≤ 1 ∧ (s.SeedsFit → t.SeedsFit) := by
  unfold seedAbove at h
  split at h
  · obtain ⟨rfl, -⟩ := Prod.mk.inj (Option.some.inj h)
    exact ⟨[], rfl, by simp, by simp, id⟩
  · obtain ⟨new, h1, h2, hl, h3⟩ := seedRow_frame h
    refine ⟨new, h1, fun q hq => ?_, hl, h3⟩
    rw [h2 q hq]
    exact ⟨rfl, Nat.lt_succ_self _⟩

theorem seedBelow_frame {c y : Nat} {l l' : Bool} {s t : State} (h : seedBelow c y l s = some (t, l')) :
    ∃ new, t = s.moreSeeds new ∧ (∀ q ∈ new, q.1 = c ∧ q.2 < s.maskHeight) ∧ new.length ≤ 1 ∧
      (s.SeedsFit → t.SeedsFit) := by
  unfold seedBelow at h
  split at h
  · next hlt =>
    obtain ⟨new, h1, h2, hl, h3⟩ := seedRow_frame h
    refine ⟨new, h1, fun q hq => ?_, hl, h3⟩
    rw [h2 q hq]
    exact ⟨rfl, hlt⟩
  · obtain ⟨rfl, -⟩ := Prod.mk.inj (Option.some.inj h)
    exact ⟨[], rfl, by simp, by simp, id⟩

/-- One column of step 4 pushes seeds of that column, inside the domain and the store's capacity, or ends the fill
with an overflow; past the last column the loop goes back to its head. -/
theorem stepRows_frame (y c e : Nat) (la lb : Bool) (s : State) :
    (e ≤ c ∧ stepRows y c e la lb s = s.goto (.fill .pop)) ∨
    (c < e ∧ ∃ new : List Seed, (∀ q ∈ new, q.1 = c ∧ (q.2 < y ∨ q.2 < s.maskHeight)) ∧ new.length ≤ 2 ∧
      (s.SeedsFit → (s.moreSeeds new).SeedsFit) ∧
      ((∃ la' lb', stepRows y c e la lb s = (s.moreSeeds new).goto (.fill (.rows y (c + 1) e la' lb'))) ∨
        stepRows y c e la lb s = seedOverflow (s.moreSeeds new))) := by
  unfold stepRows
  split
  · next hlt =>
    refine .inr ⟨hlt, ?_⟩
    split
    · exact ⟨[], by simp, by simp, id, .inr rfl⟩
    · next s1 la1 h1 =>
      obtain ⟨n1, rfl, hq1, hl1, hf1⟩ := seedAbove_frame h1
      split
      · exact ⟨n1, fun q hq => ⟨(hq1 q hq).1, .inl (hq1 q hq).2⟩, by omega, hf1, .inr rfl⟩
      · next s2 lb1 h2 =>
        obtain ⟨n2, rfl, hq2, hl2, hf2⟩ := seedBelow_frame h2
        have e : State.moreSeeds n2 (State.moreSeeds n1 s) = s.moreSeeds (n2 ++ n1) := by simp [State.moreSeeds]
        refine ⟨n2 ++ n1, fun q hq => ?_, by rw [List.length_append]; omega, fun hs => by rw [← e]; exact hf2 (hf1 hs),
          .inl ⟨la1, lb1, by rw [e]⟩⟩
        rcases List.mem_append.1 hq with hq | hq
        · exact ⟨(hq2 q hq).1, .inr (hq2 q hq).2⟩
        · exact ⟨(hq1 q hq).1, .inl (hq1 q hq).2⟩
  · next hge => exact .inl ⟨by omega, rfl⟩

end Sys2Proof.Machine
end

