-- ==== Sys2Proof/Laws/Decode.lean ====
section
/-! SUPPORT. Laws of decoding and encoding: a word as its fields, what a decoded word looks like, and the mask of
the one row with an operand. -/

namespace Sys2Proof

@[simp] theorem Instr.wellFormed_nop : Instr.nop.WellFormed := rfl
@[simp] theorem Instr.wellFormed_plot {cov : Nat} : (Instr.plot cov).WellFormed ↔ cov < 32 := by
  simp [Instr.WellFormed, Instr.wellFormed]
@[simp] theorem Instr.wellFormed_line : Instr.line.WellFormed := rfl
@[simp] theorem Instr.wellFormed_mbegin : Instr.mbegin.WellFormed := rfl
@[simp] theorem Instr.wellFormed_medge : Instr.medge.WellFormed := rfl
@[simp] theorem Instr.wellFormed_fill : Instr.fill.WellFormed := rfl

/-- A command word is its fields OP, COV and RSV (30_encoding.md R90). -/
theorem word_eq_fields (w : Word) : w.toNat = field w 0 4 + 16 * field w 4 5 + 512 * field w 9 23 := by
  have := w.isLt
  unfold field
  omega

/-- The bytes of a word make the word again. -/
theorem wordOfBytes_bytesOfWord (w : Word) :
    wordOfBytes (BitVec.ofNat 8 (field w 0 8)) (BitVec.ofNat 8 (field w 8 8)) (BitVec.ofNat 8 (field w 16 8))
      (BitVec.ofNat 8 (field w 24 8)) = w := by
  apply BitVec.eq_of_toNat_eq
  have := w.isLt
  simp only [wordOfBytes, field, BitVec.toNat_ofNat]
  omega

/-- What a word must be like to decode, and to what (30_encoding.md R94). -/
theorem decode_eq_ok_iff {w : Word} {i : Instr} :
    decode w = .ok i ↔ field w 0 4 < 6 ∧ field w 9 23 = 0 ∧ (field w 0 4 = 1 ∨ field w 4 5 = 0) ∧
      i = ofOpcode (field w 0 4) (field w 4 5) := by
  unfold decode
  split
  · constructor
    · intro h
      cases h
    · rintro ⟨h, -⟩
      omega
  · split
    · constructor
      · intro h
        cases h
      · rintro ⟨-, h, -⟩
        contradiction
    · split
      · next h =>
        constructor
        · intro h'
          cases h'
        · rintro ⟨-, -, h', -⟩
          omega
      · next h6 h9 h4 =>
        rw [Except.ok.injEq]
        constructor
        · rintro rfl
          exact ⟨by omega, by simpa using h9, by omega, rfl⟩
        · rintro ⟨-, -, -, rfl⟩
          rfl

/-- The opcodes of the map are below 6 (30_encoding.md R92). -/
theorem opcode_lt (i : Instr) : opcode i < 6 := by cases i <;> simp [opcode]

/-- The fields of an encoded command. -/
theorem fields_encode (i : Instr) (h : i.WellFormed) :
    field (encode i) 0 4 = opcode i ∧ field (encode i) 4 5 = coverageField i ∧ field (encode i) 9 23 = 0 := by
  have hc : coverageField i < 32 := by cases i <;> simp_all [coverageField]
  have ho := opcode_lt i
  simp only [encode, field, BitVec.toNat_ofNat]
  omega

/-- The full mask keeps a word (30_encoding.md R93). -/
theorem and_fullMask (w : Word) : w &&& 0xFFFFFFFF = w := by
  apply BitVec.eq_of_toNat_eq
  have := w.isLt
  rw [BitVec.toNat_and, show (0xFFFFFFFF : Word).toNat = 2 ^ 32 - 1 from rfl, Nat.and_two_pow_sub_one_eq_mod]
  omega

/-- `PLOT`'s mask keeps OP and RSV and drops COV (30_encoding.md R93). -/
theorem and_plotMask (w : Word) :
    w &&& 0xFFFFFE0F = 0x00000001 ↔ field w 0 4 = 1 ∧ field w 9 23 = 0 := by
  have hw := w.isLt
  have hdiv : (w &&& 0xFFFFFE0F).toNat / 2 ^ 9 = w.toNat / 2 ^ 9 := by
    rw [BitVec.toNat_and, Nat.and_div_two_pow, show (0xFFFFFE0F : Word).toNat / 2 ^ 9 = 2 ^ 23 - 1 from rfl,
      Nat.and_two_pow_sub_one_eq_mod]
    omega
  have hmod : (w &&& 0xFFFFFE0F).toNat % 2 ^ 9 = w.toNat % 2 ^ 4 := by
    rw [BitVec.toNat_and, Nat.and_mod_two_pow, show (0xFFFFFE0F : Word).toNat % 2 ^ 9 = 2 ^ 4 - 1 from rfl,
      Nat.and_two_pow_sub_one_eq_mod]
    omega
  rw [← BitVec.toNat_inj, show (0x00000001 : Word).toNat = 1 from rfl]
  unfold field
  omega

end Sys2Proof
end

