-- ==== Sys2Proof/Laws/Line.lean ====
section
/-! SUPPORT. Laws of the Wu line's axes and of its plots (42_line.md R163 to R166). -/

namespace Sys2Proof.Machine

theorem wuSwap_flat {x0 y0 x1 y1 : Int} (h : (y1 - y0).natAbs ≤ (x1 - x0).natAbs) :
    wuSwap x0 y0 x1 y1 = { steep := false, a0 := x0, b0 := y0, a1 := x1, b1 := y1 } := by
  unfold wuSwap isSteep
  rw [if_neg (by simpa using h)]

theorem wuSwap_steep {x0 y0 x1 y1 : Int} (h : (x1 - x0).natAbs < (y1 - y0).natAbs) :
    wuSwap x0 y0 x1 y1 = { steep := true, a0 := y0, b0 := x0, a1 := y1, b1 := x1 } := by
  unfold wuSwap isSteep
  rw [if_pos (by simpa using h)]

/-- Step 2 keeps the axes and puts the major endpoints in order. -/
theorem wuOrder_spec (w : WuAxes) :
    (wuOrder w).steep = w.steep ∧ (wuOrder w).a0 = min w.a0 w.a1 ∧ (wuOrder w).a1 = max w.a0 w.a1 := by
  unfold wuOrder
  split
  · exact ⟨rfl, by simp only; omega, by simp only; omega⟩
  · exact ⟨rfl, by omega, by omega⟩

/-- The major and minor coordinate of a Wu plot. -/
theorem wuPlot_coords (w : WuAxes) (a b : Int) (cov : Nat) :
    (w.steep = true ∧ wuPlot w a b cov = { x := b, y := a, cov := cov }) ∨
    (w.steep = false ∧ wuPlot w a b cov = { x := a, y := b, cov := cov }) := by
  unfold wuPlot
  cases w.steep
  · exact .inr ⟨rfl, rfl⟩
  · exact .inl ⟨rfl, rfl⟩

end Sys2Proof.Machine
end

