-- ==== Sys2Proof/Laws/PerInstr.lean ====
section
/-! SUPPORT. A property of each command as syntax, one lemma for each constructor: its word lies in its own row of the
encoding table (30_encoding.md R93). -/

namespace Sys2Proof.Laws.Row

open Sys2Proof

/-- The command's word matches the command's row. -/
def Statement (i : Instr) : Prop := i.WellFormed → encode i &&& rowMask i = rowMatch i

theorem nop : Statement .nop := fun _ => by decide

theorem plot (cov : Nat) : Statement (.plot cov) := by
  intro h
  obtain ⟨h1, -, h3⟩ := fields_encode _ h
  exact (and_plotMask _).2 ⟨h1, h3⟩

theorem line : Statement .line := fun _ => by decide

theorem mbegin : Statement .mbegin := fun _ => by decide

theorem medge : Statement .medge := fun _ => by decide

theorem fill : Statement .fill := fun _ => by decide

end Sys2Proof.Laws.Row
end

