-- ==== Sys2Proof/Laws/Termination.lean ====
section
/-! SUPPORT. Every command ends: a measure that each engine step lowers, from any point inside a command, and so the
engine's budget always suffices (40_control.md R127, 44_flood_fill.md R209). -/

namespace Sys2Proof.Machine

/-- Steps a command may still take. -/
def State.fuel (u : State) : Nat :=
  match u.progress with
  | .idle => 0
  | .running .start => 0
  | .running (.plots ps) => 2 * ps.length + 1
  | .running (.blendWrite _ _ rest) => 2 * rest.length + 2
  | .running (.fill p) => u.fillFuel p + 1

/-- A command that has had its first step, with a running fill inside its domain. -/
def State.Begun (u : State) : Prop := u.fillInDomain = true ∧ u.progress ≠ .running .start

theorem State.fuel_le_budget {u : State} (h : u.Begun) : u.fuel ≤ budget u := by
  have hu := u.unsetCount_le
  unfold State.fuel budget contBudget
  cases hp : u.progress with
  | idle => exact le_refl _
  | running k =>
    cases k with
    | start => exact absurd hp h.2
    | plots ps => exact le_refl _
    | blendWrite a v rest => exact le_refl _
    | fill p =>
      simp only [State.fillFuel]
      omega

theorem State.begun_of_idle {u : State} (h : u.progress = .idle) : u.Begun :=
  ⟨by rw [State.fillInDomain, h], by rw [h]; simp⟩

theorem State.begun_plots (ps : List Plot) (u : State) : (u.goto (.plots ps)).Begun :=
  ⟨rfl, by simp [State.goto]⟩

/-- A fill's next position, inside the domain. -/
theorem State.begun_fill {u : State} {p : FillPos} (hv : u.status.maskValid = true)
    (hp : p.inDomain u.maskWidth u.maskHeight = true) (hs : ∀ q ∈ u.seeds, u.inMask q.1 q.2 = true) :
    (u.goto (.fill p)).Begun := by
  refine ⟨?_, by simp [State.goto]⟩
  show (u.status.maskValid && p.inDomain u.maskWidth u.maskHeight && u.seeds.all fun q => u.inMask q.1 q.2) = true
  rw [hv, hp, Bool.true_and, Bool.true_and, List.all_eq_true]
  exact hs

/-- A paint of an unset domain pixel lowers the measure by enough for one more column of step 4. -/
theorem paintThen_fuel {u : State} {x y : Nat} {p : FillPos} (hv : u.status.maskValid = true)
    (hx : x < u.maskWidth) (hy : y < u.maskHeight) (hm : u.mask x y = false)
    (hp : p.inDomain u.maskWidth u.maskHeight = true) (hs : ∀ q ∈ u.seeds, u.inMask q.1 q.2 = true) :
    (paintThen x y (.fill p) (u.mark x y)).Begun ∧
      (paintThen x y (.fill p) (u.mark x y)).fuel ≤
        12 * (u.unsetCount - 1) + 5 * u.seeds.length + posBudget p + 1 := by
  have hc := State.unsetCount_mark hx hy hm
  have hval : (u.mark x y).status.maskValid = true := hv
  unfold paintThen
  split
  · refine ⟨State.begun_fill hval hp hs, ?_⟩
    show 12 * (u.mark x y).unsetCount + 5 * u.seeds.length + posBudget p + 1 ≤ _
    omega
  · split
    · exact ⟨State.begun_of_idle rfl, Nat.zero_le _⟩
    · refine ⟨State.begun_fill (u := (u.mark x y).writePixel _ _) hval hp hs, ?_⟩
      show 12 * (u.mark x y).unsetCount + 5 * u.seeds.length + posBudget p + 1 ≤ _
      omega

/-- One step of a running fill lowers the measure. -/
theorem stepFill_fuel {u : State} {p : FillPos} (hv : u.status.maskValid = true)
    (hp : p.inDomain u.maskWidth u.maskHeight = true) (hs : ∀ q ∈ u.seeds, u.inMask q.1 q.2 = true) :
    (stepFill p u).Begun ∧ (stepFill p u).fuel < u.fillFuel p + 1 := by
  cases p with
  | pop =>
    show (stepPop u).Begun ∧ (stepPop u).fuel < _
    unfold stepPop
    split
    · exact ⟨State.begun_of_idle rfl, Nat.succ_pos _⟩
    · next x y rest hse =>
      have hd := State.inMask_iff.1 (hs (x, y) (by simp [hse]))
      have hr : ∀ q ∈ rest, u.inMask q.1 q.2 = true := fun q hq => hs q (by simp [hse, hq])
      split
      · refine ⟨State.begun_fill (u := { u with seeds := rest }) hv rfl hr, ?_⟩
        show 12 * u.unsetCount + 5 * rest.length + 0 + 1 < 12 * u.unsetCount + 5 * u.seeds.length + 0 + 1
        rw [hse, List.length_cons]
        omega
      · refine ⟨State.begun_fill (u := { u with seeds := rest }) (p := .right x y x) hv ?_ hr, ?_⟩
        · show decide (x < u.maskWidth ∧ y < u.maskHeight ∧ x ≤ x ∧ x ≤ u.maskWidth) = true
          simp only at hd
          simp
          omega
        · show 12 * u.unsetCount + 5 * rest.length + (11 * (x - x) + 3) + 1 <
            12 * u.unsetCount + 5 * u.seeds.length + 0 + 1
          rw [hse, List.length_cons]
          omega
  | right x y e =>
    simp only [FillPos.inDomain, decide_eq_true_eq] at hp
    show (stepRight x y e u).Begun ∧ (stepRight x y e u).fuel < _
    unfold stepRight
    split
    · next h =>
      have hc := State.unsetCount_mark h.1 hp.2.1 h.2
      obtain ⟨h1, h2⟩ := paintThen_fuel (p := .right x y (e + 1)) hv h.1 hp.2.1 h.2
        (by simp only [FillPos.inDomain, decide_eq_true_eq]; omega) hs
      refine ⟨h1, lt_of_le_of_lt h2 ?_⟩
      simp only [State.fillFuel, posBudget]
      omega
    · refine ⟨State.begun_fill hv (by simp only [FillPos.inDomain, decide_eq_true_eq]; omega) hs, ?_⟩
      show 12 * u.unsetCount + 5 * u.seeds.length + (11 * (e - x) + 2) + 1 <
        12 * u.unsetCount + 5 * u.seeds.length + (11 * (e - x) + 3) + 1
      omega
  | left y lo e =>
    simp only [FillPos.inDomain, decide_eq_true_eq] at hp
    show (stepLeft y lo e u).Begun ∧ (stepLeft y lo e u).fuel < _
    unfold stepLeft
    split
    · refine ⟨State.begun_fill hv (by simp only [FillPos.inDomain, decide_eq_true_eq]; omega) hs, ?_⟩
      show 12 * u.unsetCount + 5 * u.seeds.length + (11 * (e - 0) + 1) + 1 <
        12 * u.unsetCount + 5 * u.seeds.length + (11 * (e - 0) + 2) + 1
      omega
    · next w =>
      split
      · next h =>
        have hx : w < u.maskWidth := by omega
        have hc := State.unsetCount_mark hx hp.1 h
        obtain ⟨h1, h2⟩ := paintThen_fuel (p := .left y w e) hv hx hp.1 h
          (by simp only [FillPos.inDomain, decide_eq_true_eq]; omega) hs
        refine ⟨h1, lt_of_le_of_lt h2 ?_⟩
        simp only [State.fillFuel, posBudget]
        omega
      · refine ⟨State.begun_fill hv (by simp only [FillPos.inDomain, decide_eq_true_eq]; omega) hs, ?_⟩
        show 12 * u.unsetCount + 5 * u.seeds.length + (11 * (e - (w + 1)) + 1) + 1 <
          12 * u.unsetCount + 5 * u.seeds.length + (11 * (e - (w + 1)) + 2) + 1
        omega
  | rows y c e la lb =>
    simp only [FillPos.inDomain, decide_eq_true_eq] at hp
    show (stepRows y c e la lb u).Begun ∧ (stepRows y c e la lb u).fuel < _
    rcases stepRows_frame y c e la lb u with ⟨hce, h'⟩ | ⟨hlt, new, hn, hlen, -, ⟨la', lb', h'⟩ | h'⟩ <;> rw [h']
    · refine ⟨State.begun_fill hv rfl hs, ?_⟩
      show 12 * u.unsetCount + 5 * u.seeds.length + 0 + 1 <
        12 * u.unsetCount + 5 * u.seeds.length + (11 * (e - c) + 1) + 1
      omega
    · refine ⟨State.begun_fill (u := u.moreSeeds new) hv ?_ fun q hq => ?_, ?_⟩
      · show decide (y < u.maskHeight ∧ c + 1 ≤ e ∧ e ≤ u.maskWidth) = true
        simp only [decide_eq_true_eq]
        omega
      · rcases List.mem_append.1 hq with hq | hq
        · have := hn q hq
          refine State.inMask_iff.2 ?_
          show q.1 < u.maskWidth ∧ q.2 < u.maskHeight
          omega
        · exact hs q hq
      · show 12 * u.unsetCount + 5 * (new ++ u.seeds).length + (11 * (e - (c + 1)) + 1) + 1 <
          12 * u.unsetCount + 5 * u.seeds.length + (11 * (e - c) + 1) + 1
        rw [List.length_append]
        omega
    · exact ⟨State.begun_of_idle rfl, Nat.succ_pos _⟩

/-- One engine step inside a command lowers the measure. -/
theorem engineStep_fuel {u : State} (h : u.Begun) :
    (engineStep u).Begun ∧ (u.progress = .idle ∨ (engineStep u).fuel < u.fuel) := by
  cases hp : u.progress with
  | idle => rw [engineStep_idle hp]; exact ⟨h, .inl rfl⟩
  | running k =>
    cases k with
    | start => exact absurd hp h.2
    | plots ps =>
      have he : engineStep u = stepPlots ps u := by rw [engineStep, hp]
      have hf : u.fuel = 2 * ps.length + 1 := by rw [State.fuel, hp]
      rw [he, hf]
      cases ps with
      | nil => exact ⟨State.begun_of_idle rfl, .inr (Nat.succ_pos _)⟩
      | cons p rest =>
        show (stepPlot p rest u).Begun ∧ (_ ∨ (stepPlot p rest u).fuel < _)
        rw [List.length_cons]
        rcases stepPlot_cases p rest u with ⟨-, e⟩ | ⟨-, -, e⟩ | ⟨-, -, -, e⟩ | ⟨-, -, -, e⟩ <;> rw [e]
        · refine ⟨State.begun_plots rest u, .inr ?_⟩
          show 2 * rest.length + 1 < _
          omega
        · exact ⟨State.begun_of_idle rfl, .inr (Nat.succ_pos _)⟩
        · refine ⟨State.begun_plots rest _, .inr ?_⟩
          show 2 * rest.length + 1 < _
          omega
        · refine ⟨⟨rfl, by simp [State.goto]⟩, .inr ?_⟩
          show 2 * rest.length + 2 < _
          omega
    | blendWrite a v rest =>
      have he : engineStep u = stepBlendWrite a v rest u := by rw [engineStep, hp]
      have hf : u.fuel = 2 * rest.length + 2 := by rw [State.fuel, hp]
      rw [he, hf]
      unfold stepBlendWrite
      split
      · refine ⟨State.begun_plots rest _, .inr ?_⟩
        show 2 * rest.length + 1 < _
        omega
      · exact ⟨State.begun_of_idle rfl, .inr (Nat.succ_pos _)⟩
    | fill p =>
      have he : engineStep u = stepFill p u := by rw [engineStep, hp]
      have hf : u.fuel = u.fillFuel p + 1 := by rw [State.fuel, hp]
      have hd := h.1
      rw [State.fillInDomain, hp] at hd
      simp only [Bool.and_eq_true, List.all_eq_true] at hd
      rw [he, hf]
      obtain ⟨h1, h2⟩ := stepFill_fuel hd.1.1 hd.1.2 hd.2
      exact ⟨h1, .inr h2⟩

/-- A begun command is over after as many steps as its measure. -/
theorem runEngine_fuel (n : Nat) {u : State} (h : u.Begun) (hn : u.fuel ≤ n) : (runEngine n u).progress = .idle := by
  induction n generalizing u with
  | zero =>
    have h0 : u.fuel = 0 := by omega
    unfold State.fuel at h0
    split at h0
    · next hp => exact hp
    · next hp => exact absurd hp h.2
    all_goals omega
  | succ n ih =>
    obtain ⟨h1, h2⟩ := engineStep_fuel h
    rw [runEngine_succ]
    rcases h2 with h2 | h2
    · rw [engineStep_idle h2, runEngine_idle n h2]
      exact h2
    · exact ih h1 (by omega)

/-- A begun command finishes. -/
theorem finish_progress {u : State} (h : u.Begun) : (finish u).progress = .idle :=
  runEngine_fuel _ h (State.fuel_le_budget h)

/-- Whatever steps come first, a begun command finishes in the same state. -/
theorem finish_engineStep {u : State} (h : u.Begun) : finish (engineStep u) = finish u := by
  have h1 := finish_progress h
  have h2 := finish_progress (engineStep_fuel h).1
  have e : finish (engineStep u) = runEngine (budget (engineStep u) + 1) u := by rw [runEngine_succ]; rfl
  rw [e] at h2 ⊢
  rcases Nat.le_total (budget (engineStep u) + 1) (budget u) with hle | hle
  · exact (runEngine_of_idle h2 hle).symm
  · exact runEngine_of_idle h1 hle

/-- The first step of a command leaves it begun. -/
theorem begin_begun (i : Instr) (s : State) : (begin i s).Begun := by
  cases i with
  | nop => exact State.begun_of_idle rfl
  | plot c =>
    simp only [begin, beginPlot]
    split
    · exact State.begun_of_idle rfl
    · exact State.begun_plots _ s
  | line =>
    simp only [begin, beginLine]
    split
    · exact State.begun_of_idle rfl
    · exact State.begun_plots _ s
  | mbegin =>
    simp only [begin, beginMbegin]
    split
    · exact State.begun_of_idle rfl
    · split <;> exact State.begun_of_idle rfl
  | medge =>
    simp only [begin, beginMedge]
    split <;> exact State.begun_of_idle rfl
  | fill =>
    simp only [begin, beginFill]
    split
    · exact State.begun_of_idle rfl
    · split
      · exact State.begun_of_idle rfl
      · next hv _ =>
        unfold startFill
        split
        · next h =>
          refine State.begun_fill (by simpa using hv) rfl fun q hq => ?_
          have hq : q ∈ [((s.latch.x0 - s.minX).toNat, (s.latch.y0 - s.minY).toNat)] := hq
          rw [List.mem_singleton] at hq
          subst hq
          refine State.inMask_iff.2 ?_
          show (s.latch.x0 - s.minX).toNat < s.maskWidth ∧ (s.latch.y0 - s.minY).toNat < s.maskHeight
          omega
        · exact State.begun_of_idle rfl

end Sys2Proof.Machine
end

