-- ==== Sys2Proof/Laws/Status.lean ====
section
/-! SUPPORT. What the engine can do to STATUS and FAULT_ADDR: nothing while the command runs on, and one of two endings
(40_control.md R125, 60_exceptions.md R264, R266); and to MASK_VALID (10_state.md R24). -/

namespace Sys2Proof.Machine

/-- `t` ends a command of `s`: with DONE, or with an error and its code. -/
structure State.Ends (s t : State) : Prop where
  idle : t.progress = .idle
  busy : t.status.busy = false
  ovr : t.status.ovr = s.status.ovr
  how : (t.status.done = true ∧ t.status.err = s.status.err ∧ t.status.errcode = s.status.errcode ∧
      t.faultAddr = s.faultAddr) ∨
    (t.status.done = s.status.done ∧ t.status.err = true ∧ t.status.errcode ≠ .none ∧
      (t.faultAddr = s.faultAddr ∨ t.status.errcode = .busError))

/-- STATUS and FAULT_ADDR are as before, or the command has ended. -/
def State.KeepsOrEnds (s t : State) : Prop :=
  (t.status = s.status ∧ t.faultAddr = s.faultAddr) ∨ s.Ends t

theorem State.KeepsOrEnds.refl (s : State) : s.KeepsOrEnds s := .inl ⟨rfl, rfl⟩

theorem State.ends_complete {s u : State} (h : u.status = s.status) (hf : u.faultAddr = s.faultAddr) :
    s.Ends u.complete :=
  ⟨rfl, rfl, by rw [← h]; rfl, .inl ⟨rfl, by rw [← h]; rfl, by rw [← h]; rfl, hf⟩⟩

theorem State.ends_raise {s u : State} {c : ErrCode} (hc : c ≠ .none) (hd : u.status.done = s.status.done)
    (ho : u.status.ovr = s.status.ovr) (hf : u.faultAddr = s.faultAddr ∨ c = .busError) : s.Ends (u.raise c) :=
  ⟨rfl, rfl, ho, .inr ⟨hd, rfl, hc, hf⟩⟩

theorem begin_keepsOrEnds (i : Instr) (s : State) : s.KeepsOrEnds (begin i s) := by
  cases i with
  | nop => exact .inr (State.ends_complete rfl rfl)
  | plot c =>
    simp only [begin, beginPlot]
    split
    · exact .inr (State.ends_raise (by simp) rfl rfl (.inl rfl))
    · exact .inl ⟨rfl, rfl⟩
  | line =>
    simp only [begin, beginLine]
    split
    · exact .inr (State.ends_raise (by simp) rfl rfl (.inl rfl))
    · exact .inl ⟨rfl, rfl⟩
  | mbegin =>
    simp only [begin, beginMbegin]
    split
    · exact .inr (State.ends_raise (u := s.dropMask.forgetMask) (by simp) rfl rfl (.inl rfl))
    · split
      · exact .inr (State.ends_raise (u := s.dropMask.forgetMask) (by simp) rfl rfl (.inl rfl))
      · exact .inr ⟨rfl, rfl, rfl, .inl ⟨rfl, rfl, rfl, rfl⟩⟩
  | medge =>
    simp only [begin, beginMedge]
    split
    · exact .inr (State.ends_raise (by simp) rfl rfl (.inl rfl))
    · obtain ⟨r, h⟩ := burn_frame (midpointEdge s.latch.x0 s.latch.y0 s.latch.x1 s.latch.y1) s
      rw [h]
      exact .inr (State.ends_complete rfl rfl)
  | fill =>
    simp only [begin, beginFill]
    split
    · exact .inr (State.ends_raise (by simp) rfl rfl (.inl rfl))
    · split
      · exact .inr (State.ends_raise (by simp) rfl rfl (.inl rfl))
      · unfold startFill
        split
        · exact .inl ⟨rfl, rfl⟩
        · exact .inr ⟨rfl, rfl, rfl, .inl ⟨rfl, rfl, rfl, rfl⟩⟩

theorem paintThen_keepsOrEnds {s u : State} (x y : Nat) (k : Cont) (h : u.status = s.status)
    (hf : u.faultAddr = s.faultAddr) : s.KeepsOrEnds (paintThen x y k u) := by
  unfold paintThen
  split
  · exact .inl ⟨h, hf⟩
  · split
    · exact .inr ⟨rfl, rfl, by rw [← h]; rfl, .inr ⟨by rw [← h]; rfl, rfl, by simp [State.raise], .inr rfl⟩⟩
    · exact .inl ⟨h, hf⟩

/-- One engine step keeps STATUS and FAULT_ADDR, or ends the command. -/
theorem engineStep_keepsOrEnds (s : State) : s.KeepsOrEnds (engineStep s) := by
  unfold engineStep
  split
  · exact .refl s
  · unfold firstStep
    split
    · exact .inr (State.ends_raise (by simp) rfl rfl (.inl rfl))
    · exact begin_keepsOrEnds _ s
  · next ps _ =>
    cases ps with
    | nil => exact .inr (State.ends_complete rfl rfl)
    | cons p rest =>
      show s.KeepsOrEnds (stepPlot p rest s)
      rcases stepPlot_cases p rest s with ⟨-, e⟩ | ⟨-, -, e⟩ | ⟨-, -, -, e⟩ | ⟨-, -, -, e⟩ <;> rw [e]
      · exact .inl ⟨rfl, rfl⟩
      · exact .inr (State.ends_raise (u := { s with faultAddr := s.plotAddr p }) (by simp) rfl rfl (.inr rfl))
      · exact .inl ⟨rfl, rfl⟩
      · exact .inl ⟨rfl, rfl⟩
  · next a v rest _ =>
    unfold stepBlendWrite
    split
    · exact .inl ⟨rfl, rfl⟩
    · exact .inr (State.ends_raise (u := { s with faultAddr := a }) (by simp) rfl rfl (.inr rfl))
  · next p _ =>
    cases p with
    | pop =>
      show s.KeepsOrEnds (stepPop s)
      unfold stepPop
      split
      · exact .inr ⟨rfl, rfl, rfl, .inl ⟨rfl, rfl, rfl, rfl⟩⟩
      · split <;> exact .inl ⟨rfl, rfl⟩
    | right x y e =>
      show s.KeepsOrEnds (stepRight x y e s)
      unfold stepRight
      split
      · exact paintThen_keepsOrEnds _ _ _ rfl rfl
      · exact .inl ⟨rfl, rfl⟩
    | left y lo e =>
      show s.KeepsOrEnds (stepLeft y lo e s)
      unfold stepLeft
      split
      · exact .inl ⟨rfl, rfl⟩
      · split
        · exact paintThen_keepsOrEnds _ _ _ rfl rfl
        · exact .inl ⟨rfl, rfl⟩
    | rows y c e la lb =>
      show s.KeepsOrEnds (stepRows y c e la lb s)
      rcases stepRows_frame y c e la lb s with ⟨-, h⟩ | ⟨-, n, -, -, -, ⟨_, _, h⟩ | h⟩ <;> rw [h]
      · exact .inl ⟨rfl, rfl⟩
      · exact .inl ⟨rfl, rfl⟩
      · exact .inr ⟨rfl, rfl, rfl, .inr ⟨rfl, rfl, by simp [seedOverflow, State.raise], .inl rfl⟩⟩

/-- Any number of engine steps keeps STATUS and FAULT_ADDR, or ends the command once. -/
theorem runEngine_keepsOrEnds (s : State) (n : Nat) {u : State} (h : s.KeepsOrEnds u) :
    s.KeepsOrEnds (runEngine n u) := by
  refine runEngine_induct (P := s.KeepsOrEnds) (fun v hv => ?_) n h
  rcases hv with ⟨h1, h2⟩ | hv
  · rcases engineStep_keepsOrEnds v with ⟨h3, h4⟩ | h3
    · exact .inl ⟨h3.trans h1, h4.trans h2⟩
    · refine .inr ⟨h3.idle, h3.busy, by rw [h3.ovr, h1], ?_⟩
      have := h3.how
      rwa [h1, h2] at this
  · rw [engineStep_idle hv.idle]
    exact .inr hv

/-! ### MASK_VALID -/

/-- A fill of `s` is under way. -/
def State.InFill (s : State) : Prop := ∃ p, s.progress = .running (.fill p)

/-- MASK_VALID is as before, and a fill in progress is one of `s`; or a fill of `s` has ended, and MASK_VALID is 0. -/
def State.KeepsMaskOrEndsFill (s t : State) : Prop :=
  (t.status.maskValid = s.status.maskValid ∧ (t.InFill → s.InFill)) ∨
    (t.status.maskValid = false ∧ t.progress = .idle ∧ s.InFill)

theorem State.not_inFill {t : State} (h : ∀ p, t.progress ≠ .running (.fill p)) : ¬t.InFill := fun ⟨p, e⟩ => h p e

theorem State.noFill {s t : State} {P : Prop} (hv : t.status.maskValid = s.status.maskValid)
    (h : ∀ p, t.progress ≠ .running (.fill p)) : t.status.maskValid = s.status.maskValid ∧ (t.InFill → P) :=
  ⟨hv, fun hf => absurd hf (State.not_inFill h)⟩

theorem State.keepsMask_of_not_inFill {s t : State} (hv : t.status.maskValid = s.status.maskValid)
    (h : ∀ p, t.progress ≠ .running (.fill p)) : s.KeepsMaskOrEndsFill t :=
  .inl ⟨hv, fun hf => absurd hf (State.not_inFill h)⟩

theorem paintThen_keepsMask {s u : State} (x y : Nat) (k : Cont) (h : u.status = s.status) (hs : s.InFill) :
    s.KeepsMaskOrEndsFill (paintThen x y k u) := by
  unfold paintThen
  split
  · exact .inl ⟨congrArg _ h, fun _ => hs⟩
  · split
    · exact .inr ⟨rfl, rfl, hs⟩
    · exact .inl ⟨congrArg _ h, fun _ => hs⟩

/-- The first step of a command: `MBEGIN` sets MASK_VALID where it succeeds and clears it where it fails; `FILL` past its
start checks starts its loop or ends; every other first step keeps MASK_VALID and starts no fill. -/
theorem begin_mask (i : Instr) (s : State) :
    ((begin i s).status.maskValid = s.status.maskValid ∧
      ((begin i s).InFill → i = .fill ∧ s.latch.aligned = true)) ∨
    ((begin i s).progress = .idle ∧ (begin i s).status.maskValid = false ∧ i = .fill ∧ s.latch.aligned = true) ∨
    ((begin i s).progress = .idle ∧ i = .mbegin ∧
      (((begin i s).status.maskValid = true ∧ (begin i s).status.done = true) ∨
        ((begin i s).status.maskValid = false ∧
          ((begin i s).status.errcode = .bboxInvalid ∨ (begin i s).status.errcode = .maskOverflow)))) := by
  cases i with
  | nop => exact .inl (State.noFill rfl (fun p h => nomatch h))
  | plot c => simp only [begin, beginPlot]; split <;> exact .inl (State.noFill rfl (fun p h => nomatch h))
  | line => simp only [begin, beginLine]; split <;> exact .inl (State.noFill rfl (fun p h => nomatch h))
  | mbegin =>
    simp only [begin, beginMbegin]
    split
    · exact .inr (.inr ⟨rfl, trivial, .inr ⟨rfl, .inl rfl⟩⟩)
    · split
      · exact .inr (.inr ⟨rfl, trivial, .inr ⟨rfl, .inr rfl⟩⟩)
      · exact .inr (.inr ⟨rfl, trivial, .inl ⟨rfl, rfl⟩⟩)
  | medge =>
    simp only [begin, beginMedge]
    split
    · exact .inl (State.noFill rfl (fun p h => nomatch h))
    · obtain ⟨r, h⟩ := burn_frame (midpointEdge s.latch.x0 s.latch.y0 s.latch.x1 s.latch.y1) s
      rw [h]
      exact .inl (State.noFill rfl (fun p h => nomatch h))
  | fill =>
    simp only [begin, beginFill]
    split
    · exact .inl (State.noFill rfl (fun p h => nomatch h))
    · split
      · exact .inl (State.noFill rfl (fun p h => nomatch h))
      · next _ ha =>
        have ha : s.latch.aligned = true := by simpa using ha
        unfold startFill
        split
        · exact .inl ⟨rfl, fun _ => ⟨trivial, ha⟩⟩
        · exact .inr (.inl ⟨rfl, rfl, trivial, ha⟩)

/-- An engine step past the first keeps MASK_VALID, or ends a fill. -/
theorem engineStep_keepsMask {s : State} (hp : s.progress ≠ .running .start) :
    s.KeepsMaskOrEndsFill (engineStep s) := by
  unfold engineStep
  split
  · exact .inl ⟨rfl, id⟩
  · next h => exact absurd h hp
  · next ps _ =>
    cases ps with
    | nil => exact State.keepsMask_of_not_inFill rfl (fun p h => nomatch h)
    | cons p rest =>
      show s.KeepsMaskOrEndsFill (stepPlot p rest s)
      rcases stepPlot_cases p rest s with ⟨-, e⟩ | ⟨-, -, e⟩ | ⟨-, -, -, e⟩ | ⟨-, -, -, e⟩ <;> rw [e] <;>
        exact State.keepsMask_of_not_inFill rfl (fun p h => nomatch h)
  · unfold stepBlendWrite
    split <;> exact State.keepsMask_of_not_inFill rfl (fun p h => nomatch h)
  · next p hs =>
    have hs : s.InFill := ⟨p, hs⟩
    clear * - hs
    cases p with
    | pop =>
      simp only [stepFill, stepPop]
      split
      · exact .inr ⟨rfl, rfl, hs⟩
      · split <;> exact .inl ⟨rfl, fun _ => hs⟩
    | right x y e =>
      simp only [stepFill, stepRight]
      split
      · exact paintThen_keepsMask _ _ _ rfl hs
      · exact .inl ⟨rfl, fun _ => hs⟩
    | left y lo e =>
      simp only [stepFill, stepLeft]
      split
      · exact .inl ⟨rfl, fun _ => hs⟩
      · split
        · exact paintThen_keepsMask _ _ _ rfl hs
        · exact .inl ⟨rfl, fun _ => hs⟩
    | rows y c e la lb =>
      simp only [stepFill]
      rcases stepRows_frame y c e la lb s with ⟨-, h⟩ | ⟨-, n, -, -, -, ⟨_, _, h⟩ | h⟩ <;> rw [h]
      · exact .inl ⟨rfl, fun _ => hs⟩
      · exact .inl ⟨rfl, fun _ => hs⟩
      · exact .inr ⟨rfl, rfl, hs⟩

theorem paintThen_not_start (x y : Nat) (p : FillPos) (s : State) :
    (paintThen x y (.fill p) s).progress ≠ .running .start := by
  unfold paintThen
  split
  · exact fun h => nomatch h
  · split <;> exact fun h => nomatch h

/-- No engine step accepts a command. -/
theorem engineStep_not_start (s : State) : (engineStep s).progress ≠ .running .start := by
  unfold engineStep
  split
  · next h => rw [h]; exact fun h => nomatch h
  · unfold firstStep
    split
    · exact fun h => nomatch h
    · exact (begin_begun _ s).2
  · next ps _ =>
    cases ps with
    | nil => exact fun h => nomatch h
    | cons p rest =>
      show (stepPlot p rest s).progress ≠ _
      rcases stepPlot_cases p rest s with ⟨-, e⟩ | ⟨-, -, e⟩ | ⟨-, -, -, e⟩ | ⟨-, -, -, e⟩ <;> rw [e] <;>
        exact fun h => nomatch h
  · unfold stepBlendWrite
    split <;> exact fun h => nomatch h
  · next p _ =>
    cases p with
    | pop =>
      simp only [stepFill, stepPop]
      split
      · exact fun h => nomatch h
      · split <;> exact fun h => nomatch h
    | right x y e =>
      simp only [stepFill, stepRight]
      split
      · exact paintThen_not_start _ _ _ _
      · exact fun h => nomatch h
    | left y lo e =>
      simp only [stepFill, stepLeft]
      split
      · exact fun h => nomatch h
      · split
        · exact paintThen_not_start _ _ _ _
        · exact fun h => nomatch h
    | rows y c e la lb =>
      simp only [stepFill]
      rcases stepRows_frame y c e la lb s with ⟨-, h⟩ | ⟨-, n, -, -, -, ⟨_, _, h⟩ | h⟩ <;> rw [h] <;>
        exact fun h => nomatch h

/-- Past the first step, a command keeps MASK_VALID, or ends a fill. -/
theorem finish_keepsMask {s : State} (hp : s.progress ≠ .running .start) : s.KeepsMaskOrEndsFill (finish s) := by
  refine (finish_induct (P := fun u => s.KeepsMaskOrEndsFill u ∧ u.progress ≠ .running .start)
    (fun u h => ⟨?_, engineStep_not_start u⟩) ⟨.inl ⟨rfl, id⟩, hp⟩).1
  rcases h.1 with ⟨h1, h2⟩ | ⟨h1, h2, h3⟩
  · rcases engineStep_keepsMask h.2 with ⟨h4, h5⟩ | ⟨h4, h5, h6⟩
    · exact .inl ⟨h4.trans h1, fun hf => h2 (h5 hf)⟩
    · exact .inr ⟨h4, h5, h2 h6⟩
  · rw [engineStep_idle h2]
    exact .inr ⟨h1, h2, h3⟩

/-- What a move of the engine does to MASK_VALID: it keeps it; or a `FILL` that passed its start checks ends, and clears
it; or an `MBEGIN` ends, which sets it where it succeeds and clears it where it fails. -/
def State.MaskRule (s t : State) : Prop :=
  t.status.maskValid = s.status.maskValid ∨
  (t.progress = .idle ∧ t.status.maskValid = false ∧
    (s.InFill ∨ (s.progress = .running .start ∧ decode s.latch.cmd = .ok .fill ∧ s.latch.aligned = true))) ∨
  (t.progress = .idle ∧ s.progress = .running .start ∧ decode s.latch.cmd = .ok .mbegin ∧
    ((t.status.maskValid = true ∧ t.status.done = true) ∨
      (t.status.maskValid = false ∧ (t.status.errcode = .bboxInvalid ∨ t.status.errcode = .maskOverflow))))

theorem State.KeepsMaskOrEndsFill.rule {s t : State} (h : s.KeepsMaskOrEndsFill t) : s.MaskRule t := by
  rcases h with ⟨h, -⟩ | ⟨h1, h2, h3⟩
  · exact .inl h
  · exact .inr (.inl ⟨h2, h1, .inl h3⟩)

/-- The first step of a command, and any step after it, keep the rule of MASK_VALID. -/
theorem firstStep_rule {s t : State} (hp : s.progress = .running .start)
    (h : (engineStep s).KeepsMaskOrEndsFill t) (hi : (engineStep s).progress = .idle → t = engineStep s) :
    s.MaskRule t := by
  have e : engineStep s = firstStep s := by rw [engineStep, hp]
  rw [e] at h hi
  unfold firstStep at h hi
  split at h
  · next hd =>
    rw [hd] at hi
    rw [hi rfl]
    exact .inl rfl
  · next i hd =>
    rw [hd] at hi
    rcases begin_mask i s with ⟨h1, h2⟩ | ⟨h1, h2, rfl, h4⟩ | ⟨h1, rfl, h3⟩
    · rcases h with ⟨h, -⟩ | ⟨h3, h4, h5⟩
      · exact .inl (h.trans h1)
      · obtain ⟨rfl, ha⟩ := h2 h5
        exact .inr (.inl ⟨h4, h3, .inr ⟨hp, hd, ha⟩⟩)
    · rw [hi h1]
      exact .inr (.inl ⟨h1, h2, .inr ⟨hp, hd, h4⟩⟩)
    · rw [hi h1]
      exact .inr (.inr ⟨h1, hp, hd, h3⟩)

theorem engineStep_maskRule (s : State) : s.MaskRule (engineStep s) := by
  by_cases hp : s.progress = .running .start
  · exact firstStep_rule hp (.inl ⟨rfl, id⟩) (fun _ => rfl)
  · exact (engineStep_keepsMask hp).rule

theorem engineTurn_maskRule {s t : State} (h : engineTurn s = .next t) : s.MaskRule t := by
  rw [engineTurn_eq] at h
  obtain rfl := Host.Outcome.next.inj h
  split
  · next hp => exact firstStep_rule hp (finish_keepsMask (engineStep_not_start s)) (fun h => finish_idle h)
  · next hp => exact (finish_keepsMask hp).rule

end Sys2Proof.Machine
end

