-- ==== Sys2Proof/Machine/HostText.lean ====
section
/-! DEFINITION. The text of the host command-stream assembly (30_encoding.md R98 to R100): tokens, integers, and one
statement a line. What the grammar leaves open, the model rejects, but for the separators it chooses (assumption 18). -/

namespace Sys2Proof.Machine

/-- A token of a line. -/
inductive Token
  | word (cs : List Char)
  | comma
  | lparen
  | rparen
deriving DecidableEq, Repr

/-- The characters between tokens. DESIGN CHOICE: a blank, a tab or a carriage return; 30_encoding.md R98 names no
separator (assumption 18). -/
def isBlank (c : Char) : Bool := c = ' ' || c = '\t' || c = '\r'

/-- The word read so far, kept in reverse, as a token. -/
def flushWord : List Char → List Token
  | [] => []
  | cs => [.word cs.reverse]

/-- The tokens of a line, after the word `cur` read so far; a semicolon starts a comment (30_encoding.md R98). -/
def scanLine : List Char → List Char → List Token
  | cur, [] => flushWord cur
  | cur, c :: rest =>
    if c = ';' then flushWord cur
    else if isBlank c then flushWord cur ++ scanLine [] rest
    else if c = ',' then flushWord cur ++ .comma :: scanLine [] rest
    else if c = '(' then flushWord cur ++ .lparen :: scanLine [] rest
    else if c = ')' then flushWord cur ++ .rparen :: scanLine [] rest
    else scanLine (c :: cur) rest

/-- A digit of a base up to sixteen. -/
def digit? (base : Nat) (c : Char) : Option Nat :=
  let n :=
    if '0' ≤ c ∧ c ≤ '9' then c.toNat - 48
    else if 'a' ≤ c ∧ c ≤ 'f' then c.toNat - 87
    else if 'A' ≤ c ∧ c ≤ 'F' then c.toNat - 55
    else 16
  if n < base then some n else none

/-- The digits of a number, most significant first, after the value read so far. -/
def digits? (base : Nat) : Nat → List Char → Option Nat
  | n, [] => some n
  | n, c :: rest => do
    let d ← digit? base c
    digits? base (base * n + d) rest

/-- A natural number, decimal or hexadecimal with `0x` (30_encoding.md R98). -/
def nat? : List Char → Option Nat
  | [] => none
  | '0' :: 'x' :: [] => none
  | '0' :: 'x' :: rest => digits? 16 0 rest
  | cs => digits? 10 0 cs

/-- An integer; coordinates may be negative (30_encoding.md R98). -/
def int? : List Char → Option Int
  | '-' :: rest => (nat? rest).map fun n => -(n : Int)
  | cs => (nat? cs).map fun n => (n : Int)

/-- A 32-bit immediate. -/
def imm32? (cs : List Char) : Option Word := do
  let n ← nat? cs
  if n < 2 ^ 32 then some (BitVec.ofNat 32 n) else none

/-- Operands between commas. -/
def operands? : List Token → Option (List (List Char))
  | [] => some []
  | [.word w] => some [w]
  | .word w :: .comma :: t :: rest => (operands? (t :: rest)).map fun more => w :: more
  | _ => none

/-- The points of `POLYMASK`, between commas. -/
def points? : List Token → Option (List (Int × Int))
  | [] => some []
  | [.lparen, .word x, .comma, .word y, .rparen] => do
    let a ← int? x
    let b ← int? y
    pure [(a, b)]
  | .lparen :: .word x :: .comma :: .word y :: .rparen :: .comma :: t :: rest => do
    let a ← int? x
    let b ← int? y
    let more ← points? (t :: rest)
    pure ((a, b) :: more)
  | _ => none

/-- The register names as they are written (30_encoding.md R98). -/
def RegName.text : RegName → String
  | .id => "ID"
  | .ctrl => "CTRL"
  | .status => "STATUS"
  | .fbBase => "FB_BASE"
  | .fbSize => "FB_SIZE"
  | .fbStride => "FB_STRIDE"
  | .color => "COLOR"
  | .p0 => "P0"
  | .p1 => "P1"
  | .cmd => "CMD"
  | .maskMin => "MASK_MIN"
  | .maskMax => "MASK_MAX"
  | .faultAddr => "FAULT_ADDR"

/-- Every register name. -/
def RegName.all : List RegName :=
  [.id, .ctrl, .status, .fbBase, .fbSize, .fbStride, .color, .p0, .p1, .cmd, .maskMin, .maskMax, .faultAddr]

/-- The register a word names. -/
def regName? (cs : List Char) : Option RegName := RegName.all.find? fun r => decide (r.text.toList = cs)

/-- The statement of a mnemonic and its operands, `POLYMASK` apart (30_encoding.md R98, R100). DESIGN CHOICE: an
immediate is written as an integer only; `pt(x, y)` stands in R99 and R100 as the assembler's function, and R98 gives
`wr` an `imm32`, so `wr P0, pt(1,1)` is rejected as text (assumption 18). -/
def stmtOf? (m : String) (ops : List (List Char)) : Option Stmt :=
  match m, ops with
  | "wr", [r, v] => do pure (.wr (← regName? r) (← imm32? v))
  | "rd", [r] => do pure (.rd (← regName? r))
  | "NOP", [] => some .nop
  | "PLOT", [x, y, c] => do pure (.plot (← int? x) (← int? y) (← nat? c))
  | "LINE", [x0, y0, x1, y1] => do pure (.line (← int? x0) (← int? y0) (← int? x1) (← int? y1))
  | "MBEGIN", [x0, y0, x1, y1] => do pure (.mbegin (← int? x0) (← int? y0) (← int? x1) (← int? y1))
  | "MEDGE", [x0, y0, x1, y1] => do pure (.medge (← int? x0) (← int? y0) (← int? x1) (← int? y1))
  | "FILL", [x, y] => do pure (.fill (← int? x) (← int? y))
  | "SETCOLOR", [c] => do pure (.setColor (← imm32? c))
  | "SETFB", [b, w, h, p] => do pure (.setFb (← imm32? b) (← nat? w) (← nat? h) (← imm32? p))
  | "SETCTRL", [f, e] => do pure (.setCtrl (← nat? f) (← nat? e))
  | "WAIT", [] => some .wait
  | "CLRST", [] => some .clrst
  | _, _ => none

/-- One line: none where it is rejected, `some none` where it is blank or a comment. -/
def parseLine (cs : List Char) : Option (Option Stmt) :=
  match scanLine [] cs with
  | [] => some none
  | .word m :: rest =>
    if String.ofList m = "POLYMASK" then (points? rest).map fun ps => some (.polymask ps)
    else do
      let ops ← operands? rest
      (stmtOf? (String.ofList m) ops).map some
  | _ => none

/-- The lines of a text, after the line `cur` read so far, kept in reverse. DESIGN CHOICE: a line feed ends a line;
30_encoding.md R98 names no line end (assumption 18). -/
def splitLines : List Char → List Char → List (List Char)
  | cur, [] => [cur.reverse]
  | cur, c :: rest => if c = '\n' then cur.reverse :: splitLines [] rest else splitLines (c :: cur) rest

/-- The statements of a program's lines. -/
def parseLines : List (List Char) → Option (List Stmt)
  | [] => some []
  | l :: rest => do
    let st ← parseLine l
    let more ← parseLines rest
    pure (match st with
      | some x => x :: more
      | none => more)

/-- The moves of a program's text (30_encoding.md R98 to R100). -/
def assembleText (text : String) : Option (List Event) := do
  let sts ← parseLines (splitLines [] text.toList)
  assemble sts

end Sys2Proof.Machine
end

