-- ==== Sys2Proof/Tests/Slice0.lean ====
section
/-! SUPPORT. Tests: expected values are taken from the spec's encodings, its worked examples and 95_test_vectors.md, or
computed by hand from the rules. Then, for each statement with hypotheses, a state and operands that meet them. -/

namespace Sys2Proof.Tests

open Sys2Proof Sys2Proof.Machine Host

set_option Elab.async false

/-! ### Helpers -/

/-- The next state of an outcome meets a test. -/
def nextIs (o : Outcome State Fault Refusal) (p : State → Bool) : Bool :=
  match o with
  | .next t => p t
  | .fault _ => false
  | .refused _ => false

/-- An outcome is this fault, or this refusal. -/
def faultIs (o : Outcome State Fault Refusal) (f : Fault) : Bool :=
  match o with
  | .next _ => false
  | .fault g => decide (g = f)
  | .refused _ => false

def refusalIs (o : Outcome State Fault Refusal) (r : Refusal) : Bool :=
  match o with
  | .next _ => false
  | .fault _ => false
  | .refused q => decide (q = r)

/-- Vector L1's frame: FMT0, base 0x1000, 10×10, stride 40, white. -/
def snapL1 (cmd p0 p1 : Word) : Snapshot :=
  { cmd := cmd, fmt := .fmt0, fbBase := 0x1000, fbSize := 0x000A000A, fbStride := 40, color := 0x00FFFFFF
    p0 := p0, p1 := p1 }

/-- A command accepted from reset with the snapshot `l`. -/
def accepted (l : Snapshot) : State :=
  { State.reset with
    latch := l
    lent := [l]
    status := { Status.reset with busy := true }
    progress := .running .start }

/-- The 5×5 square outline of vector F1, as bits of the mask RAM: one byte a row. -/
def ringF1 : List Nat := [0, 1, 2, 3, 4, 8, 12, 16, 20, 24, 28, 32, 33, 34, 35, 36]

/-- Vector F1, its `FILL` just accepted, with seed `p0`. -/
def fillF1 (p0 : Word) : State :=
  { accepted
      { cmd := 5, fmt := .fmt0, fbBase := 0x4000, fbSize := 0x00080008, fbStride := 32, color := 0x000000FF
        p0 := p0, p1 := 0 } with
    maskMin := 0x00010001
    maskMax := 0x00050005
    maskRam := ringF1
    status := { Status.reset with busy := true, maskValid := true } }

/-- A bus that refuses the 4-byte accesses at 0x1008 (vector L19). -/
def hole1008 : List BusHole := [{ first := 0x1008, last := 0x1008, size := 4 }]

/-- A state that holds one move. -/
def withMove (e : Event) (s : State) : State := { s with events := [e] }

/-! ### Well-formedness and decoding -/

theorem test_wellformed_refuses_plot_32 : Instr.wellFormed (.plot 32) = false := by decide +kernel
theorem test_wellformed_takes_plot_31 : Instr.wellFormed (.plot 31) = true := by decide +kernel

/-- Words written out from 30_encoding.md R90 and R93. -/
theorem test_decode_nop : decode 0b00000000000000000000000000000000 = .ok .nop := by decide +kernel
theorem test_decode_plot : decode 0b00000000000000000000000101000001 = .ok (.plot 20) := by decide +kernel
theorem test_decode_line : decode 0b00000000000000000000000000000010 = .ok .line := by decide +kernel
theorem test_decode_mbegin : decode 0b00000000000000000000000000000011 = .ok .mbegin := by decide +kernel
theorem test_decode_medge : decode 0b00000000000000000000000000000100 = .ok .medge := by decide +kernel
theorem test_decode_fill : decode 0b00000000000000000000000000000101 = .ok .fill := by decide +kernel

/-- 95_test_vectors.md X1 to X7: each word is illegal, for its first failing test. -/
theorem test_decode_illegal :
    decode 0x00000006 = .error .reservedOpcode ∧ decode 0x0000000F = .error .reservedOpcode ∧
    decode 0x00000200 = .error .reservedBits ∧ decode 0x00000012 = .error .coverageBits ∧
    decode 0x80000001 = .error .reservedBits ∧ decode 0x00000010 = .error .coverageBits ∧
    decode 0x0000003F = .error .reservedOpcode := by decide +kernel

/-- A `PLOT` word on the bus, least significant byte first, with a byte after it; and a word cut short. -/
theorem test_decode_bytes :
    decodeBytes [0x81, 0x01, 0x00, 0x00, 0x7F] = .ok (.plot 24, [0x7F]) ∧
    decodeBytes [0x81, 0x01, 0x00] = .error .truncated := by decide +kernel

theorem test_decode_table_word :
    decodeTableWord 32 0x000001F1 = some (.plot 31) ∧ decodeTableWord 32 0x00000200 = none := by decide +kernel

/-! ### One step of each command -/

/-- G9. -/
theorem test_nop_sets_done :
    nextIs (step (accepted (snapL1 0 0 0))) (fun t => decide (t.status.word = 0x00000002 ∧ t.trace = [])) = true := by
  decide +kernel

/-- The fetch of a placed word: from reset, `PLOT` is clipped and completes (PL8). -/
theorem test_fetch_word_runs :
    nextIs (step (State.reset.withFetchWord 32 0x00000101))
      (fun t => decide (t.status.word = 0x00000002 ∧ t.latch.cmd = 0x00000101 ∧ t.trace = [])) = true := by
  decide +kernel

/-- B3, PL7: old 0x11203040, colour 0xAAFF0080, coverage 8. -/
theorem test_plot_blends_B3 :
    nextIs (step { accepted { snapL1 0x00000081 0 0 with color := 0xAAFF0080 } with
        mem := [(0x1000, 0x40), (0x1001, 0x30), (0x1002, 0x20), (0x1003, 0x11)] })
      (fun t => decide (t.mem = [(0x1000, 0x60), (0x1001, 0x18), (0x1002, 0x90), (0x1003, 0x11)] ∧
        t.trace.map (fun c => c.kind) = [.write, .read] ∧ t.status.word = 0x00000002)) = true := by
  decide +kernel

/-- PL12: FMT1 at base 3, stride 16: pixel (1,1) is the byte at 0x14, and takes the colour's low byte. -/
theorem test_plot_fmt1_byte :
    nextIs (step (accepted
        { cmd := 0x00000101, fmt := .fmt1, fbBase := 3, fbSize := 0x00040004, fbStride := 16, color := 0x80112233
          p0 := 0x00010001, p1 := 0 }))
      (fun t => decide (t.mem = [(0x14, 0x33)] ∧ t.trace = [{ kind := .write, addr := 0x14, size := 1 }])) = true := by
  decide +kernel

/-- L1: the trace and the pixels (2,0) and (2,1) of the source's line. -/
theorem test_line_L1 :
    nextIs (step (accepted (snapL1 2 0 0x00010003)))
      (fun t => decide (t.trace.reverse.map (fun c => (decide (c.kind = .write), c.addr)) =
          [(true, 0x1000), (false, 0x1004), (true, 0x1004), (false, 0x102C), (true, 0x102C), (false, 0x1008),
            (true, 0x1008), (false, 0x1030), (true, 0x1030), (true, 0x1034)] ∧
        loadLE t.mem 0x1008 4 = 0x00505050 ∧ loadLE t.mem 0x1030 4 = 0x00AFAFAF)) = true := by
  decide +kernel

/-- L19: the read at 0x1008 is refused; the pixels before it stay. -/
theorem test_line_bus_error_L19 :
    nextIs (step { accepted (snapL1 2 0 0x00010003) with
        cfg := { Config.specExample with busHoles := hole1008 } })
      (fun t => decide (t.status.word = 0x00000074 ∧ t.faultAddr = 0x1008 ∧ loadLE t.mem 0x102C 4 = 0x00505050 ∧
        loadLE t.mem 0x1008 4 = 0 ∧ t.trace.length = 5)) = true := by
  decide +kernel

/-- M4: the widest box just fits the mask RAM. -/
theorem test_mbegin_fits_M4 :
    nextIs (step (accepted (snapL1 3 0x00008000 0x00007FFF)))
      (fun t => decide (t.status.word = 0x00000102 ∧ t.maskMin = 0x00008000 ∧ t.maskMax = 0x00007FFF)) = true := by
  decide +kernel

/-- M5: one row more overflows it. -/
theorem test_mbegin_overflows_M5 :
    nextIs (step (accepted (snapL1 3 0x00008000 0x00017FFF)))
      (fun t => decide (t.status.word = 0x00000044 ∧ t.maskMin = 0 ∧ t.maskMax = 0)) = true := by
  decide +kernel

/-- E1: mask (0,0)–(7,3), edge (0,0)→(5,2), one byte a row. -/
theorem test_medge_E1 :
    nextIs (step { accepted (snapL1 4 0 0x00020005) with
        maskMax := 0x00030007, status := { Status.reset with busy := true, maskValid := true } })
      (fun t => decide (t.maskRam = [0, 1, 10, 11, 20, 21] ∧ t.status.word = 0x00000102)) = true := by
  decide +kernel

/-- E15: no mask. -/
theorem test_medge_without_mask_E15 :
    nextIs (step (accepted (snapL1 4 0 0x00010001)))
      (fun t => decide (t.status.word = 0x00000024 ∧ t.maskRam = [])) = true := by
  decide +kernel

/-- F1: the nine writes of the square, in order. -/
theorem test_fill_F1 :
    nextIs (step (fillF1 0x00030003))
      (fun t => decide (t.trace.reverse.map (fun c => c.addr) =
          [0x406C, 0x4070, 0x4068, 0x4088, 0x408C, 0x4090, 0x4048, 0x404C, 0x4050] ∧
        t.status.word = 0x00000002)) = true := by
  decide +kernel

/-- F5b: the third push finds a store of two full. -/
theorem test_fill_overflows_F5b :
    nextIs (step { accepted
        { cmd := 5, fmt := .fmt0, fbBase := 0x100, fbSize := 0x00030005, fbStride := 20, color := 0x00ABCDEF
          p0 := 0x00010002, p1 := 0 } with
        cfg := { Config.specExample with seedDepth := 2 }
        maskMax := 0x00020004
        maskRam := [1, 3, 17, 19]
        status := { Status.reset with busy := true, maskValid := true } })
      (fun t => decide (t.trace.reverse.map (fun c => c.addr) = [0x11C, 0x120, 0x124, 0x118, 0x114] ∧
        t.status.word = 0x00000054)) = true := by
  decide +kernel

/-! ### The host's and the platform's moves -/

/-- G14: a second `CMD` write while BUSY is dropped and sets OVR. -/
theorem test_overrun_G14 :
    nextIs (step (withMove (.wr 0x24 4 0) (accepted (snapL1 2 0 0x00010003))))
      (fun t => decide (t.status.word = 0x00000009 ∧ t.latch.cmd = 2)) = true := by
  decide +kernel

/-- G11: a write of ones clears DONE, ERR and OVR, and leaves ERRCODE and MASK_VALID. -/
theorem test_status_clear_G11 :
    nextIs (step (withMove (.wr 0x08 4 0xFFFFFFFF) { State.reset with
        status := { busy := false, done := true, err := true, ovr := true, errcode := .illegalCmd
                    maskValid := true } }))
      (fun t => decide (t.status.word = 0x00000110)) = true := by
  decide +kernel

/-- G18: DONE raises IRQ as soon as IE is set. -/
theorem test_irq_G18 :
    nextIs (step (withMove (.wr 0x04 4 2) { State.reset with status := { Status.reset with done := true } }))
      (fun t => t.irq) = true := by
  decide +kernel

/-- Z2: reset while the blend of 0x1004 is being written: it lands. -/
theorem test_reset_lands_Z2 :
    nextIs (step (withMove (.reset true) { accepted (snapL1 2 0 0x00010003) with
        progress := .running (.blendWrite 0x1004 0x00AFAFAF []) }))
      (fun t => decide (loadLE t.mem 0x1004 4 = 0x00AFAFAF ∧ t.status.word = 0)) = true := by
  decide +kernel

/-- L1's command has completed, and the host has not read STATUS since it wrote `CMD`. -/
def doneL1 : State :=
  { State.reset with lent := [snapL1 2 0 0], status := { Status.reset with done := true } }

/-- R300: the host's window goes on until it reads BUSY = 0; R72: another agent's ended with the command. -/
theorem test_host_reads_too_early_R300 :
    faultIs (step (withMove (.memRd .host 0x118F) doneL1)) .borrowBreach = true ∧
    nextIs (step (withMove (.memRd .other 0x118F) doneL1)) (fun t => decide (t.hostReads = [])) = true := by
  decide +kernel

/-- R300: the read of STATUS that returns BUSY = 0 ends it; a read of another register, or one that returns BUSY = 1,
does not. -/
theorem test_status_read_returns_the_frame_R300 :
    nextIs (step (withMove (.rd 0x08 4) doneL1)) (fun t => decide (t.lent = [] ∧ t.hostReads = [2])) = true ∧
    nextIs (step (withMove (.rd 0x30 4) doneL1)) (fun t => decide (t.lent = [snapL1 2 0 0])) = true ∧
    nextIs (step (withMove (.rd 0x08 4) (accepted (snapL1 2 0 0)))) (fun t => decide (t.lent = [snapL1 2 0 0])) = true := by
  decide +kernel

/-- R75: a write made after one in flight to the same byte is the one that stays; one in flight to another byte stays in
flight. -/
theorem test_later_write_stays_R75 :
    nextIs (step (withMove (.memWr .host 0x2000 2) { State.reset with posted := [(0x2000, 1), (0x2001, 3)] }))
      (fun t => decide (t.posted = [(0x2001, 3)] ∧ Memory.read t.mem 0x2000 = 2 ∧ t.hostByte 0x2000 = 2 ∧
        t.hostByte 0x2001 = 3)) = true ∧
    nextIs (step (withMove .memDrain { State.reset with posted := [(0x2000, 1), (0x2000, 2)] }))
      (fun t => decide (t.posted = [(0x2000, 2)] ∧ Memory.read t.mem 0x2000 = 1 ∧ t.hostByte 0x2000 = 2)) = true := by
  decide +kernel

/-- R36: four bytes that start two below the window are one access that is not aligned inside it, and a byte of the
window is no memory. -/
theorem test_window_overlap_refused_R36 :
    refusalIs (step { State.reset with events := busRead Config.specExample 0xFFFFFFBE 4 }) .registerAccess = true ∧
    refusalIs (step { State.reset with events := busWrite Config.specExample 0xFFFFFFBE 4 7 }) .registerAccess = true ∧
    refusalIs (step (withMove (.memWr .other 0xFFFFFFFF 1) State.reset)) .registerAccess = true ∧
    nextIs (step { State.reset with events := busRead Config.specExample 0xFFFFFFC0 4 })
      (fun t => decide (t.hostReads = [0x57550001])) = true := by
  decide +kernel

/-- P2's first lines, and a negative coordinate. -/
theorem test_assemble_text :
    assembleText "SETCTRL 1, 0 ; FMT1\nPLOT -1, 1, 16\nWAIT\n" =
      some [.wr 0x04 4 0x00000001, .wr 0x1C 4 0x0001FFFF, .wr 0x24 4 0x00000101, .wait] := by
  decide +kernel

/-- P3's polygon: four edges, the last one back to the first point, each followed by `WAIT`. -/
theorem test_assemble_polymask :
    assembleText "POLYMASK (1,1), (5,1), (5,5), (1,5)" =
      some [.wr 0x1C 4 0x00010001, .wr 0x20 4 0x00010005, .wr 0x24 4 4, .wait,
        .wr 0x1C 4 0x00010005, .wr 0x20 4 0x00050005, .wr 0x24 4 4, .wait,
        .wr 0x1C 4 0x00050005, .wr 0x20 4 0x00050001, .wr 0x24 4 4, .wait,
        .wr 0x1C 4 0x00050001, .wr 0x20 4 0x00010001, .wr 0x24 4 4, .wait] := by
  decide +kernel

/-- R101. -/
theorem test_disassemble :
    disassemble 0x00000081 = "PLOT cov=8" ∧ disassemble 0x00000005 = "FILL" ∧
    disassemble 0x00000012 = ".illegal 0x00000012" := by
  decide +kernel

/-! ### Witnesses: each statement's hypotheses are met together -/

/-- The frame of `snapL1` at its last byte, and the byte after it. -/
def lastByte : Word := 0x118F

theorem witness_DecodeOfEncodeIsTheCommand : (Instr.plot 31).WellFormed ∧ (Instr.plot 0).WellFormed := by decide +kernel

theorem witness_EncodeOfDecodeIsTheWord :
    decode 0x000001F1 = .ok (.plot 31) ∧ decode 0x00000005 = .ok .fill := by decide +kernel

theorem witness_IllegalWordRaisesIllegalCmd :
    (accepted (snapL1 6 0 0)).events = [] ∧ (accepted (snapL1 6 0 0)).progress = .running .start ∧
    6 ≤ field 6 0 4 ∧ field 0x200 9 23 ≠ 0 ∧ (field 0x12 0 4 ≠ 1 ∧ field 0x12 4 5 ≠ 0) ∧
    ¬(6 ≤ field 0x1F1 0 4 ∨ field 0x1F1 9 23 ≠ 0 ∨ (field 0x1F1 0 4 ≠ 1 ∧ field 0x1F1 4 5 ≠ 0)) := by decide +kernel

theorem witness_StepRunsTheDecodedCommand :
    (accepted (snapL1 5 0 0)).events = [] ∧ (accepted (snapL1 5 0 0)).progress = .running .start ∧
    decode (accepted (snapL1 5 0 0)).latch.cmd = .ok .fill ∧ decode (BitVec.ofNat 32 0x1F1) = .ok (.plot 31) := by
  decide +kernel

theorem witness_ResetGivesEveryRegisterItsValue :
    (∃ s lands, resetInput true (accepted (snapL1 2 0 0)) = resetInput lands s) ∧ (0x3C : Nat) ≠ 0x00 :=
  ⟨⟨_, _, rfl⟩, by decide +kernel⟩

theorem witness_ResetAbandonsTheCommandAndKeepsMemory :
    (withMove (.reset false) (accepted (snapL1 2 0 0))).events = [.reset false] ∧
    (withMove (.reset true) (accepted (snapL1 2 0 0))).events = [.reset true] ∧
    (withMove (.reset true) State.reset).progress = .idle := by decide +kernel

theorem witness_HostReadReturnsTheRegister :
    (withMove (.rd 0x08 4) (accepted (snapL1 2 0 0))).events = [.rd 0x08 4] ∧
    (0x01 : Word) = BitVec.ofNat 32 ((if (accepted (snapL1 2 0 0)).status.busy then 1 else 0) + 0 + 0 + 0 + 16 * 0 + 0) ∧
    (withMove (.rd 0x3C 4) State.reset).events = [.rd 0x3C 4] := by decide +kernel

theorem witness_HostWriteChangesItsRegister :
    (withMove (.wr 0x08 4 2) (accepted (snapL1 2 0 0))).events = [.wr 0x08 4 2] ∧
    (accepted (snapL1 2 0 0)).status.busy = true ∧
    State.reset.status.busy = false ∧ State.reset.posted = [] ∧ State.reset.cfg.sideEffects = [] ∧
    0x3C ∈ [0x00, 0x28, 0x2C, 0x30, 0x34, 0x38, 0x3C] := by decide +kernel

/-- An idle machine with L1's frame, a host write in flight just past it, and a side-effect byte just before it. -/
def quietL1 : State :=
  { State.reset with
    cfg := { Config.specExample with sideEffects := [0x0FFF] }
    fbBase := 0x1000, fbSize := 0x000A000A, fbStride := 40, posted := [(0x1190, 1)]
    events := [.wr 0x24 4 2] }

theorem witness_CmdWriteIdleLatchesTheSnapshot :
    quietL1.events = [.wr 0x24 4 2] ∧ quietL1.status.busy = false ∧
    (∀ c ∈ quietL1.posted, (quietL1.snapshot 2).ownsByte c.1 = false) ∧
    (∀ a ∈ quietL1.cfg.sideEffects, (quietL1.snapshot 2).ownsByte a = false) := by
  have h1 : (quietL1.snapshot 2).ownsByte 0x1190 = false := by decide +kernel
  have h2 : (quietL1.snapshot 2).ownsByte 0x0FFF = false := by decide +kernel
  refine ⟨rfl, rfl, fun c hc => ?_, fun a ha => ?_⟩
  · obtain rfl := List.mem_singleton.1 hc
    exact h1
  · obtain rfl := List.mem_singleton.1 ha
    exact h2

theorem witness_CmdWriteBusyOnlySetsOverrun :
    (withMove (.wr 0x24 4 0) (accepted (snapL1 2 0 0))).events = [.wr 0x24 4 0] ∧
    (accepted (snapL1 2 0 0)).status.busy = true := by decide +kernel

theorem witness_OddRegisterAccessRefused :
    (withMove (.rd 0x40 4) State.reset).events = [.rd 0x40 4] ∧ 0x3C < 0x40 ∧
    (withMove (.wr 0x18 2 0) State.reset).events = [.wr 0x18 2 0] ∧ 2 ≠ 4 ∧ 0x19 % 4 ≠ 0 ∧
    ((0xFFFFFFFF : Word) - State.reset.cfg.regBase).toNat = 63 ∧
    (withMove (.memRd .host 0xFFFFFFFF) State.reset).events = [.memRd .host 0xFFFFFFFF] ∧
    (2 < 4 ∧ ((0xFFFFFFBE : Word) + BitVec.ofNat 32 2 - State.reset.cfg.regBase).toNat < 64 ∧
      ¬((0xFFFFFFBE : Word) - State.reset.cfg.regBase).toNat ≤ 0x3C) ∧
    (0 < 2 ∧ ((0xFFFFFFC0 : Word) + BitVec.ofNat 32 0 - State.reset.cfg.regBase).toNat < 64 ∧ 2 ≠ 4) := by
  decide +kernel

/-- L1's last byte is lent to the host and to another agent while the command runs, to the host only after it has
completed; the byte after it is lent to nobody. -/
theorem witness_AccessToBorrowedByteFaults :
    64 ≤ (lastByte - State.reset.cfg.regBase).toNat ∧ 64 ≤ ((0xFFFFFFBF : Word) - State.reset.cfg.regBase).toNat ∧
    (accepted (snapL1 2 0 0)).LentByte .host lastByte ∧ (accepted (snapL1 2 0 0)).LentByte .other lastByte ∧
    doneL1.LentByte .host lastByte ∧ ¬doneL1.LentByte .other lastByte ∧
    ¬(accepted (snapL1 2 0 0)).LentByte .host 0x1190 ∧ ¬(accepted (snapL1 2 0 0)).LentByte .other 0x1190 ∧
    (withMove (.memRd .host lastByte) doneL1).events = [.memRd .host lastByte] ∧
    ({ doneL1 with posted := [(lastByte, 7)] } : State).posted = (lastByte, 7) :: [] ∧
    ([(0x1190, 1), (0x1190, 2), (0x1191, 3)] : List (Word × Byte)) = [(0x1190, 1)] ++ (0x1190, 2) :: [(0x1191, 3)] ∧
    Memory.wf doneL1.mem ∧
    (∃ t, step (withMove (.memWr .host 0x1190 2) { doneL1 with posted := [(0x1190, 1)] }) = .next t) ∧
    (∃ t, step (withMove .memDrain { doneL1 with posted := [(0x1190, 1)] }) = .next t) := by
  simp only [← State.borrowed_iff]
  exact ⟨by decide +kernel, by decide +kernel, by decide +kernel, by decide +kernel, by decide +kernel, by decide +kernel,
    by decide +kernel, by decide +kernel, rfl, trivial, rfl, by decide +kernel, ⟨_, rfl⟩, ⟨_, rfl⟩⟩

theorem witness_AcceptanceNeedsQuietOrdinaryMemory :
    quietL1.status.busy = false ∧ (quietL1.snapshot 2).Holds lastByte.toNat ∧
    (lastByte, (7 : Byte)) ∈ ({ quietL1 with posted := [(lastByte, 7)] } : State).posted ∧
    lastByte ∈ ({ quietL1 with cfg := { quietL1.cfg with sideEffects := [lastByte] }, posted := [] } :
      State).cfg.sideEffects :=
  ⟨rfl, (Snapshot.ownsByte_iff _ _).1 (by decide +kernel), by decide +kernel, by decide +kernel⟩

theorem witness_OperandWritesDoNotReachTheRunningCommand :
    0x20 ∈ [0x04, 0x0C, 0x10, 0x14, 0x18, 0x1C, 0x20] ∧ (accepted (snapL1 2 0 0)).progress ≠ .idle ∧
    ∃ t, exec .line (accepted (snapL1 2 0 0x00010003)) = .next t :=
  ⟨by decide +kernel, by decide +kernel, _, rfl⟩

theorem witness_NopOnlyCompletes :
    (accepted (snapL1 0x10 0 0)).events = [] ∧ (accepted (snapL1 0x10 0 0)).progress = .running .start ∧
    field (accepted (snapL1 0x10 0 0)).latch.cmd 0 4 = 0 ∧ (accepted (snapL1 0x10 0 0)).latch.cmd ≠ 0 := by decide +kernel

theorem witness_CommandEndsOneWay :
    (∃ t, exec .nop (accepted (snapL1 0 0 0)) = .next t) ∧ (∃ t, exec (.plot 8) (accepted (snapL1 0x81 0 0)) = .next t) ∧
    (∃ t, exec .line (accepted (snapL1 2 0 0x00010003)) = .next t) ∧
    (∃ t, exec .mbegin (accepted (snapL1 3 0 0x00010003)) = .next t) ∧
    (∃ t, exec .medge (fillF1 0) = .next t) ∧ (∃ t, exec .fill (fillF1 0x00030003) = .next t) :=
  ⟨⟨_, rfl⟩, ⟨_, rfl⟩, ⟨_, rfl⟩, ⟨_, rfl⟩, ⟨_, rfl⟩, ⟨_, rfl⟩⟩

theorem witness_NoCommandTouchesTheHostSide :
    (∃ t, exec .fill (fillF1 0x00030003) = .next t ∧ t.status.errcode ≠ .busError) ∧ Instr.fill ≠ .mbegin :=
  ⟨⟨_, rfl, by decide +kernel⟩, by decide +kernel⟩

theorem witness_CompletionRaisesIrqWhenEnabled :
    (∃ t, exec .medge (accepted (snapL1 4 0 0)) = .next t) ∧
    (withMove (.wr 0x24 4 0) (accepted (snapL1 2 0 0))).events = [.wr 0x24 4 0] ∧
    (accepted (snapL1 2 0 0)).status.busy = true ∧ (0x00000001 : Word).getLsbD 1 = false :=
  ⟨⟨_, rfl⟩, rfl, rfl, by decide +kernel⟩

theorem witness_StartChecksReportTheFirstFailure :
    (accepted (snapL1 4 0 0)).status.maskValid = false ∧
    (fillF1 0).status.maskValid = true ∧ ({ snapL1 5 0 0 with fbBase := 2 } : Snapshot).aligned = false ∧
    (snapL1 3 0x00010005 0x00050001).x1 < (snapL1 3 0x00010005 0x00050001).x0 ∧
    (snapL1 3 0x00050001 0x00010005).y1 < (snapL1 3 0x00050001 0x00010005).y0 ∧
    (snapL1 3 0x00008000 0x00017FFF).x0 ≤ (snapL1 3 0x00008000 0x00017FFF).x1 ∧
    (snapL1 3 0x00008000 0x00017FFF).y0 ≤ (snapL1 3 0x00008000 0x00017FFF).y1 ∧
    ((8192 : Nat) : Int) < ((snapL1 3 0x00008000 0x00017FFF).x1 - (snapL1 3 0x00008000 0x00017FFF).x0 + 1 + 7) / 8 *
      ((snapL1 3 0x00008000 0x00017FFF).y1 - (snapL1 3 0x00008000 0x00017FFF).y0 + 1) := by decide +kernel

theorem witness_AlignmentIsOfBaseAndStride :
    (snapL1 1 0 0).fmt = .fmt0 ∧ (snapL1 1 0 0).aligned = true ∧ (snapL1 1 0 0).inFrame 9 9 = true ∧
    ({ snapL1 1 0 0 with fmt := .fmt1 } : Snapshot).fmt = .fmt1 ∧
    (accepted { snapL1 2 0 0 with fbStride := 18 }).latch.aligned = false ∧
    ∃ t, exec .line (accepted { snapL1 2 0 0 with fbStride := 18 }) = .next t ∧
      (accepted { snapL1 2 0 0 with fbStride := 18 }).status.errcode ≠ .align ∧ t.status.errcode = .align :=
  ⟨rfl, by decide +kernel, by decide +kernel, rfl, by decide +kernel, _, rfl, by decide +kernel, by decide +kernel⟩

/-- L1 with the hole at 0x1008, at progress `k`. -/
def holeAt (k : Cont) : State :=
  { accepted (snapL1 2 0 0x00010003) with
    cfg := { Config.specExample with busHoles := hole1008 }
    progress := .running k }

/-- F1 at its second row's column 2 of step 4, where both rows take a seed, with two places in the store. -/
def rowsF1 (seeds : List Seed) : State :=
  { fillF1 0x00030003 with
    cfg := { Config.specExample with seedDepth := 2 }
    seeds := seeds
    progress := .running (.fill (.rows 2 2 3 false false)) }

theorem witness_RefusedAccessOrFullPushEndsTheCommand :
    (holeAt (.plots [{ x := 2, y := 0, cov := 5 }])).touches { x := 2, y := 0, cov := 5 } = true ∧
    (holeAt .start).admitsPixel ((holeAt .start).plotAddr { x := 2, y := 0, cov := 5 }) = false ∧
    (holeAt (.blendWrite 0x1008 0 [])).admitsPixel 0x1008 = false ∧
    (∃ s : State, s = { holeAt (.fill (.right 2 0 2)) with maskMax := 0x00000003 } ∧ s.mask 2 0 = false ∧
      2 < s.maskWidth ∧ s.imageInFrame 2 0 = true ∧ s.admitsPixel (s.imageAddr 2 0) = false) ∧
    ((rowsF1 []).pushesAt 2 2 false false = [(2, 3), (2, 1)] ∧
      ([] : List Seed).length + ((rowsF1 []).pushesAt 2 2 false false).length ≤ (rowsF1 []).cfg.seedDepth) ∧
    ((rowsF1 [(1, 1)]).pushesAt 2 2 false false ≠ [] ∧
      (rowsF1 [(1, 1)]).cfg.seedDepth < (rowsF1 [(1, 1)]).seeds.length + ((rowsF1 [(1, 1)]).pushesAt 2 2 false false).length) :=
  ⟨by decide +kernel, by decide +kernel, by decide +kernel, ⟨_, rfl, by decide +kernel, by decide +kernel, by decide +kernel,
    by decide +kernel⟩, by decide +kernel, by decide +kernel⟩

theorem witness_BlendIsPerChannelBetweenOldAndTarget : (1 ≤ 1 ∧ 1 ≤ 15) ∧ (1 ≤ 15 ∧ 15 ≤ 15) := by decide +kernel

theorem witness_PlotOutOfFrameOrEmptyOnlyCompletes :
    (snapL1 0x101 0x0000FFFF 0).aligned = true ∧ ¬(0 ≤ (snapL1 0x101 0x0000FFFF 0).x0) ∧
    ¬((snapL1 0x101 0x0000000A 0).x0 < (snapL1 0x101 0x0000000A 0).width) := by decide +kernel

theorem witness_PlotFullIsOneWriteOfTheColour :
    (accepted (snapL1 0x101 0x00090009 0)).latch.aligned = true ∧
    (snapL1 0x101 0x00090009 0).inFrame (snapL1 0x101 0x00090009 0).x0 (snapL1 0x101 0x00090009 0).y0 = true ∧
    16 ≤ 16 ∧ (accepted (snapL1 0x101 0x00090009 0)).admitsPixel 0x118C = true := by decide +kernel

theorem witness_PlotPartialReadsThenWritesTheBlend :
    (accepted (snapL1 0x0F1 0 0)).latch.aligned = true ∧ (snapL1 0x0F1 0 0).inFrame 0 0 = true ∧
    (snapL1 0x0F1 0 0).x0 = 0 ∧ (snapL1 0x0F1 0 0).y0 = 0 ∧ 1 ≤ 15 ∧ 15 ≤ 15 ∧
    (accepted (snapL1 0x0F1 0 0)).admitsPixel 0x1000 = true := by decide +kernel

theorem witness_PlotRefusedReportsBusError :
    (snapL1 0x101 0x00000002 0).aligned = true ∧ (snapL1 0x101 0x00000002 0).inFrame 2 0 = true ∧
    (snapL1 0x101 0x00000002 0).x0 = 2 ∧ (snapL1 0x101 0x00000002 0).y0 = 0 ∧
    (holeAt .start).admitsPixel ((snapL1 0x101 0x00000002 0).pixAddr 2 0) = false := by decide +kernel

theorem witness_PlottedBytesLieLittleEndianAtThePixelAddress :
    Memory.wf (accepted (snapL1 0x101 0x00090009 0)).mem ∧ (snapL1 0x101 0x00090009 0).aligned = true ∧
    (snapL1 0x101 0x00090009 0).x0 = (9 : Nat) ∧ (snapL1 0x101 0x00090009 0).y0 = (9 : Nat) ∧
    9 < field (snapL1 0x101 0x00090009 0).fbSize 0 16 ∧ 9 < field (snapL1 0x101 0x00090009 0).fbSize 16 16 ∧
    3 < (snapL1 0x101 0x00090009 0).fmt.bpp ∧
    (accepted (snapL1 0x101 0x00090009 0)).admitsPixel ((snapL1 0x101 0x00090009 0).pixAddr (9 : Nat) (9 : Nat)) = true ∧
    ∃ t, exec (.plot 16) (accepted (snapL1 0x101 0x00090009 0)) = .next t :=
  ⟨by decide +kernel, by decide +kernel, by decide +kernel, by decide +kernel, by decide +kernel, by decide +kernel, by decide +kernel, by decide +kernel, _, rfl⟩

theorem witness_DrawingLeavesEverythingElseAlone :
    (∃ t, exec (.plot 8) (accepted (snapL1 0x81 0 0)) = .next t) ∧
    (0x1004 : Nat) ∉ bytesAt ((accepted (snapL1 0x81 0 0)).plotAddr ((accepted (snapL1 0x81 0 0)).thePlot 8)) 4 ∧
    (∃ t, exec .line (accepted (snapL1 2 0 0x00010003)) = .next t) ∧
    (∀ p ∈ (accepted (snapL1 2 0 0x00010003)).theLine,
      (0x100C : Nat) ∉ bytesAt ((accepted (snapL1 2 0 0x00010003)).plotAddr p) 4) :=
  ⟨⟨_, rfl⟩, by decide +kernel, ⟨_, rfl⟩, by decide +kernel⟩

theorem witness_FullCoverageIsIdempotent :
    Memory.wf (accepted (snapL1 1 0 0)).mem ∧ 16 ≤ 16 ∧ (snapL1 1 0 0).inFrame 0 0 = true := by decide +kernel

theorem witness_LineMakesItsPlotsInOrder :
    (accepted (snapL1 2 0 0x00010003)).latch.aligned = true ∧
    ∀ p ∈ (accepted (snapL1 2 0 0x00010003)).theLine, (accepted (snapL1 2 0 0x00010003)).admitsPlot p = true := by
  decide +kernel

theorem witness_LineStopsAtTheFirstRefusedPlot :
    (holeAt .start).latch.aligned = true ∧
    (holeAt .start).theLine = (holeAt .start).theLine.take 4 ++ { x := 2, y := 0, cov := 5 } ::
      (holeAt .start).theLine.drop 5 ∧
    (∀ q ∈ (holeAt .start).theLine.take 4, (holeAt .start).admitsPlot q = true) ∧
    (holeAt .start).admitsPlot { x := 2, y := 0, cov := 5 } = false := by decide +kernel

theorem witness_EmptyFrameClipsEveryPixel :
    Snapshot.reset.aligned = true ∧ Snapshot.reset.width = 0 ∧ Snapshot.reset.height = 0 := by decide +kernel

/-- The flat (0,0)–(3,1), and the steep (1,3)–(0,0), whose endpoints change places. -/
theorem witness_WuLineIsTwoPlotsAStep :
    ((0 : Int) ≠ 3 ∧ (0 : Int) ≠ 1 ∧ false = decide ((3 - 0 : Int).natAbs < (1 - 0 : Int).natAbs) ∧
      ((0, 0, 3, 1) : Int × Int × Int × Int) = if (3 : Int) < 0 then (3, 1, 0, 0) else (0, 0, 3, 1)) ∧
    ((1 : Int) ≠ 0 ∧ (3 : Int) ≠ 0 ∧ true = decide ((0 - 1 : Int).natAbs < (0 - 3 : Int).natAbs) ∧
      ((0, 0, 3, 1) : Int × Int × Int × Int) = if (0 : Int) < 3 then (0, 0, 3, 1) else (3, 1, 0, 0)) := by decide +kernel

theorem witness_DegenerateLineIsTheExactSegment : (2 : Int) = 2 ∧ (-32768 : Int) = -32768 := by decide +kernel

theorem witness_WuLineMeetsItsEndpoints : (wuOrder (wuSwap 3 1 0 0)).a0 < (wuOrder (wuSwap 3 1 0 0)).a1 := by decide +kernel

theorem witness_WuQuotientRoundsAsItsModeSays : (0 : Int) < 3 ∧ (0 : Int) ≤ 16 ∧ (-16 : Int) < 0 := by decide +kernel

theorem witness_LineIgnoresItsDirection : ∃ t, exec .line (accepted (snapL1 2 0x00010003 0)) = .next t := ⟨_, rfl⟩

/-- The widest box, exactly at the capacity (M4), and a one-pixel box (M9). -/
theorem witness_MbeginDefinesAClearedMask :
    (snapL1 3 0x00008000 0x00007FFF).x0 ≤ (snapL1 3 0x00008000 0x00007FFF).x1 ∧
    (snapL1 3 0x00008000 0x00007FFF).y0 ≤ (snapL1 3 0x00008000 0x00007FFF).y1 ∧
    ((snapL1 3 0x00008000 0x00007FFF).x1 - (snapL1 3 0x00008000 0x00007FFF).x0 + 1 + 7) / 8 *
      ((snapL1 3 0x00008000 0x00007FFF).y1 - (snapL1 3 0x00008000 0x00007FFF).y0 + 1) ≤ ((8192 : Nat) : Int) ∧
    (snapL1 3 0x00030003 0x00030003).x0 ≤ (snapL1 3 0x00030003 0x00030003).x1 := by decide +kernel

theorem witness_MedgeBurnsTheVisitedPixels :
    (fillF1 0).status.maskValid = true ∧ (fillF1 0).inMask 4 4 = true := by decide +kernel

theorem witness_MidpointEdgeTracksTheExactLine :
    midpointEdge 0 0 2 1 = [(0, 0)] ++ (1, 0) :: (2, 1) :: [] := by decide +kernel

/-- The ties of (0,0)–(2,1) and of (0,0)–(1,2), at their first step. -/
theorem witness_MidpointTieDependsOnDirection :
    ((1 - 0 : Int).natAbs ≤ (2 - 0 : Int).natAbs ∧ 0 < (2 - 0 : Int).natAbs ∧ 0 < (2 - 0 : Int).natAbs ∧
      2 * (0 + 1) * (1 - 0 : Int).natAbs = 2 * (2 - 0 : Int).natAbs * 0 + (2 - 0 : Int).natAbs) ∧
    ((1 - 0 : Int).natAbs < (2 - 0 : Int).natAbs ∧ 0 ≤ (2 - 0 : Int).natAbs) := by decide +kernel

/-- A seed outside the domain (F2), and one on a set bit (F3). -/
theorem witness_FillFromNoSeedOnlyDropsTheMask :
    (fillF1 0).status.maskValid = true ∧ (fillF1 0).latch.aligned = true ∧
    (∀ lx ly : Nat, (fillF1 0).minX + lx = (fillF1 0).latch.x0 → (fillF1 0).minY + ly = (fillF1 0).latch.y0 →
      ¬(fillF1 0).Unset lx ly) ∧
    ¬(fillF1 0x00010001).Unset 0 0 := by
  have h1 : (fillF1 0).minX = 1 := by decide +kernel
  have h2 : (fillF1 0).latch.x0 = 0 := by decide +kernel
  refine ⟨rfl, by decide +kernel, fun lx ly h => ?_, ?_⟩
  · rw [h1, h2] at h
    omega
  · unfold State.Unset
    decide +kernel

theorem witness_FillWithoutErrorPaintsTheComponent :
    Memory.wf (fillF1 0x00030003).mem ∧ (fillF1 0x00030003).status.maskValid = true ∧
    (fillF1 0x00030003).latch.aligned = true ∧ (fillF1 0x00030003).status.err = false ∧
    ∃ t, exec .fill (fillF1 0x00030003) = .next t ∧ t.status.err = false :=
  ⟨by decide +kernel, rfl, by decide +kernel, rfl, _, rfl, by decide +kernel⟩

theorem witness_FillCompletesWhenTheStoreIsDeepEnough :
    2 * ((fillF1 0x00030003).maskWidth * (fillF1 0x00030003).maskHeight) + 1 ≤ (fillF1 0x00030003).cfg.seedDepth ∧
    ∀ a, (fillF1 0x00030003).admitsPixel a = true :=
  ⟨by decide +kernel, fun _ => rfl⟩

theorem witness_FillOnlyPaintsInsideTheComponent :
    Memory.wf (fillF1 0x00030003).mem ∧ (∃ t, exec .fill (fillF1 0x00030003) = .next t) ∧
    (fillF1 0x00030003).inMask 0 0 = true ∧ (fillF1 0x00030003).mask 0 0 = true ∧
    (fillF1 0x00030003).latch.aligned = true :=
  ⟨by decide +kernel, ⟨_, rfl⟩, by decide +kernel, by decide +kernel, by decide +kernel⟩

/-- The invariant holds of an accepted command. -/
theorem accepted_inv (cmd p0 p1 : Word) : (accepted (snapL1 cmd p0 p1)).Inv :=
  { config := (by decide : Config.specExample.Legal), memory := (by decide : Memory.wf [])
    maskRam := (by decide : MaskRam.wf [] 8192), busy := rfl, seeds := (by decide : 0 ≤ 64)
    maskFits := by intro h; cases h
    fill := rfl, aligned := rfl, lent := fun _ => List.mem_cons_self
    quiet := fun _ c hc => nomatch hc }

theorem witness_EveryStepKeepsTheInvariant :
    (accepted (snapL1 2 0 0x00010003)).Inv ∧ ∃ t, step (accepted (snapL1 2 0 0x00010003)) = .next t :=
  ⟨accepted_inv _ _ _, _, rfl⟩

theorem witness_EngineStepsRefineTheWholeCommand :
    (accepted (snapL1 5 0 0)).progress = .running .start ∧ decode (accepted (snapL1 5 0 0)).latch.cmd = .ok .fill := by
  decide +kernel

theorem witness_StatusChangesOnlyAsItsRulesSay :
    (∃ t, step (withMove (.wr 0x08 4 0x0000000E) State.reset) = .next t) ∧
    (∃ t, step (accepted (snapL1 3 0 0x00010003)) = .next t ∧ t.status.maskValid = true ∧ t.status.done = true) ∧
    (∃ t, step { fillF1 0x00030003 with latch := snapL1 3 0x00010005 0 } = .next t ∧
      (fillF1 0x00030003).status.maskValid = true ∧ t.status.maskValid = false ∧ t.status.err = true) ∧
    (∃ t, step (fillF1 0x00030003) = .next t ∧ t.status.maskValid = false ∧ t.status.busy = false) :=
  ⟨⟨_, rfl⟩, ⟨_, rfl, rfl, rfl⟩, ⟨_, rfl, rfl, rfl, rfl⟩, ⟨_, rfl, by decide +kernel, by decide +kernel⟩⟩

theorem witness_IdleMachineWaits : State.reset.progress = .idle ∧ State.reset.events = [] := by decide +kernel

theorem witness_WaitEndsWhenBusyReadsZero :
    (withMove .wait State.reset).events = [.wait] ∧ State.reset.status.busy = false ∧
    (accepted (snapL1 2 0 0x00010003)).Inv ∧ (accepted (snapL1 2 0 0x00010003)).status.busy = true :=
  ⟨rfl, rfl, accepted_inv _ _ _, rfl⟩

theorem witness_PointPacksItsCoordinates :
    pt (-32768) 32767 = some 0x7FFF8000 ∧ pt 32768 0 = none ∧ (31 : Nat) < 32 ∧
    ((32768, 0) : Int × Int) ∈ [((0, 0) : Int × Int), (32768, 0)] := by decide +kernel

theorem witness_StatementsStartTheirCommands :
    (31 : Nat) < 32 ∧ (-32768 : Int) ≤ -32768 ∧ (32767 : Int) ≤ 32767 ∧ State.reset.status.busy = false ∧
    State.reset.posted = [] ∧ State.reset.cfg.sideEffects = [] ∧
    (Stmt.medge 1 2 3 4, Instr.medge) ∈ [(Stmt.line 1 2 3 4, Instr.line), (.mbegin 1 2 3 4, .mbegin), (.medge 1 2 3 4, .medge)] := by
  decide +kernel

end Sys2Proof.Tests
end

section
/-! SUPPORT. What one engine step can do, said once: the work it does on the stores and on the bus, and the way it
leaves the command (10_state.md R44, 40_control.md R125, 60_exceptions.md R264). -/

namespace Sys2Proof.Machine

/-- From `s` to `u` the engine made no access and left memory, or made one admitted access of a pixel container
(20_memory.md R65, R68). -/
def State.OneAccess (s u : State) : Prop :=
  (u.trace = s.trace ∧ u.mem = s.mem) ∨
  (∃ a, s.admitsPixel a = true ∧ u.mem = s.mem ∧
    u.trace = { kind := .read, addr := a, size := s.latch.fmt.bpp } :: s.trace) ∨
  (∃ a v, s.admitsPixel a = true ∧ u.mem = storeLE s.mem a.toNat v s.latch.fmt.bpp ∧
    u.trace = { kind := .write, addr := a, size := s.latch.fmt.bpp } :: s.trace)

theorem State.OneAccess.none {s u : State} (ht : u.trace = s.trace) (hm : u.mem = s.mem) : s.OneAccess u :=
  .inl ⟨ht, hm⟩

theorem State.OneAccess.memory {s u : State} (h : s.OneAccess u) (hm : Memory.wf s.mem) : Memory.wf u.mem := by
  rcases h with ⟨-, e⟩ | ⟨a, -, e, -⟩ | ⟨a, v, -, e, -⟩
  · rwa [e]
  · rwa [e]
  · rw [e]
    exact storeLE_wf _ _ _ _ hm

/-- What an engine step does before it moves the command on: at most it changes the mask RAM, the seed store and, by one
access, memory; and it keeps the stores within their bounds. -/
structure State.Works (s u : State) : Prop where
  rest : s.FillRest u
  access : s.OneAccess u
  maskRam : s.fillInDomain = true → s.MaskFits → MaskRam.wf s.maskRam s.cfg.maskBytes →
    MaskRam.wf u.maskRam s.cfg.maskBytes
  seeds : s.cfg.Legal → s.SeedsFit → u.SeedsFit

theorem State.Works.refl (s : State) : s.Works s := ⟨rfl, .none rfl rfl, fun _ _ h => h, fun _ h => h⟩

theorem State.Works.read {s : State} {a : Word} (h : s.admitsPixel a = true) : s.Works (s.noteRead a) :=
  ⟨rfl, .inr (.inl ⟨a, h, rfl, rfl⟩), fun _ _ h => h, fun _ h => h⟩

theorem State.Works.write {s : State} {a : Word} (v : Word) (h : s.admitsPixel a = true) :
    s.Works (s.writePixel a v) :=
  ⟨rfl, .inr (.inr ⟨a, v.toNat, h, rfl, rfl⟩), fun _ _ h => h, fun _ h => h⟩

theorem State.Works.newSeeds {s : State} {new : List Seed}
    (h : s.cfg.Legal → s.SeedsFit → new.length ≤ s.cfg.seedDepth) : s.Works { s with seeds := new } :=
  ⟨rfl, .none rfl rfl, fun _ _ h => h, h⟩

/-- Marking a pixel of the domain of a valid mask. -/
theorem State.Works.mark {s : State} {x y : Nat}
    (h : s.fillInDomain = true → s.status.maskValid = true ∧ x < s.maskWidth ∧ y < s.maskHeight) :
    s.Works (s.mark x y) where
  rest := rfl
  access := .none rfl rfl
  maskRam hd hf hr := by
    obtain ⟨hv, hx, hy⟩ := h hd
    exact MaskRam.wf_set hr (State.maskBit_lt hx hy (hf hv).2.2)
  seeds _ h := h

/-- A write to the bus after a mark. -/
theorem State.Works.thenWrite {s u : State} (h : s.Works u) (hm : u.mem = s.mem) (ht : u.trace = s.trace) {a : Word}
    (v : Word) (ha : u.admitsPixel a = true) : s.Works (u.writePixel a v) where
  rest := h.rest
  access := by
    refine .inr (.inr ⟨a, v.toNat, by rw [← h.rest.admitsPixel, ha], ?_, ?_⟩)
    · rw [State.writePixel_mem, hm, h.rest.latch]
    · rw [State.writePixel_trace, ht, h.rest.latch]
  maskRam := h.maskRam
  seeds := h.seeds

/-- Dropping or burning one visited pixel keeps the form of a valid mask's RAM. -/
theorem maskSet_wf {s : State} (hf : rowBytes s.maskWidth * s.maskHeight ≤ s.cfg.maskBytes) (v : Int × Int)
    (h : MaskRam.wf s.maskRam s.cfg.maskBytes) : MaskRam.wf (maskSet v s).maskRam s.cfg.maskBytes := by
  unfold maskSet
  split
  · exact MaskRam.wf_set h (State.maskBit_lt (by omega) (by omega) hf)
  · exact h

theorem burn_wf (vs : List (Int × Int)) {s : State} (hf : rowBytes s.maskWidth * s.maskHeight ≤ s.cfg.maskBytes)
    (h : MaskRam.wf s.maskRam s.cfg.maskBytes) : MaskRam.wf (burn vs s).maskRam s.cfg.maskBytes := by
  induction vs generalizing s with
  | nil => exact h
  | cons v vs ih =>
    obtain ⟨r, hr⟩ := maskSet_frame v s
    have hw := maskSet_wf hf v h
    rw [burn_cons]
    rw [hr] at hw ⊢
    exact ih (s := { s with maskRam := r }) hf hw

theorem State.Works.burn {s : State} (hv : s.status.maskValid = true) (vs : List (Int × Int)) :
    s.Works (burn vs s) := by
  have hw := burn_wf vs (s := s)
  obtain ⟨r, hr⟩ := burn_frame vs s
  rw [hr] at hw ⊢
  exact ⟨rfl, .none rfl rfl, fun _ hf h => hw (hf hv).2.2 h, fun _ h => h⟩

/-- How an engine step from `s` can leave the command, an `MBEGIN` that succeeds apart: with the command going on, with its
completion, or with one of its errors. -/
inductive State.EngineMove (s : State) : State → Prop
  /-- The command goes on, and what it does next is aligned. -/
  | goesOn {u : State} (k : Cont) : s.Works u → (s.accessAligned = true → (u.goto k).accessAligned = true) →
      State.EngineMove s (u.goto k)
  | completes {u : State} : s.Works u → State.EngineMove s u.complete
  /-- A check at the start of a command that needs no more than its code. -/
  | fails (code : ErrCode) : State.EngineMove s (s.raise code)
  /-- A size check of `MBEGIN`. -/
  | failsBegin (code : ErrCode) : State.EngineMove s (failBegin code s)
  /-- A refused access of a plot. -/
  | refused (a : Word) : State.EngineMove s (s.busError a)
  | fillCompletes {u : State} : s.Works u → State.EngineMove s u.endFill.complete
  /-- A refused access of a fill. -/
  | fillRefused {u : State} (a : Word) : s.Works u →
      State.EngineMove s (State.raise .busError (State.endFill { u with faultAddr := a }))
  | fillOverflows {u : State} : s.Works u → State.EngineMove s (seedOverflow u)

/-! ### The first step of a command -/

/-- The box of a successful `MBEGIN`: ordered corners that the mask RAM holds (43_edge_mask.md R181). -/
def State.BoxFits (s : State) : Prop :=
  s.latch.x0 ≤ s.latch.x1 ∧ s.latch.y0 ≤ s.latch.y1 ∧
    boxBytes s.latch.x0 s.latch.y0 s.latch.x1 s.latch.y1 ≤ s.cfg.maskBytes

theorem beginMbegin_cases (s : State) :
    (∃ code, beginMbegin s = failBegin code s) ∨ (s.BoxFits ∧ beginMbegin s = (newMask s).complete) := by
  unfold beginMbegin
  split
  · exact .inl ⟨_, rfl⟩
  · split
    · exact .inl ⟨_, rfl⟩
    · exact .inr ⟨⟨by omega, by omega, by omega⟩, rfl⟩

theorem beginFill_move (s : State) : s.EngineMove (beginFill s) := by
  unfold beginFill startFill
  split
  · exact .fails _
  · split
    · exact .fails _
    · next ha =>
      split
      · exact .goesOn _ (.newSeeds fun hl _ => hl.2.1) fun _ => (by simpa using ha : s.latch.aligned = true)
      · exact .fillCompletes (.newSeeds fun _ _ => Nat.zero_le _)

/-- The first step of any command but a successful `MBEGIN`. -/
theorem begin_move (i : Instr) (s : State) :
    s.EngineMove (begin i s) ∨ (i = .mbegin ∧ s.BoxFits ∧ begin i s = (newMask s).complete) := by
  cases i with
  | nop => exact .inl (.completes (.refl s))
  | plot cov =>
    simp only [begin, beginPlot]
    split
    · exact .inl (.fails _)
    · next ha => exact .inl (.goesOn _ (.refl s) fun _ => (by simpa using ha : s.latch.aligned = true))
  | line =>
    simp only [begin, beginLine]
    split
    · exact .inl (.fails _)
    · next ha => exact .inl (.goesOn _ (.refl s) fun _ => (by simpa using ha : s.latch.aligned = true))
  | mbegin =>
    rcases beginMbegin_cases s with ⟨code, e⟩ | ⟨hbox, e⟩
    · exact .inl ((show begin .mbegin s = failBegin code s from e) ▸ .failsBegin code)
    · exact .inr ⟨rfl, hbox, e⟩
  | medge =>
    simp only [begin, beginMedge]
    split
    · exact .inl (.fails _)
    · next hv => exact .inl (.completes (.burn (by simpa using hv) _))
  | fill => exact .inl (beginFill_move s)

/-! ### The later steps -/

/-- The step at the head of a list of plots. -/
theorem stepPlots_move {s : State} {ps : List Plot} (hp : s.progress = .running (.plots ps)) :
    s.EngineMove (stepPlots ps s) := by
  have ha : s.accessAligned = s.latch.aligned := by rw [State.accessAligned, hp]
  cases ps with
  | nil => exact .completes (.refl s)
  | cons p rest =>
    show s.EngineMove (stepPlot p rest s)
    rcases stepPlot_cases p rest s with ⟨-, e⟩ | ⟨-, -, e⟩ | ⟨-, hadm, -, e⟩ | ⟨-, hadm, -, e⟩ <;> rw [e]
    · exact .goesOn _ (.refl s) fun h => ha.symm.trans h
    · exact .refused _
    · exact .goesOn _ (.write _ hadm) fun h => ha.symm.trans h
    · refine .goesOn _ (.read hadm) fun h => ?_
      have hal : s.latch.aligned = true := ha.symm.trans h
      show (s.latch.aligned && decide ((s.plotAddr p).toNat % s.latch.fmt.bpp = 0)) = true
      rw [hal, State.plotAddr, Snapshot.pixAddr_aligned _ _ _ hal]
      rfl

theorem stepBlendWrite_move {s : State} {a v : Word} {rest : List Plot}
    (hp : s.progress = .running (.blendWrite a v rest)) : s.EngineMove (stepBlendWrite a v rest s) := by
  unfold stepBlendWrite
  split
  · next hadm =>
    refine .goesOn _ (.write v hadm) fun h => ?_
    rw [State.accessAligned, hp] at h
    exact Bool.and_elim_left h
  · exact .refused a

section
variable {s : State} {p : FillPos} (hp : s.progress = .running (.fill p))
include hp

/-- What the invariant says of a running fill. -/
theorem State.fillInDomain_running : s.fillInDomain = true ↔
    s.status.maskValid = true ∧ p.inDomain s.maskWidth s.maskHeight = true ∧
      ∀ q ∈ s.seeds, s.inMask q.1 q.2 = true := by
  rw [State.fillInDomain, hp]
  simp only [Bool.and_eq_true, List.all_eq_true, and_assoc]

/-- A fill that goes on stays aligned. -/
theorem State.EngineMove.fillGoesOn {u : State} (q : FillPos) (h : s.Works u) : s.EngineMove (u.goto (.fill q)) := by
  refine .goesOn _ h fun ha => ?_
  rw [State.accessAligned, hp] at ha
  exact (congrArg Snapshot.aligned h.rest.latch).trans ha

/-- A paint of a domain pixel. -/
theorem paintThen_move {x y : Nat} (q : FillPos)
    (hd : p.inDomain s.maskWidth s.maskHeight = true → x < s.maskWidth ∧ y < s.maskHeight) :
    s.EngineMove (paintThen x y (.fill q) (s.mark x y)) := by
  have hmark : s.Works (s.mark x y) := .mark fun h => by
    obtain ⟨hv, hpos, -⟩ := (State.fillInDomain_running hp).1 h
    exact ⟨hv, hd hpos⟩
  unfold paintThen
  split
  · exact .fillGoesOn hp q hmark
  · split
    · exact .fillRefused _ hmark
    · next hadm => exact .fillGoesOn hp q (hmark.thenWrite rfl rfl _ (by simpa using hadm))

end

theorem stepFill_move {s : State} {p : FillPos} (hp : s.progress = .running (.fill p)) :
    s.EngineMove (stepFill p s) := by
  cases p with
  | pop =>
    simp only [stepFill, stepPop]
    split
    · exact .fillCompletes (.refl s)
    · next x y rest hs =>
      have hpop : s.Works { s with seeds := rest } := .newSeeds fun _ hfit => by
        have := (congrArg List.length hs).symm.trans_le hfit
        exact Nat.le_of_succ_le this
      split <;> exact .fillGoesOn hp _ hpop
  | right x y e =>
    simp only [stepFill, stepRight]
    split
    · next h =>
      refine paintThen_move hp _ fun hd => ?_
      simp only [FillPos.inDomain, decide_eq_true_eq] at hd
      exact ⟨h.1, hd.2.1⟩
    · exact .fillGoesOn hp _ (.refl s)
  | left y lo e =>
    simp only [stepFill, stepLeft]
    split
    · exact .fillGoesOn hp _ (.refl s)
    · next w =>
      split
      · refine paintThen_move hp _ fun hd => ?_
        simp only [FillPos.inDomain, decide_eq_true_eq] at hd
        exact ⟨by omega, hd.1⟩
      · exact .fillGoesOn hp _ (.refl s)
  | rows y c e la lb =>
    simp only [stepFill]
    rcases stepRows_frame y c e la lb s with ⟨-, h⟩ | ⟨-, new, -, -, hfit, h⟩
    · rw [h]
      exact .fillGoesOn hp _ (.refl s)
    · have hpush : s.Works (s.moreSeeds new) := .newSeeds fun _ => hfit
      rcases h with ⟨la', lb', h⟩ | h <;> rw [h]
      · exact .fillGoesOn hp _ hpush
      · exact .fillOverflows hpush

/-- One engine step: an idle engine rests; a running one makes a move, or is an `MBEGIN` that succeeds. -/
theorem engineStep_move (s : State) :
    (s.progress = .idle ∧ engineStep s = s) ∨ (s.progress ≠ .idle ∧ s.EngineMove (engineStep s)) ∨
      (s.progress = .running .start ∧ decode s.latch.cmd = .ok .mbegin ∧ s.BoxFits ∧
        engineStep s = (newMask s).complete) := by
  cases hp : s.progress with
  | idle => exact .inl ⟨rfl, engineStep_idle hp⟩
  | running k =>
    refine .inr ?_
    cases k with
    | start =>
      have e : engineStep s = firstStep s := by rw [engineStep, hp]
      rw [e, firstStep]
      cases hd : decode s.latch.cmd with
      | error err => exact .inl ⟨by simp, .fails _⟩
      | ok i =>
        rcases begin_move i s with h | ⟨rfl, hbox, h⟩
        · exact .inl ⟨by simp, h⟩
        · exact .inr ⟨rfl, rfl, hbox, h⟩
    | plots ps =>
      have e : engineStep s = stepPlots ps s := by rw [engineStep, hp]
      exact .inl ⟨by simp, e ▸ stepPlots_move hp⟩
    | blendWrite a v rest =>
      have e : engineStep s = stepBlendWrite a v rest s := by rw [engineStep, hp]
      exact .inl ⟨by simp, e ▸ stepBlendWrite_move hp⟩
    | fill p =>
      have e : engineStep s = stepFill p s := by rw [engineStep, hp]
      exact .inl ⟨by simp, e ▸ stepFill_move hp⟩

end Sys2Proof.Machine
end

section
/-! SUPPORT. The invariant of the machine along every move: the engine's, the host's, another agent's and the platform's
(10_state.md R42, 20_memory.md R66, R72, R73, 40_control.md R122, R125, 43_edge_mask.md R181, 60_exceptions.md R264). -/

namespace Sys2Proof.Machine

/-! ### The part of the invariant that speaks of the stores -/

/-- The invariant without what it says of the running command. -/
structure State.StoresOk (s : State) : Prop where
  config : s.cfg.Legal
  memory : Memory.wf s.mem
  maskRam : MaskRam.wf s.maskRam s.cfg.maskBytes
  seeds : s.SeedsFit
  maskFits : s.MaskFits

theorem State.Inv.stores {s : State} (h : s.Inv) : s.StoresOk := ⟨h.config, h.memory, h.maskRam, h.seeds, h.maskFits⟩

/-- An idle machine that is not busy owes nothing but its stores. -/
theorem State.StoresOk.idle {s : State} (h : s.StoresOk) (hp : s.progress = .idle) (hb : s.status.busy = false) :
    s.Inv where
  config := h.config
  memory := h.memory
  maskRam := h.maskRam
  busy := by rw [State.BusyAgrees, hp, hb]; rfl
  seeds := h.seeds
  maskFits := h.maskFits
  fill := by rw [State.fillInDomain, hp]
  aligned := by rw [State.accessAligned, hp]
  lent e := absurd (hb.symm.trans e) Bool.false_ne_true
  quiet e := absurd (hb.symm.trans e) Bool.false_ne_true

theorem State.StoresOk.complete {s : State} (h : s.StoresOk) : s.complete.Inv :=
  State.StoresOk.idle ⟨h.config, h.memory, h.maskRam, h.seeds, h.maskFits⟩ rfl rfl

theorem State.StoresOk.raise {s : State} (h : s.StoresOk) (code : ErrCode) : (s.raise code).Inv :=
  State.StoresOk.idle ⟨h.config, h.memory, h.maskRam, h.seeds, h.maskFits⟩ rfl rfl

theorem State.StoresOk.fault {s : State} (h : s.StoresOk) (a : Word) : ({ s with faultAddr := a } : State).StoresOk :=
  ⟨h.config, h.memory, h.maskRam, h.seeds, h.maskFits⟩

/-- A free value of the seed store fits it. -/
theorem State.StoresOk.endFill {s : State} (h : s.StoresOk) : s.endFill.StoresOk :=
  ⟨h.config, h.memory, h.maskRam, List.length_take_le _ _, fun e => absurd e Bool.false_ne_true⟩

/-- A failed `MBEGIN` leaves a free value in the mask RAM. -/
theorem State.StoresOk.failBegin {s : State} (h : s.StoresOk) (code : ErrCode) : (failBegin code s).Inv :=
  State.StoresOk.raise (s := s.dropMask.forgetMask)
    ⟨h.config, h.memory, MaskRam.wf_ofBits _ _, h.seeds, fun e => absurd e Bool.false_ne_true⟩ code

theorem one_le_extent {lo hi : Int} (h : lo ≤ hi) : 1 ≤ extent lo hi := by
  unfold extent
  omega

/-- A successful `MBEGIN` makes a valid mask that fits. -/
theorem State.StoresOk.newMask {s : State} (h : s.StoresOk) (hbox : s.BoxFits) : (newMask s).StoresOk where
  config := h.config
  memory := h.memory
  maskRam := MaskRam.wf_nil _
  seeds := h.seeds
  maskFits _ := by
    obtain ⟨hx, hy, hfit⟩ := hbox
    exact ⟨one_le_extent hx, one_le_extent hy, hfit⟩

/-- The work of an engine step keeps the stores. -/
theorem State.Works.stores {s u : State} (h : s.Works u) (hs : s.StoresOk) (hf : s.fillInDomain = true) :
    u.StoresOk where
  config := by rw [h.rest.cfg]; exact hs.config
  memory := h.access.memory hs.memory
  maskRam := by rw [h.rest.cfg]; exact h.maskRam hf hs.maskFits hs.maskRam
  seeds := h.seeds hs.config hs.seeds
  maskFits := by
    rw [State.MaskFits, h.rest.status, h.rest.maskWidth, h.rest.maskHeight, h.rest.cfg]
    exact hs.maskFits

/-! ### The engine's moves -/

/-- A running fill stays in its domain. -/
theorem engineStep_fillInDomain {s : State} (h : s.fillInDomain = true) : (engineStep s).fillInDomain = true := by
  by_cases hp : s.progress = .running .start
  · have e : engineStep s = firstStep s := by rw [engineStep, hp]
    rw [e, firstStep]
    split
    · rfl
    · exact (begin_begun _ s).1
  · exact (engineStep_fuel ⟨h, hp⟩).1.1

theorem State.Inv.busy_of_running {s : State} (h : s.Inv) (hp : s.progress ≠ .idle) : s.status.busy = true := by
  rw [h.busy]
  cases hs : s.progress with
  | idle => exact absurd hs hp
  | running k => rfl

/-- A command that goes on keeps the invariant; that a fill stays in its domain is known of the state reached. -/
theorem State.Inv.goesOn {s u : State} (h : s.Inv) (hp : s.progress ≠ .idle) (hw : s.Works u) {k : Cont}
    (ha : s.accessAligned = true → (u.goto k).accessAligned = true) (hf : (u.goto k).fillInDomain = true) :
    (u.goto k).Inv := by
  have hu := hw.stores h.stores h.fill
  have hside := hw.rest.sameHostSide
  have hbusy : u.status.busy = true := by rw [hw.rest.status, h.busy_of_running hp]
  exact
    { config := hu.config, memory := hu.memory, maskRam := hu.maskRam, busy := hbusy, seeds := hu.seeds
      maskFits := hu.maskFits, fill := hf, aligned := ha h.aligned
      lent := fun _ => by
        show u.latch ∈ u.lent
        rw [hside.latch, hside.lent]
        exact h.lent (h.busy_of_running hp)
      quiet := fun _ => by
        show ∀ c ∈ u.posted, u.latch.ownsByte c.1 = false
        rw [hside.latch, hside.posted]
        exact h.quiet (h.busy_of_running hp) }

theorem State.EngineMove.inv {s t : State} (hm : s.EngineMove t) (h : s.Inv) (hp : s.progress ≠ .idle)
    (hf : t.fillInDomain = true) : t.Inv := by
  cases hm with
  | goesOn k hw ha => exact h.goesOn hp hw ha hf
  | completes hw => exact (hw.stores h.stores h.fill).complete
  | fails code => exact h.stores.raise code
  | failsBegin code => exact h.stores.failBegin code
  | refused a => exact (h.stores.fault a).raise _
  | fillCompletes hw => exact (hw.stores h.stores h.fill).endFill.complete
  | fillRefused a hw => exact ((hw.stores h.stores h.fill).fault a).endFill.raise _
  | fillOverflows hw => exact (hw.stores h.stores h.fill).endFill.raise _

theorem engineStep_inv {s : State} (h : s.Inv) : (engineStep s).Inv := by
  have hf := engineStep_fillInDomain h.fill
  rcases engineStep_move s with ⟨-, e⟩ | ⟨hp, hm⟩ | ⟨-, -, hbox, e⟩
  · rwa [e]
  · exact hm.inv h hp hf
  · rw [e]
    exact (h.stores.newMask hbox).complete

theorem engineTurn_inv {s t : State} (h : s.Inv) (ht : engineTurn s = .next t) : t.Inv := by
  rw [engineTurn_eq] at ht
  obtain rfl := Host.Outcome.next.inj ht
  split
  · exact finish_induct (P := State.Inv) (fun _ => engineStep_inv) (engineStep_inv h)
  · exact finish_induct (P := State.Inv) (fun _ => engineStep_inv) h

/-! ### The moves of the host, of another agent and of the platform -/

/-- The state without what the invariant does not speak of: the host's registers and moves, the sticky flags, FAULT_ADDR
and the records. -/
def State.invCore (s : State) : State :=
  { s with
    ctrl := Ctrl.reset
    status := { s.status with done := false, err := false, ovr := false, errcode := .none }
    fbBase := 0, fbSize := 0, fbStride := 0, color := 0, p0 := 0, p1 := 0, faultAddr := 0
    events := [], hostReads := [], trace := [], freeCount := 0 }

theorem State.inv_invCore (s : State) : s.invCore.Inv ↔ s.Inv :=
  ⟨fun h => { h with }, fun h => { h with }⟩

/-- A move that leaves the core alone keeps the invariant. -/
theorem State.Inv.of_invCore {s t : State} (h : s.Inv) (e : t.invCore = s.invCore) : t.Inv :=
  t.inv_invCore.1 (e ▸ s.inv_invCore.2 h)

theorem State.Inv.events {s : State} (h : s.Inv) (rest : List Event) : ({ s with events := rest } : State).Inv :=
  h.of_invCore rfl

theorem State.Inv.giveHost {s : State} (h : s.Inv) (v : Word) : (s.giveHost v).Inv := h.of_invCore rfl

theorem State.Inv.overrun {s : State} (h : s.Inv) : s.overrun.Inv := h.of_invCore rfl

theorem State.Inv.writeReg {s : State} (h : s.Inv) (off : Nat) (v : Word) : (s.writeReg off v).Inv := by
  unfold State.writeReg
  split <;> exact h.of_invCore rfl

/-- The frames go back to the host only while no command runs. -/
theorem State.Inv.returnFrames {s : State} (h : s.Inv) (off : Nat) : (s.returnFrames off).Inv where
  __ := h
  lent hb := by
    have hb : s.status.busy = true := hb
    rw [State.returnFrames_lent, if_neg (by simp [hb])]
    exact h.lent hb

theorem hostRead_inv {s : State} (h : s.Inv) (off : Nat) : (hostRead off s).Inv := (h.returnFrames off).giveHost _

/-- Acceptance lends the frame, to which no write is in flight. -/
theorem State.Inv.accept {s : State} (h : s.Inv) (v : Word)
    (hq : ∀ c ∈ s.posted, (s.snapshot v).ownsByte c.1 = false) : (s.accept v).Inv where
  __ := h.stores
  busy := rfl
  fill := rfl
  aligned := rfl
  lent _ := List.mem_cons_self
  quiet _ := hq

theorem writeCmd_inv {s t : State} (h : s.Inv) {v : Word} (ht : writeCmd v s = .next t) : t.Inv := by
  unfold writeCmd at ht
  split at ht
  · obtain rfl := Host.Outcome.next.inj ht
    exact h.overrun
  · split at ht
    · exact nomatch ht
    · next hq =>
      split at ht
      · exact nomatch ht
      · obtain rfl := Host.Outcome.next.inj ht
        exact h.accept v (by simpa using hq)

theorem hostWrite_inv {s t : State} (h : s.Inv) {off : Nat} {v : Word} (ht : hostWrite off v s = .next t) : t.Inv := by
  unfold hostWrite at ht
  split at ht
  · exact writeCmd_inv h ht
  · obtain rfl := Host.Outcome.next.inj ht
    exact h.writeReg off v

/-- New memory in canonical form, with no write in flight to the running command's frame. -/
theorem State.Inv.newMemory {s : State} (h : s.Inv) {m : List Host.Cell} {posted : List (Word × Byte)}
    (hm : Memory.wf m) (hq : s.status.busy = true → ∀ c ∈ posted, s.latch.ownsByte c.1 = false) :
    ({ s with mem := m, posted := posted } : State).Inv where
  __ := h
  memory := hm
  quiet := hq

theorem readBy_inv {s : State} (h : s.Inv) (who : Agent) (a : Word) : (readBy who a s).Inv := by
  cases who with
  | host => exact h.giveHost _
  | other => exact h

theorem State.Inv.writeByte {s : State} (h : s.Inv) (a : Word) (v : Byte) : (s.writeByte a v).Inv :=
  h.newMemory (Memory.wf_write _ _ _ h.memory a.isLt) fun hb c hc => h.quiet hb c (List.mem_of_mem_filter hc)

/-- A write issued in flight goes to no byte of the running command's frame, for it would be a fault. -/
theorem memPost_inv {s t : State} (h : s.Inv) {a : Word} {v : Byte} (ht : memPost a v s = .next t) : t.Inv := by
  unfold memPost at ht
  rcases byteAccess_cases .host a s { s with posted := s.posted ++ [(a, v)] } with
    ⟨-, e⟩ | ⟨-, -, e⟩ | ⟨-, hfree, e⟩ <;> rw [e] at ht
  · exact nomatch ht
  · exact nomatch ht
  · obtain rfl := Host.Outcome.next.inj ht
    refine h.newMemory h.memory fun hb c hc => ?_
    rcases List.mem_append.1 hc with hc | hc
    · exact h.quiet hb c hc
    · obtain rfl := List.mem_singleton.1 hc
      rw [← Bool.not_eq_true, Snapshot.ownsByte_iff]
      exact fun hown => hfree (.inl ⟨hb, hown⟩)

theorem memDrain_inv {s t : State} (h : s.Inv) (ht : memDrain s = .next t) : t.Inv := by
  unfold memDrain at ht
  split at ht
  · obtain rfl := Host.Outcome.next.inj ht
    exact h
  · next a v rest hs =>
    obtain rfl := byteAccess_next ht
    exact h.newMemory (Memory.wf_write _ _ _ h.memory a.isLt) fun hb c hc =>
      h.quiet hb c (by rw [hs]; exact List.mem_cons_of_mem _ hc)

/-- Reset leaves an idle machine; the access in flight, when it lands, is an engine step's. -/
theorem resetInput_inv {s : State} (h : s.Inv) (lands : Bool) : (resetInput lands s).Inv := by
  refine State.StoresOk.idle ⟨h.config, ?_, MaskRam.wf_ofBits _ _, List.length_take_le _ _, ?_⟩ rfl rfl
  · cases lands with
    | false => exact h.memory
    | true => exact (engineStep_inv h).memory
  · exact fun e => absurd e Bool.false_ne_true

theorem waitTurn_inv {s t : State} (h : s.Inv) {rest : List Event} (ht : waitTurn rest s = .next t) : t.Inv := by
  unfold waitTurn at ht
  split at ht
  · exact engineTurn_inv h ht
  · obtain rfl := Host.Outcome.next.inj ht
    exact hostRead_inv (h.events rest) _

theorem takeEvent_inv {s t : State} (h : s.Inv) {e : Event} {rest : List Event}
    (ht : takeEvent e rest s = .next t) : t.Inv := by
  have hr := h.events rest
  cases e with
  | rd off size =>
    simp only [takeEvent] at ht
    split at ht
    · obtain rfl := Host.Outcome.next.inj ht
      exact hostRead_inv hr off
    · exact nomatch ht
  | wr off size v =>
    simp only [takeEvent] at ht
    split at ht
    · exact hostWrite_inv hr ht
    · exact nomatch ht
  | memRd who a =>
    obtain rfl := byteAccess_next ht
    exact readBy_inv hr who a
  | memWr who a v =>
    obtain rfl := byteAccess_next ht
    exact hr.writeByte a v
  | memPost a v => exact memPost_inv hr ht
  | memDrain => exact memDrain_inv hr ht
  | wait => exact waitTurn_inv h ht
  | engine =>
    obtain rfl := Host.Outcome.next.inj ht
    exact engineStep_inv hr
  | reset lands =>
    obtain rfl := Host.Outcome.next.inj ht
    exact resetInput_inv hr lands

theorem step_inv {s t : State} (h : s.Inv) (ht : step s = .next t) : t.Inv := by
  cases he : s.events with
  | nil => exact engineTurn_inv h ((step_of_events_nil he).symm.trans ht)
  | cons e rest => exact takeEvent_inv h ((step_of_events_cons he).symm.trans ht)

/-- Settles O54: each of the machine's moves keeps the invariant, by the rule of that move. -/
theorem everyStepKeepsTheInvariant : Obligations.EveryStepKeepsTheInvariant := fun _ _ => step_inv

theorem reset_inv : State.reset.Inv :=
  State.StoresOk.idle
    ⟨(by decide : Config.specExample.Legal), Memory.wf_nil, MaskRam.wf_nil _, Nat.zero_le _,
      fun e => absurd e Bool.false_ne_true⟩ rfl rfl

/-- Settles O53: an idle machine with empty stores. -/
theorem resetMeetsTheInvariant : Obligations.ResetMeetsTheInvariant := reset_inv

end Sys2Proof.Machine
end

section
/-! SUPPORT. What an engine step, and so a whole command, leaves alone; how the command's end shows in STATUS and in IRQ;
and that single engine steps come to the same end (10_state.md R43, R44, R45, 40_control.md R125, 60_exceptions.md R264). -/

namespace Sys2Proof.Machine

/-! ### One engine step -/

section
variable {s t : State} (hm : s.EngineMove t)
include hm

theorem State.EngineMove.access : s.OneAccess t := by
  cases hm with
  | goesOn _ hw | completes hw | fillCompletes hw | fillRefused _ hw | fillOverflows hw => exact hw.access
  | fails | failsBegin | refused => exact .none rfl rfl

theorem State.EngineMove.sameHostSide : s.SameHostSide t := by
  cases hm with
  | goesOn _ hw | completes hw | fillCompletes hw | fillRefused _ hw | fillOverflows hw =>
    exact hw.rest.sameHostSide.trans (by constructor <;> rfl)
  | fails | failsBegin | refused => constructor <;> rfl

theorem State.EngineMove.corners : t.maskMin = s.maskMin ∧ t.maskMax = s.maskMax := by
  cases hm with
  | goesOn _ hw | completes hw | fillCompletes hw | fillRefused _ hw | fillOverflows hw =>
    exact ⟨hw.rest.maskMin, hw.rest.maskMax⟩
  | fails | failsBegin | refused => exact ⟨rfl, rfl⟩

/-- A command that does not go on has reported its end. -/
theorem State.EngineMove.reported (ht : t.progress = .idle) : t.status.done = true ∨ t.status.err = true := by
  cases hm with
  | goesOn => exact nomatch ht
  | completes | fillCompletes => exact .inl rfl
  | fails | failsBegin | refused | fillRefused | fillOverflows => exact .inr rfl

end

/-- Settles O26: no first step makes an access, and a later one makes at most that of its work. -/
theorem engineStepMakesAtMostOneAccess : Obligations.EngineStepMakesAtMostOneAccess := by
  intro s
  show s.OneAccess (engineStep s)
  rcases engineStep_move s with ⟨-, e⟩ | ⟨-, hm⟩ | ⟨-, -, -, e⟩
  · rw [e]
    exact .none rfl rfl
  · exact hm.access
  · rw [e]
    exact .none rfl rfl

theorem newMask_sameHostSide (s : State) : s.SameHostSide (newMask s).complete := by constructor <;> rfl

theorem engineStep_sameHostSide (s : State) : s.SameHostSide (engineStep s) := by
  rcases engineStep_move s with ⟨-, e⟩ | ⟨-, hm⟩ | ⟨-, -, -, e⟩
  · rw [e]
    exact .refl s
  · exact hm.sameHostSide
  · rw [e]
    exact newMask_sameHostSide s

theorem begin_sameHostSide (i : Instr) (s : State) : s.SameHostSide (begin i s) := by
  rcases begin_move i s with hm | ⟨-, -, e⟩
  · exact hm.sameHostSide
  · rw [e]
    exact newMask_sameHostSide s

/-! ### A whole command -/

theorem exec_next {i : Instr} {s t : State} (h : exec i s = .next t) : t = finish (begin i s) := by
  rw [exec_eq] at h
  exact (Host.Outcome.next.inj h).symm

theorem exec_sameHostSide {i : Instr} {s t : State} (h : exec i s = .next t) : s.SameHostSide t := by
  rw [exec_next h]
  exact finish_induct (P := s.SameHostSide) (fun u hu => hu.trans (engineStep_sameHostSide u)) (begin_sameHostSide i s)

theorem exec_keepsOrEnds {i : Instr} {s t : State} (h : exec i s = .next t) : s.KeepsOrEnds t := by
  rw [exec_next h]
  exact runEngine_keepsOrEnds s _ (begin_keepsOrEnds i s)

/-- FAULT_ADDR changes only with BUS_ERROR. -/
theorem State.KeepsOrEnds.faultAddr {s t : State} (h : s.KeepsOrEnds t) (hc : t.status.errcode ≠ .busError) :
    t.faultAddr = s.faultAddr := by
  rcases h with ⟨-, hf⟩ | hend
  · exact hf
  · rcases hend.how with ⟨-, -, -, hf⟩ | ⟨-, -, -, hf⟩
    · exact hf
    · exact hf.resolve_right hc

/-- Past its first step no command moves the corners of the mask. -/
theorem engineStep_corners {s : State} (hp : s.progress ≠ .running .start) :
    (engineStep s).maskMin = s.maskMin ∧ (engineStep s).maskMax = s.maskMax := by
  rcases engineStep_move s with ⟨-, e⟩ | ⟨-, hm⟩ | ⟨hs, -⟩
  · rw [e]
    exact ⟨rfl, rfl⟩
  · exact hm.corners
  · exact absurd hs hp

theorem finish_corners {s : State} (hp : s.progress ≠ .running .start) :
    (finish s).maskMin = s.maskMin ∧ (finish s).maskMax = s.maskMax := by
  refine (finish_induct
    (P := fun u => (u.maskMin = s.maskMin ∧ u.maskMax = s.maskMax) ∧ u.progress ≠ .running .start)
    (fun u hu => ?_) ⟨⟨rfl, rfl⟩, hp⟩).1
  obtain ⟨⟨hmin, hmax⟩, hu⟩ := hu
  obtain ⟨emin, emax⟩ := engineStep_corners hu
  exact ⟨⟨emin.trans hmin, emax.trans hmax⟩, engineStep_not_start u⟩

theorem exec_corners {i : Instr} {s t : State} (h : exec i s = .next t) (hi : i ≠ .mbegin) :
    t.maskMin = s.maskMin ∧ t.maskMax = s.maskMax := by
  rw [exec_next h]
  obtain ⟨emin, emax⟩ := finish_corners (begin_begun i s).2
  rcases begin_move i s with hm | ⟨rfl, -⟩
  · exact ⟨emin.trans hm.corners.1, emax.trans hm.corners.2⟩
  · exact absurd rfl hi

/-- Settles O21: every engine step of a command leaves these alone. -/
theorem noCommandTouchesTheHostSide : Obligations.NoCommandTouchesTheHostSide := fun _ _ _ h =>
  ⟨exec_sameHostSide h, (exec_keepsOrEnds h).faultAddr, exec_corners h⟩

/-! ### IRQ -/

/-- A command that is over has set DONE or ERR. -/
theorem exec_reported {i : Instr} {s t : State} (h : exec i s = .next t) :
    t.status.done = true ∨ t.status.err = true := by
  rw [exec_next h]
  refine finish_induct (P := fun u => u.progress = .idle → u.status.done = true ∨ u.status.err = true)
    (fun u hu hidle => ?_) (fun hidle => ?_) (finish_progress (begin_begun i s))
  · rcases engineStep_move u with ⟨-, e⟩ | ⟨-, hm⟩ | ⟨-, -, -, e⟩
    · rw [e] at hidle ⊢
      exact hu hidle
    · exact hm.reported hidle
    · rw [e]
      exact .inl rfl
  · rcases begin_move i s with hm | ⟨-, -, e⟩
    · exact hm.reported hidle
    · rw [e]
      exact .inl rfl

theorem State.irq_iff (s : State) : s.irq = true ↔
    s.ctrl.ie = true ∧ (s.status.done = true ∨ s.status.err = true ∨ s.status.ovr = true) := by
  simp [State.irq, or_assoc]

/-- With a cause pending, IRQ is the enable bit. -/
theorem State.irq_of_cause {s : State} (h : s.status.done = true ∨ s.status.err = true ∨ s.status.ovr = true) :
    s.irq = s.ctrl.ie := by
  rw [Bool.eq_iff_iff, State.irq_iff]
  exact and_iff_left h

theorem exec_irq {i : Instr} {s t : State} (h : exec i s = .next t) : t.irq = s.ctrl.ie := by
  rw [State.irq_of_cause ((exec_reported h).imp_right .inl), (exec_sameHostSide h).ctrl]

/-- A `CMD` write to a busy engine is an overrun. -/
theorem step_overrun {s : State} {v : Word} {rest : List Event} (he : s.events = .wr 0x24 4 v :: rest)
    (hb : s.status.busy = true) : step s = .next (State.overrun { s with events := rest }) :=
  (step_of_events_cons he).trans (if_pos hb)

/-- Settles O22: the level, its rise at every end and at an overrun, and its fall. -/
theorem completionRaisesIrqWhenEnabled : Obligations.CompletionRaisesIrqWhenEnabled := by
  refine ⟨State.irq_iff, fun _ _ _ => exec_irq, fun s v rest he hb => ?_, fun s => ?_, fun s v hv => ⟨?_, rfl⟩⟩
  · exact ⟨_, step_overrun he hb, State.irq_of_cause (.inr (.inr rfl))⟩
  · simp [State.irq, State.writeReg, Status.writeOneToClear]
  · show (v.getLsbD 1 && _) = false
    rw [hv, Bool.false_and]

/-! ### Operand writes while a command runs -/

/-- A write of an operand register replaces the host's side alone. -/
theorem State.writeReg_operand {s t : State} {off : Nat} (hoff : off ∈ [0x04, 0x0C, 0x10, 0x14, 0x18, 0x1C, 0x20])
    (v : Word) (h : t.host = s.host) : t.writeReg off v = t.withHost (s.writeReg off v).host := by
  have ht : t.withHost s.host = t := by rw [← h, State.withHost_host]
  rw [← ht]
  simp only [List.mem_cons, List.not_mem_nil, or_false] at hoff
  rcases hoff with rfl | rfl | rfl | rfl | rfl | rfl | rfl <;> rfl

/-- Settles O17: the engine commutes with any change of the host's side, and an operand write is one. -/
theorem operandWritesDoNotReachTheRunningCommand : Obligations.OperandWritesDoNotReachTheRunningCommand := by
  intro s off v hoff
  refine ⟨fun _ => ?_, fun i t ht => ?_⟩
  · rw [State.writeReg_operand hoff v rfl, State.writeReg_operand hoff v (engineStep_host s), engineStep_withHost]
  · rw [State.writeReg_operand hoff v rfl, State.writeReg_operand hoff v (exec_host s i ht)]
    exact exec_withHost _ s i ht

/-! ### Single engine steps -/

theorem step_engine {s : State} {rest : List Event} (h : s.events = .engine :: rest) :
    step s = .next { engineStep s with events := rest } := by
  rw [step_of_events_cons h, takeEvent, engineStep_events]

/-- A begun command ends as it does when left to itself, however many single steps come first. -/
theorem run_engine_events (k : Nat) {u : State} (h : u.Begun) :
    Sys2Proof.core.run (k + 1) { u with events := List.replicate k .engine } =
      .next (finish { u with events := [] }) := by
  induction k generalizing u with
  | zero =>
    have e : step { u with events := [] } = .next (finish { u with events := [] }) := by
      rw [step_of_events_nil rfl, engineTurn_eq, if_neg h.2]
    exact run_next 0 e
  | succ k ih =>
    have e : step { u with events := List.replicate (k + 1) .engine } =
        .next { engineStep u with events := List.replicate k .engine } := by
      rw [step_engine rfl, engineStep_events]
    have hu : ({ u with events := [] } : State).Begun := h
    rw [run_next (k + 1) e, ih (engineStep_fuel h).1, ← engineStep_events, finish_engineStep hu]

/-- Settles O55: the first single step begins the command, and those after it do not change its end. -/
theorem engineStepsRefineTheWholeCommand : Obligations.EngineStepsRefineTheWholeCommand := by
  intro s i k hp hd
  cases k with
  | zero =>
    have e : step { s with events := [] } = exec i { s with events := [] } :=
      (step_of_events_nil rfl).trans (engineTurn_command hp hd)
    rw [exec_eq] at e ⊢
    exact run_next 0 e
  | succ k =>
    have hfirst : engineStep s = begin i s := by simp only [engineStep, hp, firstStep, hd]
    have e : step { s with events := List.replicate (k + 1) .engine } =
        .next { begin i s with events := List.replicate k .engine } := by
      rw [step_engine rfl, engineStep_events, hfirst]
    rw [run_next (k + 1) e, run_engine_events k (begin_begun i s), exec_eq, begin_events s i []]
    rfl

/-! ### An empty frame -/

/-- A frame without columns or without rows holds no pixel. -/
theorem State.touches_empty {s : State} (h : s.latch.width = 0 ∨ s.latch.height = 0) (p : Plot) :
    s.touches p = false := by
  have hout : s.latch.inFrame p.x p.y = false := by
    rw [← Bool.not_eq_true, Snapshot.inFrame_iff]
    omega
  rw [State.touches, hout, Bool.false_and]

theorem State.plottedAll_untouched {s : State} (ps : List Plot) (h : ∀ p ∈ ps, s.touches p = false) :
    State.plottedAll ps s = s := by
  induction ps with
  | nil => rfl
  | cons p ps ih =>
    rw [State.plottedAll_cons, State.plotted_none (h p List.mem_cons_self)]
    exact ih fun q hq => h q (List.mem_cons_of_mem p hq)

/-- Settles O37: no plot touches an empty frame. -/
theorem emptyFrameClipsEveryPixel : Obligations.EmptyFrameClipsEveryPixel := by
  intro s i hi hal hempty
  have hnone := State.touches_empty hempty
  show exec i s = .next s.complete
  rcases hi with rfl | ⟨cov, rfl⟩
  · rcases exec_line_cases s with ⟨ha, -⟩ | ⟨-, -, e⟩ | ⟨-, _, p, _, -, -, ht, -⟩
    · exact absurd (ha.symm.trans hal) Bool.false_ne_true
    · rw [e, State.plottedAll_untouched _ fun p _ => hnone p]
    · exact absurd ((hnone p).symm.trans ht) Bool.false_ne_true
  · rcases exec_plot_cases cov s with ⟨ha, -⟩ | ⟨-, -, e⟩ | ⟨-, ht, -⟩
    · exact absurd (ha.symm.trans hal) Bool.false_ne_true
    · rw [e, State.plotted_none (hnone _)]
    · exact absurd ((hnone _).symm.trans ht) Bool.false_ne_true

end Sys2Proof.Machine
end

section
/-! SUPPORT. What a step of the machine, whichever agent moves, can do to STATUS and to FAULT_ADDR (10_state.md R24, R34,
40_control.md R121 to R125, 60_exceptions.md R264, R268). -/

namespace Sys2Proof.Machine

/-- The engine ends the command that it runs, from `s` to `t`. -/
structure State.EndsRunning (s t : State) : Prop where
  running : s.progress ≠ .idle
  ends : s.Ends t
  mask : s.MaskRule t

/-- What a step that is no reset does to STATUS and FAULT_ADDR. -/
inductive State.StatusMove (s t : State) : Prop
  /-- Neither changes. -/
  | same : t.status = s.status → t.faultAddr = s.faultAddr → State.StatusMove s t
  /-- A host write of STATUS. -/
  | cleared (v : Word) (rest : List Event) : s.events = .wr 0x08 4 v :: rest →
      t.status = s.status.writeOneToClear v → t.faultAddr = s.faultAddr → State.StatusMove s t
  /-- A `CMD` write, dropped. -/
  | overran (v : Word) (rest : List Event) : s.events = .wr 0x24 4 v :: rest →
      t.status = { s.status with ovr := true } → t.faultAddr = s.faultAddr → State.StatusMove s t
  /-- A `CMD` write, accepted. -/
  | accepted (v : Word) (rest : List Event) : s.events = .wr 0x24 4 v :: rest →
      t.status = { s.status with busy := true } → t.faultAddr = s.faultAddr → State.StatusMove s t
  | ended : s.EndsRunning t → State.StatusMove s t

/-- A move of the engine either leaves both, or ends the command. -/
theorem State.StatusMove.ofEngine {s t : State} (hk : s.KeepsOrEnds t) (hr : s.MaskRule t)
    (hidle : s.progress = .idle → t = s) : s.StatusMove t := by
  by_cases hp : s.progress = .idle
  · rw [hidle hp]
    exact .same rfl rfl
  · rcases hk with ⟨hst, hf⟩ | hend
    · exact .same hst hf
    · exact .ended ⟨hp, hend, hr⟩

theorem engineStep_statusMove (s : State) : s.StatusMove (engineStep s) :=
  .ofEngine (engineStep_keepsOrEnds s) (engineStep_maskRule s) engineStep_idle

theorem engineTurn_keepsOrEnds {s t : State} (h : engineTurn s = .next t) : s.KeepsOrEnds t := by
  rw [engineTurn_eq] at h
  obtain rfl := Host.Outcome.next.inj h
  split
  · exact runEngine_keepsOrEnds s _ (engineStep_keepsOrEnds s)
  · exact runEngine_keepsOrEnds s _ (.refl s)

theorem engineTurn_statusMove {s t : State} (h : engineTurn s = .next t) : s.StatusMove t :=
  .ofEngine (engineTurn_keepsOrEnds h) (engineTurn_maskRule h) fun hp =>
    (Host.Outcome.next.inj ((engineTurn_idle hp).symm.trans h)).symm

theorem writeCmd_status {s t : State} {v : Word} (h : writeCmd v s = .next t) :
    t.faultAddr = s.faultAddr ∧
      (t.status = { s.status with ovr := true } ∨ t.status = { s.status with busy := true }) := by
  unfold writeCmd at h
  split at h
  · obtain rfl := Host.Outcome.next.inj h
    exact ⟨rfl, .inl rfl⟩
  · split at h
    · exact nomatch h
    · split at h
      · exact nomatch h
      · obtain rfl := Host.Outcome.next.inj h
        exact ⟨rfl, .inr rfl⟩

theorem readBy_status (who : Agent) (a : Word) (s : State) :
    (readBy who a s).status = s.status ∧ (readBy who a s).faultAddr = s.faultAddr := by
  cases who <;> exact ⟨rfl, rfl⟩

theorem memDrain_status {s t : State} (h : memDrain s = .next t) :
    t.status = s.status ∧ t.faultAddr = s.faultAddr := by
  unfold memDrain at h
  split at h
  · obtain rfl := Host.Outcome.next.inj h
    exact ⟨rfl, rfl⟩
  · obtain rfl := byteAccess_next h
    exact ⟨rfl, rfl⟩

theorem windowAccess_size {off size : Nat} (h : windowAccess off size = true) : size = 4 :=
  (of_decide_eq_true h).1

theorem hostWrite_statusMove {s t : State} {off : Nat} {v : Word} {rest : List Event}
    (he : s.events = .wr off 4 v :: rest) (h : hostWrite off v { s with events := rest } = .next t) :
    s.StatusMove t := by
  unfold hostWrite at h
  split at h
  · next hoff =>
    subst hoff
    obtain ⟨hf, hst | hst⟩ := writeCmd_status h
    · exact .overran v rest he hst hf
    · exact .accepted v rest he hst hf
  · obtain rfl := Host.Outcome.next.inj h
    obtain ⟨hst, hf⟩ := State.writeReg_status { s with events := rest } off v
    split at hst
    · next hoff =>
      subst hoff
      exact .cleared v rest he hst hf
    · exact .same hst hf

/-- What one move of an agent does to STATUS and FAULT_ADDR, reset apart. -/
theorem takeEvent_statusMove {s t : State} {e : Event} {rest : List Event} (he : s.events = e :: rest)
    (h : takeEvent e rest s = .next t) (hreset : ∀ lands, e ≠ .reset lands) : s.StatusMove t := by
  cases e with
  | rd off size =>
    simp only [takeEvent] at h
    split at h
    · obtain rfl := Host.Outcome.next.inj h
      exact .same rfl rfl
    · exact nomatch h
  | wr off size v =>
    simp only [takeEvent] at h
    split at h
    · next hw =>
      obtain rfl := windowAccess_size hw
      exact hostWrite_statusMove he h
    · exact nomatch h
  | memRd who a =>
    obtain rfl := byteAccess_next h
    obtain ⟨hst, hf⟩ := readBy_status who a { s with events := rest }
    exact .same hst hf
  | memWr who a v =>
    obtain rfl := byteAccess_next h
    exact .same rfl rfl
  | memPost a v =>
    obtain rfl := byteAccess_next h
    exact .same rfl rfl
  | memDrain =>
    obtain ⟨hst, hf⟩ := memDrain_status h
    exact .same hst hf
  | wait =>
    simp only [takeEvent, waitTurn] at h
    split at h
    · exact engineTurn_statusMove h
    · obtain rfl := Host.Outcome.next.inj h
      exact .same rfl rfl
  | engine =>
    obtain rfl := Host.Outcome.next.inj h
    rw [engineStep_events]
    cases engineStep_statusMove s with
    | same hst hf => exact .same hst hf
    | cleared v r h => exact nomatch he.symm.trans h
    | overran v r h => exact nomatch he.symm.trans h
    | accepted v r h => exact nomatch he.symm.trans h
    | ended h => exact .ended ⟨h.running, ⟨h.ends.idle, h.ends.busy, h.ends.ovr, h.ends.how⟩, h.mask⟩
  | reset lands => exact absurd rfl (hreset lands)

theorem step_statusMove {s t : State} (h : step s = .next t) :
    (∃ lands rest, s.events = .reset lands :: rest) ∨ s.StatusMove t := by
  cases he : s.events with
  | nil => exact .inr (engineTurn_statusMove ((step_of_events_nil he).symm.trans h))
  | cons e rest =>
    by_cases hr : ∃ lands, e = .reset lands
    · obtain ⟨lands, rfl⟩ := hr
      exact .inl ⟨lands, rest, rfl⟩
    · exact .inr (takeEvent_statusMove he ((step_of_events_cons he).symm.trans h) fun lands e => hr ⟨lands, e⟩)

/-! ### The rules of the flags -/

/-- A sticky flag stays, or its bit is written. -/
theorem stays_or_written {flag bit : Bool} (h : flag = true) : (flag && !bit) = true ∨ bit = true := by
  subst h
  cases bit
  · exact .inl rfl
  · exact .inr rfl

section
variable {s t : State} (h : s.EndsRunning t)
include h

theorem State.EndsRunning.reported : t.status.done = true ∨ t.status.err = true :=
  h.ends.how.imp (fun hd => hd.1) (fun he => he.2.1)

/-- Only an `MBEGIN` that succeeds makes a mask valid. -/
theorem State.EndsRunning.maskSet (ht : t.status.maskValid = true) : s.status.maskValid = true ∨
    (s.progress = .running .start ∧ decode s.latch.cmd = .ok .mbegin ∧ t.progress = .idle ∧
      t.status.done = true) := by
  rcases h.mask with e | ⟨-, hv, -⟩ | ⟨hi, hp, hd, ⟨-, hdone⟩ | ⟨hv, -⟩⟩
  · exact .inl (e ▸ ht)
  · exact absurd (hv.symm.trans ht) Bool.false_ne_true
  · exact .inr ⟨hp, hd, hi, hdone⟩
  · exact absurd (hv.symm.trans ht) Bool.false_ne_true

/-- Only an `MBEGIN` that fails and the end of a fill make a mask invalid. -/
theorem State.EndsRunning.maskCleared (hs : s.status.maskValid = true) : t.status.maskValid = true ∨
    (t.progress = .idle ∧
      ((s.progress = .running .start ∧ decode s.latch.cmd = .ok .mbegin ∧
          (t.status.errcode = .bboxInvalid ∨ t.status.errcode = .maskOverflow)) ∨
        (s.progress = .running .start ∧ decode s.latch.cmd = .ok .fill ∧ s.latch.aligned = true) ∨
        ∃ pos, s.progress = .running (.fill pos))) := by
  rcases h.mask with e | ⟨hi, -, hfill | hstart⟩ | ⟨hi, hp, hd, ⟨hv, -⟩ | ⟨-, hcode⟩⟩
  · exact .inl (e ▸ hs)
  · exact .inr ⟨hi, .inr (.inr hfill)⟩
  · exact .inr ⟨hi, .inr (.inl hstart)⟩
  · exact .inl hv
  · exact .inr ⟨hi, .inl ⟨hp, hd, hcode⟩⟩

end

/-- Settles O56: the rules follow from what a step can do to STATUS and FAULT_ADDR at all. -/
theorem statusChangesOnlyAsItsRulesSay : Obligations.StatusChangesOnlyAsItsRulesSay := by
  intro s t hstep
  refine (step_statusMove hstep).imp_right fun hmove => ?_
  cases hmove with
  | same hst hf =>
    rw [hst, hf]
    exact ⟨.inl, .inl, .inl, .inl, .inl, fun h => absurd rfl h, .inl, .inl, .inl, .inl, .inl, fun h => absurd rfl h⟩
  | cleared v rest he hst hf =>
    have hwritten : ∀ {n : Nat}, v.getLsbD n = true →
        ∃ v rest, s.events = .wr 0x08 4 v :: rest ∧ v.getLsbD n = true := fun h => ⟨v, rest, he, h⟩
    rw [hst, hf]
    exact ⟨fun h => (stays_or_written h).imp_right hwritten, fun h => (stays_or_written h).imp_right hwritten,
      fun h => (stays_or_written h).imp_right hwritten, fun h => .inl (Bool.and_elim_left h),
      fun h => .inl (Bool.and_elim_left h), fun h => absurd rfl h, .inl, .inl, fun h => .inl (Bool.and_elim_left h),
      .inl, .inl, fun h => absurd rfl h⟩
  | overran v rest he hst hf =>
    rw [hst, hf]
    exact ⟨.inl, .inl, fun _ => .inl rfl, .inl, .inl, fun h => absurd rfl h, .inl, .inl,
      fun _ => .inr ⟨v, rest, he⟩, .inl, .inl, fun h => absurd rfl h⟩
  | accepted v rest he hst hf =>
    rw [hst, hf]
    exact ⟨.inl, .inl, .inl, .inl, .inl, fun h => absurd rfl h, fun _ => .inr ⟨v, rest, he⟩, fun _ => .inl rfl,
      .inl, .inl, .inl, fun h => absurd rfl h⟩
  | ended h =>
    have hbusy : t.status.busy ≠ true := by simp [h.ends.busy]
    have hreport : t.status.busy = true ∨
        (s.progress ≠ .idle ∧ t.progress = .idle ∧ (t.status.done = true ∨ t.status.err = true)) :=
      .inr ⟨h.running, h.ends.idle, h.reported⟩
    have hovr : t.status.ovr = s.status.ovr := h.ends.ovr
    rcases h.ends.how with ⟨hd, he, hc, hf⟩ | ⟨hd, he, hc, hf⟩
    · exact ⟨fun _ => .inl hd, fun hs => .inl (he.trans hs), fun hs => .inl (hovr.trans hs),
        fun _ => .inr ⟨h.running, h.ends.idle, h.ends.busy, he, hc⟩, fun ht => .inl (he.symm.trans ht),
        fun hne => absurd hc hne, fun ht => absurd ht hbusy, fun _ => hreport, fun ht => .inl (hovr.symm.trans ht),
        h.maskSet, h.maskCleared, fun hne => absurd hf hne⟩
    · exact ⟨fun hs => .inl (hd.trans hs), fun _ => .inl he, fun hs => .inl (hovr.trans hs),
        fun ht => .inl (hd.symm.trans ht), fun _ => .inr ⟨h.running, h.ends.idle, h.ends.busy, hd, hc⟩,
        fun _ => ⟨he, h.ends.busy, hc⟩, fun ht => absurd ht hbusy, fun _ => hreport,
        fun ht => .inl (hovr.symm.trans ht), h.maskSet, h.maskCleared, hf.resolve_left⟩

end Sys2Proof.Machine
end

section
/-! SUPPORT. The register window: the bits of CTRL and STATUS as they read, reset values, reads, and the accesses that are
refused (10_state.md R22 to R36, R46; 40_control.md R120, R121). -/

namespace Sys2Proof.Machine

/-! ### CTRL and STATUS as words -/

theorem mul_bit (n : Nat) (b : Bool) : n * b.toNat = if b then n else 0 := by cases b <;> simp

theorem Ctrl.word_eq (c : Ctrl) :
    c.word = BitVec.ofNat 32 ((if c.fmt = .fmt1 then 1 else 0) + (if c.ie then 2 else 0)) := by
  have hfmt : c.fmt.bit.toNat = if c.fmt = .fmt1 then 1 else 0 := by cases c.fmt <;> rfl
  rw [Ctrl.word, hfmt, mul_bit]

theorem Status.word_eq (t : Status) :
    t.word = BitVec.ofNat 32 ((if t.busy then 1 else 0) + (if t.done then 2 else 0) + (if t.err then 4 else 0) +
      (if t.ovr then 8 else 0) + 16 * t.errcode.number + (if t.maskValid then 256 else 0)) := by
  rw [Status.word, ← Nat.one_mul t.busy.toNat]
  simp only [mul_bit]

/-- The four flags of STATUS, in its bits 0 to 3. -/
theorem testBit_flags : ∀ busy done err ovr : Bool, ∀ i < 4,
    (busy.toNat + 2 * done.toNat + 4 * err.toNat + 8 * ovr.toNat).testBit i = [busy, done, err, ovr].getD i false := by
  decide

theorem flags_lt (busy done err ovr : Bool) :
    busy.toNat + 2 * done.toNat + 4 * err.toNat + 8 * ovr.toNat < 2 ^ 4 := by
  have := busy.toNat_le
  have := done.toNat_le
  have := err.toNat_le
  have := ovr.toNat_le
  omega

/-- STATUS bit by bit: the flags below bit 4, ERRCODE and MASK_VALID from there on. -/
theorem Status.getLsbD_word (t : Status) {i : Nat} (hi : i < 32) :
    t.word.getLsbD i = if i < 4 then [t.busy, t.done, t.err, t.ovr].getD i false
      else (t.errcode.number + 16 * t.maskValid.toNat).testBit (i - 4) := by
  have e : t.busy.toNat + 2 * t.done.toNat + 4 * t.err.toNat + 8 * t.ovr.toNat + 16 * t.errcode.number +
      256 * t.maskValid.toNat = 2 ^ 4 * (t.errcode.number + 16 * t.maskValid.toNat) +
        (t.busy.toNat + 2 * t.done.toNat + 4 * t.err.toNat + 8 * t.ovr.toNat) := by ring
  rw [Status.word, e, BitVec.getLsbD_ofNat, Nat.testBit_two_pow_mul_add _ (flags_lt _ _ _ _), decide_eq_true hi,
    Bool.true_and]
  split
  · next h => exact testBit_flags _ _ _ _ i h
  · rfl

/-- The bits of 0xE are 1 to 3. -/
theorem getLsbD_clearable (i : Nat) : (0x0000000E : Word).getLsbD i = decide (1 ≤ i ∧ i < 4) := by
  by_cases hi : i < 4
  · revert i
    decide
  · have hz : (0x0000000E : Nat).testBit i = false :=
      Nat.testBit_lt_two_pow (lt_of_lt_of_le (by norm_num) (Nat.pow_le_pow_right (by norm_num) (not_lt.1 hi)))
    rw [show (0x0000000E : Word) = BitVec.ofNat 32 0x0000000E from rfl, BitVec.getLsbD_ofNat, hz, Bool.and_false]
    simp [hi]

/-- Settles O11: bit by bit. -/
theorem statusWriteClearsOnlyWrittenOnes : Obligations.StatusWriteClearsOnlyWrittenOnes := by
  intro s v
  show (s.status.writeOneToClear v).word = s.status.word &&& ~~~(v &&& 0x0000000E)
  refine BitVec.eq_of_getLsbD_eq fun i hi => ?_
  rw [BitVec.getLsbD_and, BitVec.getLsbD_not, BitVec.getLsbD_and, getLsbD_clearable, Status.getLsbD_word _ hi,
    Status.getLsbD_word _ hi, decide_eq_true hi, Bool.true_and]
  by_cases h4 : i < 4
  · rw [if_pos h4, if_pos h4]
    interval_cases i <;> simp [Status.writeOneToClear]
  · simp [h4, Status.writeOneToClear]

/-! ### Reset -/

theorem reset_readReg {off : Nat} (h : off ≠ 0x00) : State.reset.readReg off = 0 := by
  unfold State.readReg
  split
  · exact absurd rfl h
  all_goals rfl

/-- The registers after the reset input are those after power-on, whatever is free in the state. -/
theorem resetInput_readReg (lands : Bool) (s : State) (off : Nat) :
    (resetInput lands s).readReg off = State.reset.readReg off := rfl

/-- Settles O7: each register of a state just reset holds its reset value. -/
theorem resetGivesEveryRegisterItsValue : Obligations.ResetGivesEveryRegisterItsValue := by
  refine ⟨fun _ => rfl, ?_⟩
  rintro t (rfl | ⟨s, lands, rfl⟩)
  · exact ⟨rfl, fun _ => reset_readReg, rfl, rfl, rfl, rfl⟩
  · exact ⟨rfl, fun off h => (resetInput_readReg lands s off).trans (reset_readReg h), rfl, rfl, rfl, rfl⟩

/-! ### Reads -/

theorem step_hostRead {s : State} {off : Nat} {rest : List Event} (he : s.events = .rd off 4 :: rest)
    (hw : windowAccess off 4 = true) : step s = .next { s with
      events := rest, hostReads := s.readReg off :: s.hostReads
      lent := if off = 0x08 ∧ s.status.busy = false then [] else s.lent } := by
  rw [step_of_events_cons he]
  exact if_pos hw

/-- Settles O9: each of the sixteen offsets is an aligned word of the window, and reads its register. -/
theorem hostReadReturnsTheRegister : Obligations.HostReadReturnsTheRegister := by
  intro s off v rest he hv
  suffices h : windowAccess off 4 = true ∧ s.readReg off = v by
    obtain ⟨hw, rfl⟩ := h
    exact step_hostRead he hw
  simp only [List.mem_cons, List.not_mem_nil, or_false, Prod.mk.injEq] at hv
  rcases hv with ⟨rfl, rfl⟩ | ⟨rfl, rfl⟩ | ⟨rfl, rfl⟩ | ⟨rfl, rfl⟩ | ⟨rfl, rfl⟩ | ⟨rfl, rfl⟩ | ⟨rfl, rfl⟩ |
    ⟨rfl, rfl⟩ | ⟨rfl, rfl⟩ | ⟨rfl, rfl⟩ | ⟨rfl, rfl⟩ | ⟨rfl, rfl⟩ | ⟨rfl, rfl⟩ | ⟨rfl, rfl⟩ | ⟨rfl, rfl⟩ | ⟨rfl, rfl⟩
  case inr.inl => exact ⟨rfl, s.ctrl.word_eq⟩
  case inr.inr.inl => exact ⟨rfl, s.status.word_eq⟩
  all_goals exact ⟨rfl, rfl⟩

/-! ### Refused accesses -/

theorem windowAccess_false {off size : Nat} (h : size ≠ 4 ∨ off % 4 ≠ 0 ∨ 0x3C < off) :
    windowAccess off size = false := decide_eq_false (by omega)

theorem step_window_refused {s : State} {off size : Nat} {v : Word} {rest : List Event}
    (he : s.events = .rd off size :: rest ∨ s.events = .wr off size v :: rest)
    (h : size ≠ 4 ∨ off % 4 ≠ 0 ∨ 0x3C < off) : step s = .refused .registerAccess := by
  have hw : ¬windowAccess off size = true := by simp [windowAccess_false h]
  rcases he with he | he
  · exact (step_of_events_cons he).trans (if_neg hw)
  · exact (step_of_events_cons he).trans (if_neg hw)

theorem byteAccess_window {who : Agent} {a : Word} {s t : State} (h : (a - s.cfg.regBase).toNat < 64) :
    byteAccess who a s t = .refused .registerAccess := if_pos (decide_eq_true h)

theorem touchesWindow_of_byte {c : Config} {a : Word} {size k : Nat} (hk : k < size)
    (h : (a + BitVec.ofNat 32 k - c.regBase).toNat < 64) : touchesWindow c a size = true :=
  List.any_eq_true.2 ⟨k, List.mem_range.2 hk, decide_eq_true h⟩

/-- Settles O14: by the window test for register moves, and by the byte's place for memory moves. -/
theorem oddRegisterAccessRefused : Obligations.OddRegisterAccessRefused := by
  refine ⟨fun s off size v rest he h => step_window_refused he h, fun s who a v rest h he => ?_,
    fun s a v size k rest hk h hodd he => ?_⟩
  · rcases he with he | he | he
    · exact (step_of_events_cons he).trans (byteAccess_window h)
    · exact (step_of_events_cons he).trans (byteAccess_window h)
    · exact (step_of_events_cons he).trans (byteAccess_window h)
  · have ht := touchesWindow_of_byte hk h
    rw [busRead, if_pos ht, busWrite, if_pos ht] at he
    exact step_window_refused (off := (a - s.cfg.regBase).toNat) he (by omega)

end Sys2Proof.Machine
end

section
/-! SUPPORT. The frame-buffer space: how a move of memory ends on a lent and on any other byte, what it does to the host's
view (20_memory.md R72 to R75, 70_reset_and_hazards.md R300), and the acceptance of a `CMD` write (R67, R73). -/

namespace Sys2Proof.Machine

/-! ### Moves of memory as byte accesses -/

section
variable {s t : State} {who : Agent} {a : Word} {v : Byte} {rest : List Event} {later : List (Word × Byte)}

theorem step_memRd (he : s.events = .memRd who a :: rest) :
    step s = byteAccess who a { s with events := rest } (readBy who a { s with events := rest }) :=
  step_of_events_cons he

theorem step_memWr (he : s.events = .memWr who a v :: rest) :
    step s = byteAccess who a { s with events := rest } (State.writeByte a v { s with events := rest }) :=
  step_of_events_cons he

theorem step_memPost (he : s.events = .memPost a v :: rest) :
    step s = byteAccess .host a { s with events := rest }
      { s with events := rest, posted := s.posted ++ [(a, v)] } :=
  step_of_events_cons he

theorem step_memDrain_cons (he : s.events = .memDrain :: rest) (hp : s.posted = (a, v) :: later) :
    step s = byteAccess .host a { s with events := rest }
      { s with events := rest, posted := later, mem := Memory.write s.mem a.toNat v } := by
  rw [step_of_events_cons he, takeEvent, memDrain, hp]

theorem step_memDrain_nil (he : s.events = .memDrain :: rest) (hp : s.posted = []) :
    step s = .next { s with events := rest } := by
  rw [step_of_events_cons he, takeEvent, memDrain, hp]

theorem byteAccess_of_lent (hw : 64 ≤ (a - s.cfg.regBase).toNat) (hl : s.LentByte who a) :
    byteAccess who a s t = .fault .borrowBreach := by
  rcases byteAccess_cases who a s t with ⟨h, -⟩ | ⟨-, -, e⟩ | ⟨-, h, -⟩
  · omega
  · exact e
  · exact absurd hl h

theorem byteAccess_of_not_lent (hw : 64 ≤ (a - s.cfg.regBase).toNat) (hl : ¬s.LentByte who a) :
    byteAccess who a s t = .next t := by
  rcases byteAccess_cases who a s t with ⟨h, -⟩ | ⟨-, h, -⟩ | ⟨-, -, e⟩
  · omega
  · exact absurd h hl
  · exact e

/-- A host read of a byte that is not lent gives the host's view of it. -/
theorem step_hostMemRd (hw : 64 ≤ (a - s.cfg.regBase).toNat) (hl : ¬s.LentByte .host a)
    (he : s.events = .memRd .host a :: rest) (hv : s.hostByte a = v) :
    step s = .next { s with events := rest, hostReads := v.setWidth 32 :: s.hostReads } := by
  subst hv
  exact (step_memRd he).trans (byteAccess_of_not_lent hw hl)

/-! ### The host's view of memory along its moves (20_memory.md R75) -/

theorem readBy_hostByte (who : Agent) (a b : Word) (s : State) : (readBy who a s).hostByte b = s.hostByte b := by
  cases who <;> rfl

/-- A write, complete or issued in flight, is what the host then reads at its byte and leaves its view of the others. -/
theorem step_write_hostByte (hm : Memory.wf s.mem) (ht : step s = .next t)
    (he : s.events = .memWr who a v :: rest ∨ s.events = .memPost a v :: rest) (b : Word) :
    t.hostByte b = if b = a then v else s.hostByte b := by
  rcases he with he | he
  · obtain rfl := byteAccess_next ((step_memWr he).symm.trans ht)
    exact State.hostByte_writeByte { s with events := rest } a b v hm
  · obtain rfl := byteAccess_next ((step_memPost he).symm.trans ht)
    exact State.hostByte_post { s with events := rest } a b v

/-- Neither a read nor a write in flight that lands changes the host's view. -/
theorem step_read_or_drain_hostByte (hm : Memory.wf s.mem) (ht : step s = .next t)
    (he : s.events = .memRd who a :: rest ∨ s.events = .memDrain :: rest) (b : Word) :
    t.hostByte b = s.hostByte b := by
  rcases he with he | he
  · obtain rfl := byteAccess_next ((step_memRd he).symm.trans ht)
    exact readBy_hostByte who a b { s with events := rest }
  · cases hp : s.posted with
    | nil =>
      obtain rfl := Host.Outcome.next.inj ((step_memDrain_nil he hp).symm.trans ht)
      rfl
    | cons c later =>
      obtain rfl := byteAccess_next ((step_memDrain_cons he hp).symm.trans ht)
      exact State.hostByte_drain (s := { s with events := rest }) hp b hm

end

/-- Settles O15: every move of memory is one byte access, which faults on a lent byte and takes effect on any other. -/
theorem accessToBorrowedByteFaults : Obligations.AccessToBorrowedByteFaults := by
  intro s who a v rest later hw
  refine ⟨fun hl => ⟨fun he => ?_, fun he => ?_, ?_, ?_⟩, fun hl => ⟨?_, ?_, ?_, fun he => ?_, ?_, ?_⟩,
    fun t hm ht => ⟨step_write_hostByte hm ht, step_read_or_drain_hostByte hm ht⟩⟩
  · exact (step_memRd he).trans (byteAccess_of_lent hw hl)
  · exact (step_memWr he).trans (byteAccess_of_lent hw hl)
  · rintro rfl he
    exact (step_memPost he).trans (byteAccess_of_lent hw hl)
  · rintro rfl hp he
    exact (step_memDrain_cons he hp).trans (byteAccess_of_lent hw hl)
  · rintro rfl he
    exact (step_memRd he).trans (byteAccess_of_not_lent hw hl)
  · rintro rfl hn he
    exact step_hostMemRd hw hl he (State.hostByte_of_none hn)
  · rintro older newer rfl hp hn he
    exact step_hostMemRd hw hl he (State.hostByte_of_newest hp hn)
  · exact (step_memWr he).trans (byteAccess_of_not_lent hw hl)
  · rintro rfl he
    exact (step_memPost he).trans (byteAccess_of_not_lent hw hl)
  · rintro rfl hp he
    exact (step_memDrain_cons he hp).trans (byteAccess_of_not_lent hw hl)

/-! ### Acceptance -/

theorem step_writeCmd {s : State} {v : Word} {rest : List Event} (he : s.events = .wr 0x24 4 v :: rest) :
    step s = writeCmd v { s with events := rest } := step_of_events_cons he

theorem writeCmd_inFlight {s : State} {v a : Word} {b : Byte} (hb : s.status.busy = false)
    (hf : (s.snapshot v).Holds a.toNat) (hp : (a, b) ∈ s.posted) : writeCmd v s = .fault .writeInFlight := by
  have hany : (s.posted.any fun c => (s.snapshot v).ownsByte c.1) = true :=
    List.any_eq_true.2 ⟨(a, b), hp, (Snapshot.ownsByte_iff _ a).2 hf⟩
  rw [writeCmd, hb, hany]
  rfl

theorem writeCmd_sideEffect {s : State} {v a : Word} (hb : s.status.busy = false)
    (hf : (s.snapshot v).Holds a.toNat) (ha : a ∈ s.cfg.sideEffects) (hp : s.posted = []) :
    writeCmd v s = .refused .sideEffectMemory := by
  have hany : (s.cfg.sideEffects.any fun a => (s.snapshot v).ownsByte a) = true :=
    List.any_eq_true.2 ⟨a, ha, (Snapshot.ownsByte_iff _ a).2 hf⟩
  rw [writeCmd, hb, hp, hany]
  rfl

/-- Settles O16: acceptance looks at every write in flight, then at every byte with side effects. -/
theorem acceptanceNeedsQuietOrdinaryMemory : Obligations.AcceptanceNeedsQuietOrdinaryMemory := by
  intro s v a rest he hb hf
  rw [step_writeCmd he]
  exact ⟨fun b hp => writeCmd_inFlight hb hf hp, fun ha hp => writeCmd_sideEffect hb hf ha hp⟩

end Sys2Proof.Machine
end

section
/-! SUPPORT. Alignment: the commands that check it, and no other end with ALIGN (20_memory.md R66, 60_exceptions.md R262);
and the bytes of a plotted container (20_memory.md R62, R63). -/

namespace Sys2Proof.Machine

/-! ### Alignment -/

theorem Snapshot.aligned_fmt0 {l : Snapshot} (h : l.fmt = .fmt0) :
    l.aligned = true ↔ l.fbBase.toNat % 4 = 0 ∧ l.fbStride.toNat % 4 = 0 := by
  simp only [Snapshot.aligned, h, decide_eq_true_eq]

theorem Snapshot.aligned_fmt1 {l : Snapshot} (h : l.fmt = .fmt1) : l.aligned = true := by
  rw [Snapshot.aligned, h]

/-- The ALIGN check of a drawing command, which for `FILL` comes after NO_MASK. -/
theorem begin_misaligned {i : Instr} {s : State} (ha : s.latch.aligned = false)
    (hi : i = .line ∨ (∃ cov, i = .plot cov) ∨ (i = .fill ∧ s.status.maskValid = true)) :
    begin i s = s.raise .align := by
  rcases hi with rfl | ⟨cov, rfl⟩ | ⟨rfl, hv⟩
  · simp [begin, beginLine, ha]
  · simp [begin, beginPlot, ha]
  · simp [begin, beginFill, ha, hv]

theorem exec_misaligned {i : Instr} {s : State} (ha : s.latch.aligned = false)
    (hi : i = .line ∨ (∃ cov, i = .plot cov) ∨ (i = .fill ∧ s.status.maskValid = true)) :
    exec i s = .next (s.raise .align) := by
  rw [exec_eq, begin_misaligned ha hi, finish_idle rfl]

theorem State.plottedAll_status (ps : List Plot) (s : State) : (State.plottedAll ps s).status = s.status := by
  obtain ⟨m, tr, h⟩ := State.plottedAll_frame ps s
  rw [h]

theorem State.plotted_status (p : Plot) (s : State) : (State.plotted p s).status = s.status :=
  State.plottedAll_status [p] s

theorem burn_status (vs : List (Int × Int)) (s : State) : (burn vs s).status = s.status := by
  obtain ⟨r, h⟩ := burn_frame vs s
  rw [h]

/-- The loop of a fill ends with DONE and the old code, with BUS_ERROR or with SEED_OVERFLOW. -/
theorem State.FillEnd.errcode {s t : State} (h : s.FillEnd t) :
    t.status.errcode = s.status.errcode ∨ t.status.errcode = .busError ∨ t.status.errcode = .seedOverflow := by
  cases h with
  | done u _ hu =>
    have hc : u.status.errcode = s.status.errcode := by rw [hu.rest.status]
    exact .inl hc
  | refused => exact .inr (.inl rfl)
  | overflow => exact .inr (.inr rfl)

/-- An ALIGN that was not there before is from the check of `PLOT`, `LINE` or `FILL`, on a misaligned frame. -/
theorem exec_align {i : Instr} {s t : State} (h : exec i s = .next t) (hs : s.status.errcode ≠ .align)
    (ht : t.status.errcode = .align) : s.latch.aligned = false ∧ i ≠ .nop ∧ i ≠ .mbegin ∧ i ≠ .medge := by
  cases i with
  | nop =>
    obtain rfl := exec_next h
    exact absurd ht hs
  | plot cov =>
    rcases exec_plot_cases cov s with ⟨ha, -⟩ | ⟨-, -, e⟩ | ⟨-, -, -, e⟩
    · exact ⟨ha, by simp⟩
    · obtain rfl := Host.Outcome.next.inj (e.symm.trans h)
      exact absurd ht (by simpa [State.plotted_status] using hs)
    · obtain rfl := Host.Outcome.next.inj (e.symm.trans h)
      exact nomatch ht
  | line =>
    rcases exec_line_cases s with ⟨ha, -⟩ | ⟨-, -, e⟩ | ⟨-, _, _, _, -, -, -, -, e⟩
    · exact ⟨ha, by simp⟩
    · obtain rfl := Host.Outcome.next.inj (e.symm.trans h)
      exact absurd ht (by simpa [State.plottedAll_status] using hs)
    · obtain rfl := Host.Outcome.next.inj (e.symm.trans h)
      exact nomatch ht
  | mbegin =>
    rcases exec_mbegin_cases s with ⟨-, e⟩ | ⟨-, -, -, e⟩ | ⟨-, -, -, e⟩ <;>
      obtain rfl := Host.Outcome.next.inj (e.symm.trans h)
    · exact nomatch ht
    · exact nomatch ht
    · exact absurd ht hs
  | medge =>
    rcases exec_medge_cases s with ⟨-, e⟩ | ⟨-, e⟩ <;> obtain rfl := Host.Outcome.next.inj (e.symm.trans h)
    · exact nomatch ht
    · exact absurd ht (by simpa [burn_status] using hs)
  | fill =>
    rcases exec_fill_cases s with ⟨-, e⟩ | ⟨-, ha, -⟩ | ⟨-, -, -, e⟩ | ⟨-, -, u, e, hu⟩
    · obtain rfl := Host.Outcome.next.inj (e.symm.trans h)
      exact nomatch ht
    · exact ⟨ha, by simp⟩
    · obtain rfl := Host.Outcome.next.inj (e.symm.trans h)
      exact absurd ht hs
    · obtain rfl := Host.Outcome.next.inj (e.symm.trans h)
      have hc := hu.errcode
      rw [ht] at hc
      exact absurd hc (by simpa using hs.symm)

/-- Settles O24: the check is of base and stride alone, in FMT0 alone, and is the only source of ALIGN. -/
theorem alignmentIsOfBaseAndStride : Obligations.AlignmentIsOfBaseAndStride := by
  refine fun s => ⟨fun hf => ⟨Snapshot.aligned_fmt0 hf, fun ha x y _ => ?_⟩, Snapshot.aligned_fmt1,
    fun i ha hi => exec_misaligned ha hi, fun i t h hs ht => exec_align h hs ht⟩
  simpa only [hf, Fmt.bpp] using s.latch.pixAddr_aligned x y ha

/-! ### The bytes of a plotted container -/

/-- The bytes of a container's colour are those of the register, as many as the container has. -/
theorem Snapshot.colC_byte {l : Snapshot} {k : Nat} (hk : k < l.fmt.bpp) :
    BitVec.ofNat 8 (l.colC.toNat / 256 ^ k) = BitVec.ofNat 8 (l.color.toNat / 256 ^ k) := by
  cases hf : l.fmt with
  | fmt0 => rw [Snapshot.colC, hf]
  | fmt1 =>
    obtain rfl : k = 0 := by simpa [hf, Fmt.bpp] using hk
    apply BitVec.eq_of_toNat_eq
    simp only [Snapshot.colC, hf, field, BitVec.toNat_ofNat]
    omega

/-- The byte `k` after a pixel's address, in the arithmetic of 20_memory.md R62. -/
theorem Snapshot.pixAddr_byte (l : Snapshot) (x y k : Nat) :
    ((l.pixAddr x y).toNat + k) % 2 ^ 32 =
      (l.fbBase.toNat + y * l.fbStride.toNat + x * l.fmt.bpp + k) % 2 ^ 32 := by
  simp [Snapshot.pixAddr, Nat.mod_add_mod]

/-- Settles O32: the plot is one store of the colour container at the pixel's address. -/
theorem plottedBytesLieLittleEndianAtThePixelAddress :
    Obligations.PlottedBytesLieLittleEndianAtThePixelAddress := by
  intro s t x y k hm ha hx hy hxw hyh hk hadm h
  have haddr : s.plotAddr (s.thePlot 16) = s.latch.pixAddr x y := by
    simp only [State.plotAddr, State.thePlot, hx, hy]
  have htouch : s.touches (s.thePlot 16) = true := by
    have hin : s.latch.inFrame x y = true :=
      Snapshot.inFrame_iff.2 ⟨by omega, Int.ofNat_lt.2 hxw, by omega, Int.ofNat_lt.2 hyh⟩
    simp [State.touches, State.thePlot, hx, hy, hin]
  rcases exec_plot_cases 16 s with ⟨hna, -⟩ | ⟨-, -, e⟩ | ⟨-, -, hna, -⟩
  · exact absurd (hna.symm.trans ha) Bool.false_ne_true
  · obtain rfl := Host.Outcome.next.inj (e.symm.trans h)
    rw [State.complete_mem, State.plotted_full htouch le_rfl, State.writePixel_mem, haddr, ← Snapshot.pixAddr_byte,
      read_storeLE_byte _ _ _ _ _ hm hk (Fmt.bpp_le _), Snapshot.colC_byte hk]
  · rw [haddr] at hna
    exact absurd (hna.symm.trans hadm) Bool.false_ne_true

end Sys2Proof.Machine
end

section
/-! SUPPORT. Decoding and encoding as inverses of each other, on words and on bytes, and the rows of the encoding table
(30_encoding.md R90 to R97). -/

namespace Sys2Proof

/-! ### The opcode map -/

theorem opcode_ofOpcode {op : Nat} (h : op < 6) (cov : Nat) : opcode (ofOpcode op cov) = op := by
  interval_cases op <;> rfl

/-- The opcode map keeps the COV field of a legal word, which is 0 outside `PLOT`. -/
theorem coverageField_ofOpcode {op cov : Nat} (h : op = 1 ∨ cov = 0) : coverageField (ofOpcode op cov) = cov := by
  rcases h with rfl | rfl
  · rfl
  · unfold ofOpcode
    split <;> rfl

theorem ofOpcode_opcode (i : Instr) : ofOpcode (opcode i) (coverageField i) = i := by cases i <;> rfl

theorem wellFormed_ofOpcode (op : Nat) {cov : Nat} (h : cov < 32) : (ofOpcode op cov).WellFormed := by
  unfold ofOpcode
  split
  case h_2 => exact Instr.wellFormed_plot.2 h
  all_goals rfl

/-- Only `PLOT` has a COV field of its own. -/
theorem opcode_eq_one_or_coverageField_eq_zero (i : Instr) : opcode i = 1 ∨ coverageField i = 0 := by
  cases i with
  | plot cov => exact .inl rfl
  | nop | line | mbegin | medge | fill => exact .inr rfl

/-! ### Round trips -/

theorem decode_encode {i : Instr} (h : i.WellFormed) : decode (encode i) = .ok i := by
  obtain ⟨hop, hcov, hrsv⟩ := fields_encode i h
  rw [decode_eq_ok_iff, hop, hcov, ofOpcode_opcode]
  exact ⟨opcode_lt i, hrsv, opcode_eq_one_or_coverageField_eq_zero i, rfl⟩

theorem encode_decode {w : Word} {i : Instr} (h : decode w = .ok i) : i.WellFormed ∧ encode i = w := by
  obtain ⟨hop, hrsv, hcov, rfl⟩ := decode_eq_ok_iff.1 h
  refine ⟨wellFormed_ofOpcode _ (Machine.field_lt w 4 5), BitVec.eq_of_toNat_eq ?_⟩
  rw [encode, opcode_ofOpcode hop, coverageField_ofOpcode hcov, BitVec.toNat_ofNat]
  have := w.isLt
  have := word_eq_fields w
  omega

/-- A well-formed command has exactly one word. -/
theorem decode_eq_ok_iff_eq_encode {w : Word} {i : Instr} (h : i.WellFormed) : decode w = .ok i ↔ w = encode i := by
  constructor
  · intro hd
    exact (encode_decode hd).2.symm
  · rintro rfl
    exact decode_encode h

/-- A decoder consumes the four bytes of a word and no more (30_encoding.md R97). -/
theorem decodeBytes_bytesOfWord {w : Word} {i : Instr} (h : decode w = .ok i) (rest : List Byte) :
    decodeBytes (bytesOfWord w ++ rest) = .ok (i, rest) := by
  simp only [bytesOfWord, List.cons_append, List.nil_append, decodeBytes, wordOfBytes_bytesOfWord, h]

/-- Settles O1: from the fields of an encoded command. -/
theorem decodeOfEncodeIsTheCommand : Obligations.DecodeOfEncodeIsTheCommand := fun _ rest h =>
  ⟨decode_encode h, decodeBytes_bytesOfWord (decode_encode h) rest⟩

/-- Settles O2: a legal word is its fields, and its command has the same ones. -/
theorem encodeOfDecodeIsTheWord : Obligations.EncodeOfDecodeIsTheWord := fun _ _ => encode_decode

/-- Settles O5: each of the words is the encoding of its command. -/
theorem specWordsDecodeToTheirCommands : Obligations.SpecWordsDecodeToTheirCommands :=
  ⟨decode_encode (i := .nop) rfl, decode_encode (i := .plot 8) rfl, decode_encode (i := .plot 31) rfl,
    decode_encode (i := .line) rfl, decode_encode (i := .mbegin) rfl, decode_encode (i := .medge) rfl,
    decode_encode (i := .fill) rfl⟩

/-! ### The rows of the table -/

/-- A row without an operand holds one word, that of its command. -/
theorem decode_iff_fullMask {i : Instr} (h : i.WellFormed) (w : Word) :
    decode w = .ok i ↔ w &&& 0xFFFFFFFF = encode i := by
  rw [and_fullMask, decode_eq_ok_iff_eq_encode h]

theorem decode_iff_plotMask (w : Word) (cov : Nat) :
    decode w = .ok (.plot cov) ↔ w &&& 0xFFFFFE0F = 0x00000001 ∧ cov = field w 4 5 := by
  rw [and_plotMask]
  constructor
  · intro h
    obtain ⟨hwf, rfl⟩ := encode_decode h
    obtain ⟨hop, hcov, hrsv⟩ := fields_encode _ hwf
    exact ⟨⟨hop, hrsv⟩, hcov.symm⟩
  · rintro ⟨⟨hop, hrsv⟩, rfl⟩
    rw [decode_eq_ok_iff, hop]
    exact ⟨by decide, hrsv, .inl rfl, rfl⟩

/-- A command's word matches the command's row. -/
theorem encode_and_rowMask : ∀ i : Instr, i.WellFormed → encode i &&& rowMask i = rowMatch i
  | .nop => Laws.Row.nop
  | .plot cov => Laws.Row.plot cov
  | .line => Laws.Row.line
  | .mbegin => Laws.Row.mbegin
  | .medge => Laws.Row.medge
  | .fill => Laws.Row.fill

/-- Settles O3: one row at a time, and each legal word is in the row of its command. -/
theorem legalWordsMatchExactlyOneRow : Obligations.LegalWordsMatchExactlyOneRow := by
  intro w
  refine ⟨decode_iff_fullMask rfl w, decode_iff_plotMask w, decode_iff_fullMask rfl w, decode_iff_fullMask rfl w,
    decode_iff_fullMask rfl w, decode_iff_fullMask rfl w, ?_, ?_⟩
  · rintro ⟨i, h⟩
    obtain ⟨hwf, rfl⟩ := encode_decode h
    refine ⟨(rowMatch i, rowMask i), ?_, encode_and_rowMask i hwf⟩
    cases i <;> simp [rowMatch, rowMask]
  · rintro ⟨r, hr, h⟩
    simp only [List.mem_cons, List.not_mem_nil, or_false] at hr
    rcases hr with rfl | rfl | rfl | rfl | rfl | rfl
    · exact ⟨.nop, (decode_iff_fullMask rfl w).2 h⟩
    · exact ⟨.plot _, (decode_iff_plotMask w _).2 ⟨h, rfl⟩⟩
    · exact ⟨.line, (decode_iff_fullMask rfl w).2 h⟩
    · exact ⟨.mbegin, (decode_iff_fullMask rfl w).2 h⟩
    · exact ⟨.medge, (decode_iff_fullMask rfl w).2 h⟩
    · exact ⟨.fill, (decode_iff_fullMask rfl w).2 h⟩

/-! ### Illegal words -/

/-- The illegality tests of 30_encoding.md R94. -/
def Illegal (w : Word) : Prop :=
  6 ≤ field w 0 4 ∨ field w 9 23 ≠ 0 ∨ (field w 0 4 ≠ 1 ∧ field w 4 5 ≠ 0)

theorem decode_ne_ok_of_illegal {w : Word} (h : Illegal w) (i : Instr) : decode w ≠ .ok i := by
  intro hd
  obtain ⟨hop, hrsv, hcov, -⟩ := decode_eq_ok_iff.1 hd
  rcases h with h | h | ⟨h1, h2⟩
  · omega
  · exact h hrsv
  · exact hcov.elim h1 h2

theorem decode_of_not_illegal {w : Word} (h : ¬Illegal w) :
    decode w = .ok (ofOpcode (field w 0 4) (field w 4 5)) := by
  unfold Illegal at h
  exact decode_eq_ok_iff.2 ⟨by omega, by omega, by omega, rfl⟩

end Sys2Proof

namespace Sys2Proof.Machine

/-- The engine's turn on a latched illegal word. -/
theorem engineTurn_of_illegal {s : State} (hp : s.progress = .running .start) (h : Illegal s.latch.cmd) :
    engineTurn s = .next (s.raise .illegalCmd) := by
  cases hd : decode s.latch.cmd with
  | ok i => exact absurd hd (decode_ne_ok_of_illegal h i)
  | error e => exact engineTurn_illegal hp hd

/-- Settles O4: a word decodes unless it is illegal, and then the engine's turn raises. -/
theorem illegalWordRaisesIllegalCmd : Obligations.IllegalWordRaisesIllegalCmd := fun _ he hp =>
  ⟨fun h => ⟨decode_ne_ok_of_illegal h, (step_of_events_nil he).trans (engineTurn_of_illegal hp h)⟩,
    decode_of_not_illegal⟩

end Sys2Proof.Machine
end

section
/-! SUPPORT. The host program: the `WAIT` loop, packed points, and the moves that a statement expands to and how they
start its command (30_encoding.md R99, R100). -/

namespace Sys2Proof.Machine

/-! ### `WAIT` -/

/-- A command left to itself ends in its turn, and the host's side is as before. -/
theorem engineTurn_ends {s : State} (h : s.fillInDomain = true) :
    ∃ t, engineTurn s = .next t ∧ t.progress = .idle ∧ t.host = s.host := by
  rw [engineTurn_eq]
  refine ⟨_, rfl, ?_⟩
  split
  · exact ⟨finish_progress ⟨engineStep_fillInDomain h, engineStep_not_start s⟩,
      (runEngine_host (engineStep s) _).trans (engineStep_host s)⟩
  · next hp => exact ⟨finish_progress ⟨h, hp⟩, runEngine_host s _⟩

theorem step_wait_idle {s : State} {rest : List Event} (he : s.events = .wait :: rest) (hb : s.status.busy = false) :
    step s = .next { s with events := rest, hostReads := s.readReg 0x08 :: s.hostReads, lent := [] } := by
  rw [step_of_events_cons he, takeEvent, waitTurn, hb, if_neg Bool.false_ne_true, hostRead, State.returnFrames,
    if_pos ⟨rfl, hb⟩]
  rfl

theorem step_wait_busy {s : State} {rest : List Event} (he : s.events = .wait :: rest) (hb : s.status.busy = true) :
    step s = engineTurn s :=
  (step_of_events_cons he).trans (if_pos hb)

/-- Settles O58: the turn is the read of STATUS, or the engine's turn, which ends the command. -/
theorem waitEndsWhenBusyReadsZero : Obligations.WaitEndsWhenBusyReadsZero := by
  refine fun s rest he => ⟨step_wait_idle he, fun hinv hb => ?_⟩
  obtain ⟨t, ht, hidle, hhost⟩ := engineTurn_ends hinv.fill
  refine ⟨t, (step_wait_busy he hb).trans ht, congrArg HostSide.events hhost, ?_⟩
  rw [(engineTurn_inv hinv ht).busy, hidle]
  rfl

/-! ### Points -/

/-- A coordinate in range comes back from its 16 bits. -/
theorem sext16_emod {a : Int} (h : -32768 ≤ a) (h' : a ≤ 32767) : sext16 (a % 65536).toNat = a := by
  unfold sext16
  split <;> omega

/-- The fields of two packed coordinates. -/
theorem field_pack {a b : Nat} (ha : a < 65536) (hb : b < 65536) :
    (BitVec.ofNat 32 ((b <<< 16) ||| a)).toNat = (b <<< 16) ||| a ∧
      field (BitVec.ofNat 32 ((b <<< 16) ||| a)) 0 16 = a ∧ field (BitVec.ofNat 32 ((b <<< 16) ||| a)) 16 16 = b := by
  rw [← Nat.shiftLeft_add_eq_or_of_lt (i := 16) ha, Nat.shiftLeft_eq]
  simp only [field, BitVec.toNat_ofNat]
  omega

theorem inCoordRange_iff {a : Int} : inCoordRange a = true ↔ -32768 ≤ a ∧ a ≤ 32767 := decide_eq_true_iff

theorem pt_inRange {x y : Int} (hx : -32768 ≤ x) (hx' : x ≤ 32767) (hy : -32768 ≤ y) (hy' : y ≤ 32767) :
    ∃ w, pt x y = some w ∧ w.toNat = ((y % 65536).toNat <<< 16) ||| (x % 65536).toNat ∧
      coordX w = x ∧ coordY w = y := by
  obtain ⟨hw, hlo, hhi⟩ := field_pack (a := (x % 65536).toNat) (b := (y % 65536).toNat) (by omega) (by omega)
  refine ⟨_, if_pos ?_, hw, ?_, ?_⟩
  · rw [inCoordRange_iff.2 ⟨hx, hx'⟩, inCoordRange_iff.2 ⟨hy, hy'⟩]
    rfl
  · rw [coordX, hlo, sext16_emod hx hx']
  · rw [coordY, hhi, sext16_emod hy hy']

theorem pt_outOfRange {x y : Int} (h : x < -32768 ∨ 32767 < x ∨ y < -32768 ∨ 32767 < y) : pt x y = none := by
  refine if_neg ?_
  rw [Bool.and_eq_true, inCoordRange_iff, inCoordRange_iff]
  omega

/-! ### Rejected statements -/

section
variable {x y : Int} (h : pt x y = none)
include h

theorem twoPoints_first_rejected (u v : Int) (word : Word) : twoPoints x y u v word = none := by
  rw [twoPoints, h]
  rfl

theorem twoPoints_second_rejected (u v : Int) (word : Word) : twoPoints u v x y word = none := by
  rw [twoPoints, h]
  cases pt u v <;> rfl

theorem expand_fill_rejected : (Stmt.fill x y).expand = none := by
  rw [Stmt.expand, h]
  rfl

theorem expand_plot_rejected (cov : Nat) : (Stmt.plot x y cov).expand = none := by
  rw [Stmt.expand, h]
  exact ite_self none

/-- Each point of a polygon begins one of its edges. -/
theorem polyEdges_rejected (first : Int × Int) (ps : List (Int × Int)) :
    ∀ a, (x, y) ∈ a :: ps → polyEdges first a ps = none := by
  induction ps with
  | nil =>
    intro a ha
    obtain rfl := List.mem_singleton.1 ha
    rw [polyEdges, twoPoints_first_rejected h]
    rfl
  | cons b rest ih =>
    intro a ha
    rcases List.mem_cons.1 ha with rfl | hb
    · rw [polyEdges, twoPoints_first_rejected h]
      rfl
    · rw [polyEdges, ih b hb]
      cases twoPoints a.1 a.2 b.1 b.2 0x00000004 <;> rfl

theorem expand_polymask_rejected {ps : List (Int × Int)} (hps : (x, y) ∈ ps) : (Stmt.polymask ps).expand = none := by
  cases ps with
  | nil => exact absurd hps List.not_mem_nil
  | cons a rest => exact polyEdges_rejected h a rest a hps

end

theorem expand_plot_coverage_rejected (x y : Int) {cov : Nat} (h : 31 < cov) : (Stmt.plot x y cov).expand = none :=
  if_neg (by omega)

/-- Settles O59: a point in range packs and reads back, and one out of range rejects each statement that has it. -/
theorem pointPacksItsCoordinates : Obligations.PointPacksItsCoordinates := by
  refine fun x y => ⟨pt_inRange, fun h => ?_, fun h ps => expand_polymask_rejected (pt_outOfRange h),
    fun cov => expand_plot_coverage_rejected x y⟩
  have hpt := pt_outOfRange h
  exact ⟨hpt, expand_plot_rejected hpt, expand_fill_rejected hpt, fun u v =>
    ⟨twoPoints_first_rejected hpt u v _, twoPoints_second_rejected hpt u v _, twoPoints_first_rejected hpt u v _,
      twoPoints_second_rejected hpt u v _, twoPoints_first_rejected hpt u v _, twoPoints_second_rejected hpt u v _⟩⟩

/-! ### Expansions -/

theorem expand_plot {x y : Int} {a : Word} {cov : Nat} (hc : cov < 32) (ha : pt x y = some a) :
    (Stmt.plot x y cov).expand = some [writeTo .p0 a, writeTo .cmd (encode (.plot cov))] := by
  have hword : (cov <<< 4) ||| 1 = opcode (.plot cov) + 16 * coverageField (.plot cov) := by
    rw [← Nat.shiftLeft_add_eq_or_of_lt (by decide), Nat.shiftLeft_eq, opcode, coverageField]
    omega
  rw [Stmt.expand, if_pos hc, ha, hword]
  rfl

theorem expand_fill {x y : Int} {a : Word} (ha : pt x y = some a) :
    (Stmt.fill x y).expand = some [writeTo .p0 a, writeTo .cmd (encode .fill)] := by
  rw [Stmt.expand, ha]
  rfl

theorem twoPoints_eq {x y u v : Int} {a b : Word} (ha : pt x y = some a) (hb : pt u v = some b) (word : Word) :
    twoPoints x y u v word = some [writeTo .p0 a, writeTo .p1 b, writeTo .cmd word] := by
  rw [twoPoints, ha, hb]
  rfl

/-- The moves of one edge of a polygon. -/
def edgeMoves (e : (Int × Int) × Int × Int) : Option (List Event) := (Stmt.medge e.1.1 e.1.2 e.2.1 e.2.2).expand

/-- Moves of edges in order, each followed by `WAIT`. -/
def waitAfterEach (edges : List (List Event)) : List Event := (edges.map fun e => e ++ [.wait]).flatten

/-- The edges go from each point to the next, and from the last one to `first` (43_edge_mask.md R191). -/
theorem polyEdges_eq (first : Int × Int) (ps : List (Int × Int)) :
    ∀ a, polyEdges first a ps = (((a :: ps).zip (ps ++ [first])).mapM edgeMoves).map waitAfterEach := by
  induction ps with
  | nil =>
    intro a
    rw [polyEdges, List.nil_append, List.zip_cons_cons, List.zip_nil_left, List.mapM_cons, edgeMoves, Stmt.expand]
    cases twoPoints a.1 a.2 first.1 first.2 0x00000004 with
    | none => rfl
    | some e => simp [waitAfterEach]
  | cons b rest ih =>
    intro a
    rw [polyEdges, List.cons_append, List.zip_cons_cons, List.mapM_cons, ih b, edgeMoves, Stmt.expand]
    cases twoPoints a.1 a.2 b.1 b.2 0x00000004 with
    | none => rfl
    | some e => cases ((b :: rest).zip (rest ++ [first])).mapM edgeMoves <;> simp [waitAfterEach]

/-! ### From the moves to an accepted command -/

/-- An idle machine on which a `CMD` write is accepted whatever its frame. -/
structure State.Quiet (s : State) : Prop where
  idle : s.status.busy = false
  posted : s.posted = []
  sideEffects : s.cfg.sideEffects = []

theorem writeCmd_accepts {s : State} (h : s.Quiet) (v : Word) : writeCmd v s = .next (s.accept v) := by
  rw [writeCmd, h.idle, h.posted, h.sideEffects]
  rfl

theorem step_writeReg {s : State} {off : Nat} {v : Word} {rest : List Event} (he : s.events = .wr off 4 v :: rest)
    (hw : windowAccess off 4 = true) (hoff : off ≠ 0x24) :
    step s = .next (State.writeReg off v { s with events := rest }) := by
  rw [step_of_events_cons he, takeEvent, if_pos hw, hostWrite, if_neg hoff]

section
variable {s : State} {a b word : Word} {rest : List Event}

theorem step_writeP0 : step { s with events := writeTo .p0 a :: rest } = .next { s with p0 := a, events := rest } :=
  step_writeReg (off := 0x1C) (v := a) (rest := rest) rfl rfl (by decide)

theorem step_writeP1 : step { s with events := writeTo .p1 a :: rest } = .next { s with p1 := a, events := rest } :=
  step_writeReg (off := 0x20) (v := a) (rest := rest) rfl rfl (by decide)

theorem step_cmd (h : s.Quiet) :
    step { s with events := writeTo .cmd word :: rest } = .next (State.accept word { s with events := rest }) :=
  (step_writeCmd rfl).trans
    (writeCmd_accepts (s := { s with events := rest }) ⟨h.idle, h.posted, h.sideEffects⟩ word)

theorem run_onePoint (h : s.Quiet) :
    Sys2Proof.core.run 2 { s with events := [writeTo .p0 a, writeTo .cmd word] } =
      .next (State.accept word { s with p0 := a, events := [] }) :=
  (run_next 1 step_writeP0).trans
    (run_next 0 (step_cmd (s := { s with p0 := a }) ⟨h.idle, h.posted, h.sideEffects⟩))

theorem run_twoPoints (h : s.Quiet) :
    Sys2Proof.core.run 3 { s with events := [writeTo .p0 a, writeTo .p1 b, writeTo .cmd word] } =
      .next (State.accept word { s with p0 := a, p1 := b, events := [] }) :=
  (run_next 2 step_writeP0).trans ((run_next 1 (step_writeP1 (s := { s with p0 := a }))).trans
    (run_next 0 (step_cmd (s := { s with p0 := a, p1 := b }) ⟨h.idle, h.posted, h.sideEffects⟩)))

end

section
variable {s : State} (h : s.Quiet) {i : Instr} (hi : i.WellFormed) {st : Stmt} {a b : Word}
include h hi

/-- A statement that writes P0 and its command's word starts the command with that point latched. -/
theorem onePoint_starts (hst : st.expand = some [writeTo .p0 a, writeTo .cmd (encode i)]) :
    ∃ moves t, st.expand = some moves ∧ Sys2Proof.core.run 2 { s with events := moves } = .next t ∧
      decode t.latch.cmd = .ok i ∧ t.latch.x0 = coordX a ∧ t.latch.y0 = coordY a ∧
      t.progress = .running .start ∧ t.events = [] :=
  ⟨_, _, hst, run_onePoint h, decode_encode hi, rfl, rfl, rfl, rfl⟩

/-- A statement that writes both points and its command's word starts the command with both latched. -/
theorem twoPoints_start (hst : st.expand = some [writeTo .p0 a, writeTo .p1 b, writeTo .cmd (encode i)]) :
    ∃ moves t, st.expand = some moves ∧ Sys2Proof.core.run 3 { s with events := moves } = .next t ∧
      decode t.latch.cmd = .ok i ∧ t.latch.x0 = coordX a ∧ t.latch.y0 = coordY a ∧
      t.latch.x1 = coordX b ∧ t.latch.y1 = coordY b ∧ t.progress = .running .start ∧ t.events = [] :=
  ⟨_, _, hst, run_twoPoints h, decode_encode hi, rfl, rfl, rfl, rfl, rfl, rfl⟩

end

/-- Settles O60: the points pack, the moves write the point registers and the command's own word, and the idle machine
accepts it. -/
theorem statementsStartTheirCommands : Obligations.StatementsStartTheirCommands := by
  refine ⟨fun s x y u v hx hx' hy hy' hu hu' hv hv' hbusy hposted hside => ?_, rfl, fun p ps => polyEdges_eq p ps p,
    rfl, rfl, rfl, fun _ => rfl, fun _ _ _ _ => rfl, fun _ _ => rfl⟩
  have hquiet : s.Quiet := ⟨hbusy, hposted, hside⟩
  obtain ⟨a, ha, -, rfl, rfl⟩ := pt_inRange hx hx' hy hy'
  obtain ⟨b, hb, -, rfl, rfl⟩ := pt_inRange hu hu' hv hv'
  constructor
  · rintro st i (⟨cov, hc, rfl, rfl⟩ | ⟨rfl, rfl⟩)
    · exact onePoint_starts hquiet (Instr.wellFormed_plot.2 hc) (expand_plot hc ha)
    · exact onePoint_starts hquiet Instr.wellFormed_fill (expand_fill ha)
  · intro st i hmem
    simp only [List.mem_cons, List.not_mem_nil, or_false, Prod.mk.injEq] at hmem
    rcases hmem with ⟨rfl, rfl⟩ | ⟨rfl, rfl⟩ | ⟨rfl, rfl⟩
    · exact twoPoints_start hquiet Instr.wellFormed_line (twoPoints_eq ha hb _)
    · exact twoPoints_start hquiet Instr.wellFormed_mbegin (twoPoints_eq ha hb _)
    · exact twoPoints_start hquiet Instr.wellFormed_medge (twoPoints_eq ha hb _)

end Sys2Proof.Machine
end

section
/-! SUPPORT. Control: host register writes and acceptance (40_control.md R121 to R123), the engine's turn on an accepted
word (R124, R126), and the bound on a command's accesses (R127). -/

namespace Sys2Proof.Machine

/-! ### How a command ends, and the accesses it has made -/

/-- `t` is idle with BUSY 0, and `made` are the accesses made since `s`, newest first. -/
structure State.OverWith (s t : State) (made : List BusAccess) : Prop where
  idle : t.progress = .idle
  busy : t.status.busy = false
  trace : t.trace = made ++ s.trace

theorem State.overWith_complete {s u : State} {made : List BusAccess} (h : u.trace = made ++ s.trace) :
    s.OverWith u.complete made := ⟨rfl, rfl, h⟩

theorem State.overWith_raise {s u : State} {made : List BusAccess} (h : u.trace = made ++ s.trace) (code : ErrCode) :
    s.OverWith (u.raise code) made := ⟨rfl, rfl, h⟩

/-- A bus error makes no access. -/
theorem State.overWith_busError {s u : State} {made : List BusAccess} (h : u.trace = made ++ s.trace) (a : Word) :
    s.OverWith (u.busError a) made := ⟨rfl, rfl, h⟩

theorem burn_trace (vs : List (Int × Int)) (s : State) : (burn vs s).trace = s.trace := by
  obtain ⟨r, h⟩ := burn_frame vs s
  rw [h]

/-- `NOP` is complete at its first step. -/
theorem exec_nop (s : State) : exec .nop s = .next s.complete := by
  rw [exec_eq]
  exact congrArg _ (finish_idle rfl)

theorem exec_plot_overWith (cov : Nat) (s : State) :
    ∃ t made, exec (.plot cov) s = .next t ∧ s.OverWith t made ∧ made.length ≤ 2 := by
  rcases exec_plot_cases cov s with ⟨-, h⟩ | ⟨-, -, h⟩ | ⟨-, -, -, h⟩
  · exact ⟨_, [], h, State.overWith_raise rfl _, Nat.zero_le _⟩
  · obtain ⟨made, htrace, hlen⟩ := State.plotted_trace (s.thePlot cov) s
    exact ⟨_, made, h, State.overWith_complete htrace, hlen⟩
  · exact ⟨_, [], h, State.overWith_busError rfl _, Nat.zero_le _⟩

theorem exec_line_overWith (s : State) :
    ∃ t made, exec .line s = .next t ∧ s.OverWith t made ∧ made.length ≤ 2 * s.theLine.length := by
  rcases exec_line_cases s with ⟨-, h⟩ | ⟨-, -, h⟩ | ⟨-, before, p, after, hline, -, -, -, h⟩
  · exact ⟨_, [], h, State.overWith_raise rfl _, Nat.zero_le _⟩
  · obtain ⟨made, htrace, hlen⟩ := State.plottedAll_trace s.theLine s
    exact ⟨_, made, h, State.overWith_complete htrace, hlen⟩
  · obtain ⟨made, htrace, hlen⟩ := State.plottedAll_trace before s
    refine ⟨_, made, h, State.overWith_busError htrace _, hlen.trans ?_⟩
    rw [hline, List.length_append]
    omega

theorem exec_mbegin_overWith (s : State) : ∃ t, exec .mbegin s = .next t ∧ s.OverWith t [] := by
  rcases exec_mbegin_cases s with ⟨-, h⟩ | ⟨-, -, -, h⟩ | ⟨-, -, -, h⟩
  · exact ⟨_, h, State.overWith_raise rfl _⟩
  · exact ⟨_, h, State.overWith_raise rfl _⟩
  · exact ⟨_, h, State.overWith_complete rfl⟩

theorem exec_medge_overWith (s : State) : ∃ t, exec .medge s = .next t ∧ s.OverWith t [] := by
  rcases exec_medge_cases s with ⟨-, h⟩ | ⟨-, h⟩
  · exact ⟨_, h, State.overWith_raise rfl _⟩
  · exact ⟨_, h, State.overWith_complete (burn_trace _ s)⟩

/-- Distinct pixels of the mask domain are at most `MW * MH`. -/
theorem State.length_le_domain {s : State} {order : List Seed} (hn : order.Nodup)
    (h : ∀ q ∈ order, s.inMask q.1 q.2 = true) : order.length ≤ s.maskWidth * s.maskHeight := by
  have hsub : order.toFinset ⊆ Finset.range s.maskWidth ×ˢ Finset.range s.maskHeight := fun q hq => by
    rw [Finset.mem_product, Finset.mem_range, Finset.mem_range]
    exact State.inMask_iff.1 (h q (List.mem_toFinset.1 hq))
  have hcard := Finset.card_le_card hsub
  rwa [List.toFinset_card_of_nodup hn, Finset.card_product, Finset.card_range, Finset.card_range] at hcard

/-- The write of one painted pixel. -/
def State.paintAccess (s : State) (q : Seed) : BusAccess :=
  { kind := .write, addr := s.imageAddr q.1 q.2, size := s.latch.fmt.bpp }

/-- However the loop ends, it has written distinct pixels of the mask domain, each once, and read nothing. -/
theorem State.FillEnd.overWith {s t : State} (h : s.FillEnd t) :
    ∃ order : List Seed, order.length ≤ s.maskWidth * s.maskHeight ∧ s.OverWith t (order.map s.paintAccess) := by
  have hlen {u : State} {order : List Seed} (hw : s.FillWeak u order) :
      order.length ≤ s.maskWidth * s.maskHeight :=
    State.length_le_domain hw.nodup fun q hq => (hw.painted q hq).1.unset.1
  cases h with
  | done u order hloop _ =>
    have hw := hloop.toFillWeak
    exact ⟨order, hlen hw, State.overWith_complete (u := u.endFill) hw.trace⟩
  | refused u order x y hw _ _ _ =>
    exact ⟨order, hlen hw,
      State.overWith_raise (u := State.endFill { u with faultAddr := s.imageAddr x y }) hw.trace _⟩
  | overflow u order hw _ => exact ⟨order, hlen hw, State.overWith_raise (u := u.endFill) hw.trace _⟩

theorem exec_fill_overWith (s : State) : ∃ t, exec .fill s = .next t ∧
    ∃ order : List Seed, order.length ≤ s.maskWidth * s.maskHeight ∧ s.OverWith t (order.map s.paintAccess) := by
  rcases exec_fill_cases s with ⟨-, h⟩ | ⟨-, -, h⟩ | ⟨-, -, -, h⟩ | ⟨-, -, t, h, hend⟩
  · exact ⟨_, h, [], Nat.zero_le _, State.overWith_raise rfl _⟩
  · exact ⟨_, h, [], Nat.zero_le _, State.overWith_raise rfl _⟩
  · exact ⟨_, h, [], Nat.zero_le _, State.overWith_complete rfl⟩
  · exact ⟨t, h, hend.overWith⟩

/-- Every command is over within its bound of 40_control.md R127. -/
theorem exec_overWith (i : Instr) (s : State) : ∃ t made, exec i s = .next t ∧ s.OverWith t made ∧
    made.length ≤ accessBound i s ∧ (i = .fill → ∀ c ∈ made, c.kind = .write) := by
  cases i with
  | nop => exact ⟨_, [], exec_nop s, State.overWith_complete rfl, le_rfl, nofun⟩
  | plot cov =>
    obtain ⟨t, made, h, hover, hlen⟩ := exec_plot_overWith cov s
    exact ⟨t, made, h, hover, hlen, nofun⟩
  | line =>
    obtain ⟨t, made, h, hover, hlen⟩ := exec_line_overWith s
    have hline : s.theLine.length ≤ _ := linePlots_length ..
    refine ⟨t, made, h, hover, ?_, nofun⟩
    rw [accessBound]
    omega
  | mbegin =>
    obtain ⟨t, h, hover⟩ := exec_mbegin_overWith s
    exact ⟨t, [], h, hover, le_rfl, nofun⟩
  | medge =>
    obtain ⟨t, h, hover⟩ := exec_medge_overWith s
    exact ⟨t, [], h, hover, le_rfl, nofun⟩
  | fill =>
    obtain ⟨t, h, order, hlen, hover⟩ := exec_fill_overWith s
    refine ⟨t, _, h, hover, (List.length_map _).trans_le hlen, fun _ c hc => ?_⟩
    obtain ⟨q, -, rfl⟩ := List.mem_map.1 hc
    rfl

/-- Settles O19: each end of each command is idle, after the plots, or the distinct painted pixels, it made. -/
theorem everyCommandCompletesWithinItsAccessBound : Obligations.EveryCommandCompletesWithinItsAccessBound := by
  intro i s
  obtain ⟨t, made, h, hover, hlen, hwrites⟩ := exec_overWith i s
  exact ⟨t, made, h, hover.idle, hover.busy, hover.trace, hlen, hwrites⟩

/-! ### Acceptance and overrun -/

/-- A `CMD` write is accepted by an idle engine when no write in flight and no side effect touches the new frame. -/
theorem writeCmd_accepted {s : State} {v : Word} (hb : s.status.busy = false)
    (hp : ∀ c ∈ s.posted, (s.snapshot v).ownsByte c.1 = false)
    (ha : ∀ a ∈ s.cfg.sideEffects, (s.snapshot v).ownsByte a = false) : writeCmd v s = .next (s.accept v) := by
  have hposted : (s.posted.any fun c => (s.snapshot v).ownsByte c.1) = false :=
    List.any_eq_false.2 fun c hc => Bool.eq_false_iff.1 (hp c hc)
  have hside : (s.cfg.sideEffects.any fun a => (s.snapshot v).ownsByte a) = false :=
    List.any_eq_false.2 fun a h => Bool.eq_false_iff.1 (ha a h)
  rw [writeCmd, hb, hposted, hside]
  rfl

/-- Settles O12: acceptance finds nothing in its way. -/
theorem cmdWriteIdleLatchesTheSnapshot : Obligations.CmdWriteIdleLatchesTheSnapshot := fun s _ rest he hb hp ha =>
  (step_writeCmd he).trans (writeCmd_accepted (s := { s with events := rest }) hb hp ha)

/-- Settles O13: the write is an overrun. -/
theorem cmdWriteBusyOnlySetsOverrun : Obligations.CmdWriteBusyOnlySetsOverrun := fun _ _ _ => step_overrun

/-! ### Register writes -/

theorem Ctrl.ofWord_eq (v : Word) :
    Ctrl.ofWord v = { fmt := if v.getLsbD 0 then .fmt1 else .fmt0, ie := v.getLsbD 1 } := by
  rw [Ctrl.ofWord]
  cases v.getLsbD 0 <;> rfl

/-- A flag survives a write unless the written bit is 1. -/
theorem and_not_eq_ite (flag bit : Bool) : (flag && !bit) = if bit then false else flag := by
  cases bit
  · exact Bool.and_true flag
  · exact Bool.and_false flag

theorem Status.writeOneToClear_eq (t : Status) (v : Word) : t.writeOneToClear v = { t with
    done := if v.getLsbD 1 then false else t.done
    err := if v.getLsbD 2 then false else t.err
    ovr := if v.getLsbD 3 then false else t.ovr } := by
  rw [Status.writeOneToClear, and_not_eq_ite, and_not_eq_ite, and_not_eq_ite]

/-- The read-only registers and the reserved offsets ignore a write, and all lie in the window. -/
theorem step_write_ignored {s : State} {off : Nat} {v : Word} {rest : List Event} (he : s.events = .wr off 4 v :: rest)
    (h : off ∈ [0x00, 0x28, 0x2C, 0x30, 0x34, 0x38, 0x3C]) : step s = .next { s with events := rest } := by
  simp only [List.mem_cons, List.not_mem_nil, or_false] at h
  rcases h with rfl | rfl | rfl | rfl | rfl | rfl | rfl <;> exact step_writeReg he rfl (by decide)

/-- Settles O10: each register has its own write, and `CMD` is an overrun or an acceptance. -/
theorem hostWriteChangesItsRegister : Obligations.HostWriteChangesItsRegister := by
  intro s off v rest he
  refine ⟨?_, ?_, ?_, ?_, ?_, ?_, ?_, ?_, ?_, ?_, step_write_ignored he⟩
  · rintro rfl
    rw [← Ctrl.ofWord_eq]
    exact step_writeReg he rfl (by decide)
  · rintro rfl
    rw [← Status.writeOneToClear_eq]
    exact step_writeReg he rfl (by decide)
  iterate 6
    · rintro rfl
      exact step_writeReg he rfl (by decide)
  · rintro rfl
    exact step_overrun he
  · rintro rfl hb hp ha
    exact (step_writeCmd he).trans (writeCmd_accepts (s := { s with events := rest }) ⟨hb, hp, ha⟩ v)

/-! ### The engine's turn -/

/-- The step after acceptance of a legal word runs its command. -/
theorem step_command {s : State} {i : Instr} (he : s.events = []) (hp : s.progress = .running .start)
    (hd : decode s.latch.cmd = .ok i) : step s = exec i s :=
  (step_of_events_nil he).trans (engineTurn_command hp hd)

theorem State.withFetchWord_cmd (s : State) (w : Nat) : (s.withFetchWord 32 w).latch.cmd = BitVec.ofNat 32 w :=
  BitVec.eq_of_toNat_eq (Nat.mod_mod w (2 ^ 32))

/-- Settles O6: the word is accepted, and the turn is the engine's. -/
theorem stepRunsTheDecodedCommand : Obligations.StepRunsTheDecodedCommand :=
  ⟨fun _ _ => step_command, fun s w _ hd => step_command rfl rfl (by rwa [State.withFetchWord_cmd])⟩

/-- A nonzero word with OP = 0 has a nonzero COV or RSV field. -/
theorem illegal_of_opcode_zero {w : Word} (hop : field w 0 4 = 0) (hw : w ≠ 0) : Illegal w := by
  have hfields := word_eq_fields w
  have hne : w.toNat ≠ 0 := fun h => hw (BitVec.eq_of_toNat_eq h)
  unfold Illegal
  omega

/-- From reset, a `CMD` write of 0 is accepted and completes. -/
theorem run_nop_from_reset : Sys2Proof.core.run 2 { State.reset with events := [.wr 0x24 4 0] } =
    .next (State.accept 0 { State.reset with events := [] }).complete :=
  (run_next 1 (step_cmd (s := State.reset) ⟨rfl, rfl, rfl⟩)).trans
    (run_next 0 ((step_command rfl rfl specWordsDecodeToTheirCommands.1).trans (exec_nop _)))

/-- Settles O18: `NOP` only completes, and another word with OP = 0 is illegal. -/
theorem nopOnlyCompletes : Obligations.NopOnlyCompletes :=
  ⟨specWordsDecodeToTheirCommands.1, exec_nop,
    fun _ he hp hop hw => (step_of_events_nil he).trans (engineTurn_of_illegal hp (illegal_of_opcode_zero hop hw)),
    _, run_nop_from_reset, rfl⟩

end Sys2Proof.Machine
end

section
/-! SUPPORT. The pixel blender: the end of a `PLOT` by what its one `plotPixel` needs of the bus, what a drawing command
leaves alone, and repeated plots of one pixel (41_pixel_blender.md R140 to R145). -/

namespace Sys2Proof.Machine

/-! ### The blend -/

/-- Settles O27: the three channels are written apart from each other, each with a value between the old one and the
target, which fits its field. -/
theorem blendIsPerChannelBetweenOldAndTarget : Obligations.BlendIsPerChannelBetweenOldAndTarget := by
  refine fun f old col cov _ hcov => ⟨xBits_blend hcov, fun c => ?_⟩
  rw [channel_blend hcov]
  exact blendChannel_spec _ _ cov hcov

/-! ### `PLOT` -/

theorem State.touches_iff {s : State} {p : Plot} :
    s.touches p = true ↔ s.latch.inFrame p.x p.y = true ∧ p.cov ≠ 0 := by
  simp [State.touches]

theorem State.admitsPlot_iff {s : State} {p : Plot} :
    s.admitsPlot p = true ↔ (s.touches p = true → s.admitsPixel (s.plotAddr p) = true) := by
  rw [State.admitsPlot]
  cases s.touches p <;> simp

/-- An aligned `PLOT` whose accesses the bus admits is its `plotPixel`, then the completion. -/
theorem exec_plot_admitted {s : State} {cov : Nat} (ha : s.latch.aligned = true)
    (h : s.admitsPlot (s.thePlot cov) = true) :
    exec (.plot cov) s = .next (State.plotted (s.thePlot cov) s).complete := by
  rcases exec_plot_cases cov s with ⟨hna, -⟩ | ⟨-, -, e⟩ | ⟨-, ht, hr, -⟩
  · exact absurd (hna.symm.trans ha) Bool.false_ne_true
  · exact e
  · exact absurd (hr.symm.trans (State.admitsPlot_iff.1 h ht)) Bool.false_ne_true

/-- An aligned `PLOT` that the bus refuses is a bus error and nothing else. -/
theorem exec_plot_refused {s : State} {cov : Nat} (ha : s.latch.aligned = true)
    (ht : s.touches (s.thePlot cov) = true) (hr : s.admitsPixel (s.plotAddr (s.thePlot cov)) = false) :
    exec (.plot cov) s = .next (s.busError (s.plotAddr (s.thePlot cov))) := by
  rcases exec_plot_cases cov s with ⟨hna, -⟩ | ⟨-, hadm, -⟩ | ⟨-, -, -, e⟩
  · exact absurd (hna.symm.trans ha) Bool.false_ne_true
  · exact absurd (hr.symm.trans (State.admitsPlot_iff.1 hadm ht)) Bool.false_ne_true
  · exact e

/-- Settles O28: the plot touches nothing, so there is nothing for the bus to admit. -/
theorem plotOutOfFrameOrEmptyOnlyCompletes : Obligations.PlotOutOfFrameOrEmptyOnlyCompletes := by
  intro s cov ha hout
  have ht : s.touches (s.thePlot cov) = false := by
    rw [← Bool.not_eq_true, State.touches_iff, Snapshot.inFrame_iff]
    rintro ⟨hin, hcov⟩
    exact hout.elim (absurd hin) hcov
  have hadm : s.admitsPlot (s.thePlot cov) = true :=
    State.admitsPlot_iff.2 fun h => absurd (ht.symm.trans h) Bool.false_ne_true
  rw [exec_plot_admitted ha hadm, State.plotted_none ht]
  rfl

/-- Settles O29: the `plotPixel` is its full write. -/
theorem plotFullIsOneWriteOfTheColour : Obligations.PlotFullIsOneWriteOfTheColour := by
  intro s cov ha hin hcov hadm
  have ht : s.touches (s.thePlot cov) = true := State.touches_iff.2 ⟨hin, show cov ≠ 0 by omega⟩
  rw [exec_plot_admitted ha (State.admitsPlot_iff.2 fun _ => hadm), State.plotted_full ht hcov]
  rfl

/-- Settles O30: the `plotPixel` is its read, then the write of the blend. -/
theorem plotPartialReadsThenWritesTheBlend : Obligations.PlotPartialReadsThenWritesTheBlend := by
  intro s cov ha hin hpos hcov hadm
  have ht : s.touches (s.thePlot cov) = true := State.touches_iff.2 ⟨hin, show cov ≠ 0 by omega⟩
  rw [exec_plot_admitted ha (State.admitsPlot_iff.2 fun _ => hadm),
    State.plotted_partial ht (show cov < 16 by omega)]
  rfl

/-- Settles O31: the first access, the read of a partial plot or the write of a full one, ends the command. -/
theorem plotRefusedReportsBusError : Obligations.PlotRefusedReportsBusError := by
  intro s cov ha hin hpos hr
  exact exec_plot_refused ha (State.touches_iff.2 ⟨hin, show cov ≠ 0 by omega⟩) hr

/-! ### What drawing leaves alone -/

/-- From `s` to `t` the mask, the seeds and every byte outside the containers that `ps` touch are as before. -/
structure State.DrawsOnly (s : State) (ps : List Plot) (t : State) : Prop where
  sameMask : s.SameMask t
  read : ∀ b, (∀ p ∈ ps, s.touches p = true → b ∉ bytesAt (s.plotAddr p) s.latch.fmt.bpp) →
    Memory.read t.mem b = Memory.read s.mem b

/-- Some of the plots, or all of them. -/
theorem State.DrawsOnly.plottedAll {s : State} {made ps : List Plot} (h : made ⊆ ps) :
    s.DrawsOnly ps (State.plottedAll made s) where
  sameMask := by
    obtain ⟨m, tr, e⟩ := State.plottedAll_frame made s
    rw [e]
    constructor <;> rfl
  read b hb := State.plottedAll_read made s b fun p hp => hb p (h hp)

section
variable {s u : State} {ps : List Plot} (h : s.DrawsOnly ps u)
include h

theorem State.DrawsOnly.complete : s.DrawsOnly ps u.complete :=
  ⟨h.sameMask.trans (by constructor <;> rfl), h.read⟩

theorem State.DrawsOnly.raise (code : ErrCode) : s.DrawsOnly ps (u.raise code) :=
  ⟨h.sameMask.trans (by constructor <;> rfl), h.read⟩

theorem State.DrawsOnly.busError (a : Word) : s.DrawsOnly ps (u.busError a) :=
  ⟨h.sameMask.trans (by constructor <;> rfl), h.read⟩

end

theorem exec_plot_drawsOnly {cov : Nat} {s t : State} (h : exec (.plot cov) s = .next t) :
    s.DrawsOnly [s.thePlot cov] t := by
  have hnone : s.DrawsOnly [s.thePlot cov] s := .plottedAll (List.nil_subset _)
  rcases exec_plot_cases cov s with ⟨-, e⟩ | ⟨-, -, e⟩ | ⟨-, -, -, e⟩ <;>
    obtain rfl := Host.Outcome.next.inj (e.symm.trans h)
  · exact hnone.raise _
  · exact (State.DrawsOnly.plottedAll (List.Subset.refl [s.thePlot cov])).complete
  · exact hnone.busError _

theorem exec_line_drawsOnly {s t : State} (h : exec .line s = .next t) : s.DrawsOnly s.theLine t := by
  rcases exec_line_cases s with ⟨-, e⟩ | ⟨-, -, e⟩ | ⟨-, before, p, after, hline, -, -, -, e⟩ <;>
    obtain rfl := Host.Outcome.next.inj (e.symm.trans h)
  · exact (State.DrawsOnly.plottedAll (List.nil_subset s.theLine)).raise _
  · exact (State.DrawsOnly.plottedAll (List.Subset.refl s.theLine)).complete
  · have hsub : before ⊆ s.theLine := hline ▸ List.subset_append_left before (p :: after)
    exact (State.DrawsOnly.plottedAll hsub).busError _

/-- Settles O33: each end of a drawing command comes after some of its plots and moves no store. -/
theorem drawingLeavesEverythingElseAlone : Obligations.DrawingLeavesEverythingElseAlone := by
  refine fun s t => ⟨fun cov h => ?_, fun h => ?_⟩
  · obtain ⟨hmask, hread⟩ := exec_plot_drawsOnly h
    exact ⟨exec_sameHostSide h, hmask, fun b hb => hread b (List.forall_mem_singleton.2 hb)⟩
  · obtain ⟨hmask, hread⟩ := exec_line_drawsOnly h
    exact ⟨exec_sameHostSide h, hmask, hread⟩

/-! ### Repeated plots of one pixel -/

/-- The second of two equal stores changes nothing. -/
theorem storeLE_storeLE_same (size : Nat) (m : List Host.Cell) (a v : Nat) (hm : Memory.wf m) (hs : size ≤ 4) :
    storeLE (storeLE m a v size) a v size = storeLE m a v size :=
  storeLE_of_bytes size _ a v (storeLE_wf size m a v hm) hs fun k hk => read_storeLE_byte size m a v k hm hk hs

theorem State.plotted_wf (p : Plot) {s : State} (hm : Memory.wf s.mem) : Memory.wf (State.plotted p s).mem := by
  unfold State.plotted
  split
  · exact hm
  · split <;> exact storeLE_wf _ _ _ _ hm

/-- What a `plotPixel` touches, and where, is not changed by another one. -/
theorem State.touches_plotted (p q : Plot) (s : State) : (State.plotted p s).touches q = s.touches q := by
  rw [State.touches, State.plotted_latch, State.touches]

theorem State.plotAddr_plotted (p q : Plot) (s : State) : (State.plotted p s).plotAddr q = s.plotAddr q := by
  rw [State.plotAddr, State.plotted_latch, State.plotAddr]

/-- Full coverages are alike: above 15 the number does not matter. -/
theorem State.plotted_full_congr {s : State} {x y : Int} {c c' : Nat} (hc : 16 ≤ c) (hc' : 16 ≤ c') :
    State.plotted { x := x, y := y, cov := c' } s = State.plotted { x := x, y := y, cov := c } s := by
  have hne : c ≠ 0 := by omega
  have hne' : c' ≠ 0 := by omega
  simp [State.plotted, State.touches, State.plotAddr, hc, hc', hne, hne']

/-- A full `plotPixel` made twice leaves the memory of one. -/
theorem State.plotted_full_twice {p : Plot} {s : State} (hm : Memory.wf s.mem) (hc : 16 ≤ p.cov) :
    (State.plotted p (State.plotted p s)).mem = (State.plotted p s).mem := by
  cases ht : s.touches p with
  | false => rw [State.plotted_none ht, State.plotted_none ht]
  | true =>
    rw [State.plotted_full ((State.touches_plotted p p s).trans ht) hc, State.plotAddr_plotted, State.plotted_latch,
      State.plotted_full ht hc]
    exact storeLE_storeLE_same _ _ _ _ hm (Fmt.bpp_le _)

theorem State.pixelAt_writePixel_colour {s : State} (hm : Memory.wf s.mem) (a : Word) :
    (s.writePixel a s.latch.colC).pixelAt a = s.latch.colC := by
  show BitVec.ofNat 32 (loadLE (storeLE s.mem _ _ s.latch.fmt.bpp) _ s.latch.fmt.bpp) = _
  rw [loadLE_storeLE_same _ _ _ _ hm (Fmt.bpp_le _)]
  exact pixel_roundTrip _ _ s.latch.colC_lt

/-- A pixel that holds the colour holds it after any `plotPixel` of it: a blend writes the colour again. -/
theorem State.pixelAt_plotted_of_colour {p : Plot} {s : State} (hm : Memory.wf s.mem)
    (h : s.pixelAt (s.plotAddr p) = s.latch.colC) :
    (State.plotted p s).pixelAt (s.plotAddr p) = s.latch.colC := by
  cases ht : s.touches p with
  | false => rwa [State.plotted_none ht]
  | true =>
    rcases Nat.lt_or_ge p.cov 16 with hc | hc
    · rw [State.plotted_partial ht hc, h, blend_self]
      exact State.pixelAt_writePixel_colour (s := s.noteRead (s.plotAddr p)) hm _
    · exact State.pixelAt_plotted_full hm ht hc

/-- Settles O34: a second full write stores the bytes that are there, and a blend of the colour with itself is the
colour. -/
theorem fullCoverageIsIdempotent : Obligations.FullCoverageIsIdempotent := by
  refine fun s x y c k hm hc => ⟨fun c' hc' => ?_, fun hin => ?_⟩
  · rw [State.plotted_full_congr hc hc']
    exact State.plotted_full_twice hm hc
  · have ht : s.touches { x := x, y := y, cov := c } = true := State.touches_iff.2 ⟨hin, show c ≠ 0 by omega⟩
    have hfull : (State.plotted { x := x, y := y, cov := c } s).pixelAt (s.latch.pixAddr x y) = s.latch.colC :=
      State.pixelAt_plotted_full hm ht hc
    rw [← State.plotted_latch { x := x, y := y, cov := c } s] at hfull ⊢
    exact State.pixelAt_plotted_of_colour (p := { x := x, y := y, cov := k }) (State.plotted_wf _ hm) hfull

end Sys2Proof.Machine
end

section
/-! SUPPORT. `LINE` (42_line.md): a whole command as its plots, the exact line, and the Wu line's axes, quotient and
steps. -/

namespace Sys2Proof.Machine

/-! ### The command as its plots (42_line.md R160) -/

theorem begin_line_aligned {s : State} (ha : s.latch.aligned = true) : begin .line s = s.goto (.plots s.theLine) := by
  simp only [begin, beginLine, ha, Bool.not_true, Bool.false_eq_true, if_false]
  rfl

/-- An aligned `LINE` whose plots the bus admits makes them all and completes. -/
theorem exec_line_admitted {s : State} (ha : s.latch.aligned = true) (h : ∀ p ∈ s.theLine, s.admitsPlot p = true) :
    exec .line s = .next (State.plottedAll s.theLine s).complete := by
  rw [exec_eq, begin_line_aligned ha, finish_plots s.theLine s h]

/-- An aligned `LINE` one of whose plots the bus refuses ends at the first such plot. -/
theorem exec_line_refused {s : State} {before after : List Plot} {p : Plot} (ha : s.latch.aligned = true)
    (hline : s.theLine = before ++ p :: after) (hb : ∀ q ∈ before, s.admitsPlot q = true)
    (hp : s.admitsPlot p = false) :
    exec .line s = .next (State.busError (s.plotAddr p) (State.plottedAll before s)) := by
  rw [exec_eq, begin_line_aligned ha, hline, finish_refused before after p s hb hp]

/-- Settles O35: the engine's steps at the line's plots are the whole calls. -/
theorem lineMakesItsPlotsInOrder : Obligations.LineMakesItsPlotsInOrder :=
  fun _ ha h => exec_line_admitted ha h

/-! ### The exact line (42_line.md R162) -/

theorem linePlots_degenerate (r : LineRound) {x0 y0 x1 y1 : Int} (h : x0 = x1 ∨ y0 = y1) :
    linePlots r x0 y0 x1 y1 = exactLine x0 y0 x1 y1 := if_pos h

theorem exactLine_column (x y0 y1 : Int) :
    exactLine x y0 x y1 = (intRange (min y0 y1) (max y0 y1)).map fun y => { x := x, y := y, cov := 16 } := if_pos rfl

theorem exactLine_row {x0 x1 : Int} (h : x0 ≠ x1) (y y1 : Int) :
    exactLine x0 y x1 y1 = (intRange (min x0 x1) (max x0 x1)).map fun x => { x := x, y := y, cov := 16 } := if_neg h

/-- A degenerate line's plots are the pixels of the inclusive segment, at full coverage. -/
theorem mem_exactLine {x0 y0 x1 y1 : Int} (h : x0 = x1 ∨ y0 = y1) (p : Plot) :
    p ∈ exactLine x0 y0 x1 y1 ↔
      p.cov = 16 ∧ min x0 x1 ≤ p.x ∧ p.x ≤ max x0 x1 ∧ min y0 y1 ≤ p.y ∧ p.y ≤ max y0 y1 := by
  obtain ⟨px, py, cov⟩ := p
  by_cases hx : x0 = x1
  · subst hx
    simp only [exactLine_column, List.mem_map, mem_intRange, Plot.mk.injEq]
    exact ⟨by rintro ⟨y, hy⟩; omega, fun hp => ⟨py, by omega⟩⟩
  · obtain rfl := h.resolve_left hx
    simp only [exactLine_row hx, List.mem_map, mem_intRange, Plot.mk.injEq]
    exact ⟨by rintro ⟨x, hx⟩; omega, fun hp => ⟨px, by omega⟩⟩

/-- The coordinate that runs along an exact line increases, and the other one stays. -/
theorem pairwise_exactLine (x0 y0 x1 y1 : Int) :
    (exactLine x0 y0 x1 y1).Pairwise fun p q => p.x + p.y < q.x + q.y := by
  by_cases hx : x0 = x1
  · subst hx
    rw [exactLine_column, List.pairwise_map]
    exact (pairwise_intRange _ _).imp fun h => Int.add_lt_add_left h x0
  · rw [exactLine_row hx, List.pairwise_map]
    exact (pairwise_intRange _ _).imp fun h => Int.add_lt_add_right h y0

/-- Settles O38: the exact line is a column or a row of plots. -/
theorem degenerateLineIsTheExactSegment : Obligations.DegenerateLineIsTheExactSegment := by
  intro r x0 y0 x1 y1 h
  rw [linePlots_degenerate r h]
  exact ⟨mem_exactLine h, pairwise_exactLine x0 y0 x1 y1⟩

/-! ### The Wu quotient and the minor position (42_line.md R165) -/

theorem wuQuotient_nearest (n da : Int) : wuQuotient .nearest n da = (2 * n + da) / (2 * da) := rfl

theorem wuQuotient_trunc (n da : Int) : wuQuotient .trunc n da = n.tdiv da := rfl

/-- Half up: the quotient is within half of the exact one, and an exact half below goes up. -/
theorem wuQuotient_nearest_bounds (n : Int) {da : Int} (hda : 0 < da) :
    2 * n - da < 2 * da * wuQuotient .nearest n da ∧ 2 * da * wuQuotient .nearest n da ≤ 2 * n + da := by
  have hle := Int.mul_ediv_self_le (x := 2 * n + da) (k := 2 * da) (by omega)
  have hlt := Int.lt_mul_ediv_self_add (x := 2 * n + da) (k := 2 * da) (by omega)
  rw [wuQuotient_nearest]
  omega

theorem wuQuotient_trunc_bounds_nonneg {n da : Int} (hda : 0 < da) (hn : 0 ≤ n) :
    da * wuQuotient .trunc n da ≤ n ∧ n < da * (wuQuotient .trunc n da + 1) := by
  rw [wuQuotient_trunc, Int.tdiv_eq_ediv_of_nonneg hn, Int.mul_add, Int.mul_one]
  exact ⟨Int.mul_ediv_self_le hda.ne', Int.lt_mul_ediv_self_add hda⟩

theorem wuQuotient_trunc_neg (n da : Int) : wuQuotient .trunc (-n) da = -wuQuotient .trunc n da := Int.neg_tdiv n da

/-- Below zero the quotient is that of `−n`, negated: it too is rounded toward zero. -/
theorem wuQuotient_trunc_bounds_neg {n da : Int} (hda : 0 < da) (hn : n < 0) :
    n ≤ da * wuQuotient .trunc n da ∧ da * (wuQuotient .trunc n da - 1) < n := by
  obtain ⟨hle, hlt⟩ := wuQuotient_trunc_bounds_nonneg (n := -n) hda (by omega)
  rw [wuQuotient_trunc_neg] at hle hlt
  constructor <;> linarith

/-- Settles O41: the floor of `N/da + 1/2`, and the division that rounds toward zero. -/
theorem wuQuotientRoundsAsItsModeSays : Obligations.WuQuotientRoundsAsItsModeSays :=
  fun n _ hda =>
    ⟨wuQuotient_nearest_bounds n hda, wuQuotient_trunc_bounds_nonneg hda, wuQuotient_trunc_bounds_neg hda⟩

/-- An exact quotient is not rounded. -/
theorem wuQuotient_exact (r : LineRound) {da : Int} (hda : 0 < da) (k : Int) : wuQuotient r (da * k) da = k := by
  cases r with
  | nearest =>
    have hhalf : da / (2 * da) = 0 := Int.ediv_eq_zero_of_lt hda.le (by omega)
    rw [wuQuotient_nearest, ← Int.mul_assoc, Int.add_comm, Int.add_mul_ediv_left _ _ (by omega), hhalf, Int.zero_add]
  | trunc => exact Int.mul_tdiv_cancel_left k hda.ne'

theorem wuMinor_first (r : LineRound) {w : WuAxes} (h : w.a0 < w.a1) : wuMinor r w w.a0 = 16 * w.b0 := by
  have hn : 16 * (w.a0 - w.a0) * (w.b1 - w.b0) = (w.a1 - w.a0) * 0 := by ring
  rw [wuMinor, hn, wuQuotient_exact r (by omega), Int.add_zero]

theorem wuMinor_last (r : LineRound) {w : WuAxes} (h : w.a0 < w.a1) : wuMinor r w w.a1 = 16 * w.b1 := by
  have hn : 16 * (w.a1 - w.a0) * (w.b1 - w.b0) = (w.a1 - w.a0) * (16 * (w.b1 - w.b0)) := by ring
  rw [wuMinor, hn, wuQuotient_exact r (by omega)]
  ring

/-- Settles O40: at both ends of the major axis the quotient is exact. -/
theorem wuLineMeetsItsEndpoints : Obligations.WuLineMeetsItsEndpoints :=
  fun r _ h => ⟨wuMinor_first r h, wuMinor_last r h⟩

/-! ### The Wu line (42_line.md R163, R164, R166) -/

theorem linePlots_wu (r : LineRound) {x0 y0 x1 y1 : Int} (hx : x0 ≠ x1) (hy : y0 ≠ y1) :
    linePlots r x0 y0 x1 y1 = wuLine r x0 y0 x1 y1 := if_neg (not_or.2 ⟨hx, hy⟩)

theorem fpart_eq_emod (i : Int) : fpart i = (i % 16).toNat := by
  unfold fpart ipart floorDiv
  omega

theorem wuOrder_swapped {w : WuAxes} (h : w.a1 < w.a0) :
    wuOrder w = { steep := w.steep, a0 := w.a1, b0 := w.b1, a1 := w.a0, b1 := w.b0 } := if_pos h

theorem wuOrder_ordered {w : WuAxes} (h : w.a0 ≤ w.a1) : wuOrder w = w := if_neg (not_lt.2 h)

/-- Step 2, from the endpoints listed in the order of their major coordinates. -/
theorem wuOrder_eq_of_ends {steep : Bool} {a0 b0 a1 b1 c0 d0 c1 d1 : Int}
    (h : (c0, d0, c1, d1) = if a1 < a0 then (a1, b1, a0, b0) else (a0, b0, a1, b1)) :
    wuOrder { steep := steep, a0 := a0, b0 := b0, a1 := a1, b1 := b1 } =
      { steep := steep, a0 := c0, b0 := d0, a1 := c1, b1 := d1 } := by
  by_cases hlt : a1 < a0
  · obtain ⟨rfl, rfl, rfl, rfl⟩ : c0 = a1 ∧ d0 = b1 ∧ c1 = a0 ∧ d1 = b0 := by simpa [hlt] using h
    exact wuOrder_swapped hlt
  · obtain ⟨rfl, rfl, rfl, rfl⟩ : c0 = a0 ∧ d0 = b0 ∧ c1 = a1 ∧ d1 = b1 := by simpa [hlt] using h
    exact wuOrder_ordered (not_lt.1 hlt)

/-- Steps 1 and 2, from the steep test and the endpoints listed in the order of their major coordinates. -/
theorem wuOrder_wuSwap_eq {x0 y0 x1 y1 a0 b0 a1 b1 : Int} {steep : Bool}
    (hsteep : steep = decide ((x1 - x0).natAbs < (y1 - y0).natAbs))
    (hends : (a0, b0, a1, b1) =
      (if steep then (if y1 < y0 then (y1, x1, y0, x0) else (y0, x0, y1, x1))
      else (if x1 < x0 then (x1, y1, x0, y0) else (x0, y0, x1, y1)))) :
    wuOrder (wuSwap x0 y0 x1 y1) = { steep := steep, a0 := a0, b0 := b0, a1 := a1, b1 := b1 } := by
  cases steep with
  | true =>
    rw [wuSwap_steep (of_decide_eq_true hsteep.symm)]
    exact wuOrder_eq_of_ends hends
  | false =>
    rw [wuSwap_flat (not_lt.1 (of_decide_eq_false hsteep.symm))]
    exact wuOrder_eq_of_ends hends

theorem wuStep_steep (r : LineRound) {w : WuAxes} (h : w.steep = true) (a : Int) :
    wuStep r w a =
      [{ x := wuMinor r w a / 16, y := a, cov := 16 - (wuMinor r w a % 16).toNat },
        { x := wuMinor r w a / 16 + 1, y := a, cov := (wuMinor r w a % 16).toNat }] := by
  simp only [wuStep, wuPlot, h, if_true, fpart_eq_emod, ipart, floorDiv]

theorem wuStep_flat (r : LineRound) {w : WuAxes} (h : w.steep = false) (a : Int) :
    wuStep r w a =
      [{ x := a, y := wuMinor r w a / 16, cov := 16 - (wuMinor r w a % 16).toNat },
        { x := a, y := wuMinor r w a / 16 + 1, cov := (wuMinor r w a % 16).toNat }] := by
  simp only [wuStep, wuPlot, h, Bool.false_eq_true, if_false, fpart_eq_emod, ipart, floorDiv]

/-- Settles O39: the axes are those of the steep test and the endpoint order, and a step is its two plots. -/
theorem wuLineIsTwoPlotsAStep : Obligations.WuLineIsTwoPlotsAStep := by
  intro r x0 y0 x1 y1 a0 b0 a1 b1 steep hx hy hsteep hends
  rw [linePlots_wu r hx hy, wuLine, wuOrder_wuSwap_eq hsteep hends]
  refine List.flatMap_congr fun a _ => ?_
  cases steep with
  | true => rw [wuStep_steep r rfl]; cases r <;> rfl
  | false => rw [wuStep_flat r rfl]; cases r <;> rfl

/-- Settles O44: the rasterizer computes the table. -/
theorem workedExampleLine : Obligations.WorkedExampleLine := by
  unfold Obligations.WorkedExampleLine
  decide

/-! ### Distinct pixels (42_line.md R168 (b)) -/

/-- The pixel of a Wu plot gives back its major and minor coordinate. -/
theorem wuPlot_pixel_inj {w : WuAxes} {a b a' b' : Int} {c c' : Nat}
    (h : ((wuPlot w a b c).x, (wuPlot w a b c).y) = ((wuPlot w a' b' c').x, (wuPlot w a' b' c').y)) :
    a = a' ∧ b = b' := by
  rw [Prod.mk.injEq] at h
  cases hs : w.steep <;> simp only [wuPlot, hs, Bool.false_eq_true, if_false, if_true] at h
  · exact h
  · exact h.symm


theorem nodup_pixels_exactLine (x0 y0 x1 y1 : Int) :
    ((exactLine x0 y0 x1 y1).map fun p => (p.x, p.y)).Nodup :=
  List.pairwise_map.2 <| (pairwise_exactLine x0 y0 x1 y1).imp fun {p q} h e => by
    obtain ⟨hx, hy⟩ := Prod.mk.inj e
    omega

/-- The two plots of a step differ in the minor coordinate. -/
theorem nodup_pixels_wuStep (r : LineRound) (w : WuAxes) (a : Int) :
    ((wuStep r w a).map fun p => (p.x, p.y)).Nodup := by
  refine List.nodup_cons.2 ⟨fun h => ?_, List.nodup_singleton _⟩
  obtain ⟨-, hb⟩ := wuPlot_pixel_inj (List.mem_singleton.1 h)
  omega

theorem mem_wuStep {r : LineRound} {w : WuAxes} {a : Int} {p : Plot} (h : p ∈ wuStep r w a) :
    ∃ b cov, p = wuPlot w a b cov := by
  rcases List.mem_pair.1 h with rfl | rfl <;> exact ⟨_, _, rfl⟩

/-- Steps at two major coordinates have no pixel in common. -/
theorem disjoint_pixels_wuStep (r : LineRound) (w : WuAxes) {a a' : Int} (h : a ≠ a') :
    List.Disjoint ((wuStep r w a).map fun p => (p.x, p.y)) ((wuStep r w a').map fun p => (p.x, p.y)) := by
  intro v hv hv'
  obtain ⟨p, hp, rfl⟩ := List.mem_map.1 hv
  obtain ⟨q, hq, heq⟩ := List.mem_map.1 hv'
  obtain ⟨b, cov, rfl⟩ := mem_wuStep hp
  obtain ⟨b', cov', rfl⟩ := mem_wuStep hq
  exact h (wuPlot_pixel_inj heq).1.symm

theorem nodup_pixels_wuLine (r : LineRound) (x0 y0 x1 y1 : Int) :
    ((wuLine r x0 y0 x1 y1).map fun p => (p.x, p.y)).Nodup := by
  rw [wuLine, List.map_flatMap, List.nodup_flatMap]
  exact ⟨fun a _ => nodup_pixels_wuStep r _ a,
    (pairwise_intRange _ _).imp fun h => disjoint_pixels_wuStep r _ h.ne⟩

/-- Settles O42: an exact line's pixels increase, and a Wu line has two of each major coordinate, one above the other. -/
theorem linePlotsNoPixelTwice : Obligations.LinePlotsNoPixelTwice := by
  intro r x0 y0 x1 y1
  by_cases h : x0 = x1 ∨ y0 = y1
  · rw [linePlots_degenerate r h]
    exact nodup_pixels_exactLine x0 y0 x1 y1
  · obtain ⟨hx, hy⟩ := not_or.1 h
    rw [linePlots_wu r hx hy]
    exact nodup_pixels_wuLine r x0 y0 x1 y1

/-! ### The direction of a line (42_line.md R168 (c)) -/

theorem exactLine_comm {x0 y0 x1 y1 : Int} (h : x0 = x1 ∨ y0 = y1) :
    exactLine x0 y0 x1 y1 = exactLine x1 y1 x0 y0 := by
  by_cases hx : x0 = x1
  · subst hx
    rw [exactLine_column, exactLine_column, min_comm, max_comm]
  · obtain rfl := h.resolve_left hx
    rw [exactLine_row hx, exactLine_row (Ne.symm hx), min_comm, max_comm]

theorem isSteep_comm (x0 y0 x1 y1 : Int) : isSteep x0 y0 x1 y1 = isSteep x1 y1 x0 y0 :=
  decide_eq_decide.2 (by omega)

/-- Step 2 undoes an exchange of two endpoints with different major coordinates. -/
theorem wuOrder_comm {steep : Bool} {a0 b0 a1 b1 : Int} (h : a0 ≠ a1) :
    wuOrder { steep := steep, a0 := a0, b0 := b0, a1 := a1, b1 := b1 } =
      wuOrder { steep := steep, a0 := a1, b0 := b1, a1 := a0, b1 := b0 } := by
  rcases lt_or_gt_of_ne h with hlt | hgt
  · rw [wuOrder_ordered hlt.le, wuOrder_swapped hlt]
  · rw [wuOrder_swapped hgt, wuOrder_ordered (le_of_lt hgt)]

theorem wuOrder_wuSwap_comm {x0 y0 x1 y1 : Int} (hx : x0 ≠ x1) (hy : y0 ≠ y1) :
    wuOrder (wuSwap x0 y0 x1 y1) = wuOrder (wuSwap x1 y1 x0 y0) := by
  rw [wuSwap, wuSwap, isSteep_comm x1]
  cases isSteep x0 y0 x1 y1 with
  | true => exact wuOrder_comm hy
  | false => exact wuOrder_comm hx

theorem linePlots_comm (r : LineRound) (x0 y0 x1 y1 : Int) : linePlots r x0 y0 x1 y1 = linePlots r x1 y1 x0 y0 := by
  by_cases h : x0 = x1 ∨ y0 = y1
  · rw [linePlots_degenerate r h, linePlots_degenerate r (h.imp Eq.symm Eq.symm), exactLine_comm h]
  · obtain ⟨hx, hy⟩ := not_or.1 h
    rw [linePlots_wu r hx hy, linePlots_wu r (Ne.symm hx) (Ne.symm hy), wuLine, wuLine, wuOrder_wuSwap_comm hx hy]

/-- The state with other points in the snapshot. -/
def State.withPoints (p0 p1 : Word) (s : State) : State :=
  { s with latch := { s.latch with p0 := p0, p1 := p1 } }

/-- A `plotPixel` does not look at the snapshot's points. -/
theorem State.plotted_withPoints (p0 p1 : Word) (p : Plot) (s : State) :
    State.plotted p (s.withPoints p0 p1) = (State.plotted p s).withPoints p0 p1 := by
  simp only [State.plotted, apply_ite (State.withPoints p0 p1)]
  rfl

theorem State.plottedAll_withPoints (p0 p1 : Word) (ps : List Plot) (s : State) :
    State.plottedAll ps (s.withPoints p0 p1) = (State.plottedAll ps s).withPoints p0 p1 := by
  induction ps generalizing s with
  | nil => rfl
  | cons p ps ih => rw [State.plottedAll_cons, State.plotted_withPoints, ih, State.plottedAll_cons]

/-- A `LINE` looks at the snapshot's points only for its plots. -/
theorem exec_line_withPoints {p0 p1 : Word} {s t : State} (hline : (s.withPoints p0 p1).theLine = s.theLine)
    (h : exec .line s = .next t) : exec .line (s.withPoints p0 p1) = .next (t.withPoints p0 p1) := by
  rcases exec_line_cases s with ⟨ha, e⟩ | ⟨ha, hadm, e⟩ | ⟨ha, before, p, after, hps, hb, ht, hr, e⟩ <;>
    obtain rfl := Host.Outcome.next.inj (e.symm.trans h)
  · exact exec_misaligned (s := s.withPoints p0 p1) ha (.inl rfl)
  · rw [exec_line_admitted (s := s.withPoints p0 p1) ha (hline ▸ hadm), hline, State.plottedAll_withPoints]
    rfl
  · have hp : s.admitsPlot p = false := by rw [State.admitsPlot, ht, hr]; rfl
    rw [exec_line_refused (s := s.withPoints p0 p1) ha (hline.trans hps) hb hp, State.plottedAll_withPoints]
    rfl

/-- Settles O43: the endpoints are put in order before the plots are made, and nothing else looks at the points. -/
theorem lineIgnoresItsDirection : Obligations.LineIgnoresItsDirection :=
  ⟨linePlots_comm, fun s _ h => exec_line_withPoints (p0 := s.latch.p1) (p1 := s.latch.p0) (linePlots_comm ..) h⟩

end Sys2Proof.Machine
end

section
/-! SUPPORT. The edge mask (43_edge_mask.md): what `MBEGIN` and `MEDGE` leave behind, and the midpoint edge as a list of
pixels: its closed form on either dominant axis, how near it keeps to the exact line, and its ties. -/

namespace Sys2Proof.Machine

/-! ### `MBEGIN` (43_edge_mask.md R181, R182) -/

theorem natCast_extent {lo hi : Int} (h : lo ≤ hi) : (extent lo hi : Int) = hi - lo + 1 := by
  unfold extent
  omega

theorem natCast_boxBytes {x0 y0 x1 y1 : Int} (hx : x0 ≤ x1) (hy : y0 ≤ y1) :
    (boxBytes x0 y0 x1 y1 : Int) = (x1 - x0 + 1 + 7) / 8 * (y1 - y0 + 1) := by
  rw [boxBytes, rowBytes, Nat.cast_mul, Int.natCast_ediv, Nat.cast_add, natCast_extent hx, natCast_extent hy]
  rfl

theorem exec_mbegin_boxFits {s : State} (h : s.BoxFits) : exec .mbegin s = .next (newMask s).complete := by
  obtain ⟨hx, hy, hfit⟩ := h
  rcases exec_mbegin_cases s with ⟨hbox, -⟩ | ⟨-, -, hover, -⟩ | ⟨-, -, -, e⟩
  · omega
  · omega
  · exact e

/-- Settles O45: the box passes both size checks, and the new mask's RAM is empty. -/
theorem mbeginDefinesAClearedMask : Obligations.MbeginDefinesAClearedMask := by
  intro s hx hy hfit
  have hbox : s.BoxFits := ⟨hx, hy, by rw [← natCast_boxBytes hx hy] at hfit; exact_mod_cast hfit⟩
  exact ⟨_, exec_mbegin_boxFits hbox, rfl, rfl, natCast_extent hx, natCast_extent hy, fun _ _ _ => rfl, rfl, rfl,
    by constructor <;> rfl, ⟨rfl, rfl, rfl⟩, rfl, rfl⟩

/-! ### `MEDGE` (43_edge_mask.md R184, R185, R187) -/

theorem exec_medge_valid {s : State} (h : s.status.maskValid = true) :
    exec .medge s = .next (burn s.theEdge s).complete :=
  (exec_medge_cases s).elim (fun ⟨hn, _⟩ => absurd (hn.symm.trans h) Bool.false_ne_true) And.right

/-- Settles O46: burning changes the mask RAM alone, and there the bits of the visited domain pixels alone. -/
theorem medgeBurnsTheVisitedPixels : Obligations.MedgeBurnsTheVisitedPixels := by
  intro s hv
  have hbits : ∀ lx ly, s.inMask lx ly = true →
      ((burn s.theEdge s).complete.mask lx ly = true ↔
        s.mask lx ly = true ∨ (s.minX + lx, s.minY + ly) ∈ s.theEdge) := fun _ _ h => mask_burn h s.theEdge
  obtain ⟨r, hr⟩ := burn_frame s.theEdge s
  refine ⟨_, exec_medge_valid hv, hbits, ?_⟩
  rw [hr]
  exact ⟨rfl, rfl, rfl, rfl, by constructor <;> rfl, ⟨rfl, rfl, rfl⟩, rfl, rfl⟩

/-! ### The midpoint edge in closed form (43_edge_mask.md R186) -/

theorem midpointEdge_flat {x0 y0 x1 y1 : Int} (h : (y1 - y0).natAbs ≤ (x1 - x0).natAbs) :
    midpointEdge x0 y0 x1 y1 = (List.range ((x1 - x0).natAbs + 1)).map (midpointAt x0 x1 y0 y1) := by
  rw [midpointEdge, if_pos h, midpointWalk_start x0 x1 y0 y1 h]

/-- A steep edge is the flat edge with the axes exchanged. -/
theorem midpointEdge_steep {x0 y0 x1 y1 : Int} (h : (x1 - x0).natAbs < (y1 - y0).natAbs) :
    midpointEdge x0 y0 x1 y1 = (midpointEdge y0 x0 y1 x1).map Prod.swap := by
  rw [midpointEdge, if_neg (Nat.not_le.2 h), midpointEdge, if_pos h.le]
  rfl

theorem getElem?_midpointEdge_flat {x0 y0 x1 y1 : Int} (h : (y1 - y0).natAbs ≤ (x1 - x0).natAbs) {k : Nat}
    (hk : k ≤ (x1 - x0).natAbs) : (midpointEdge x0 y0 x1 y1)[k]? = some (midpointAt x0 x1 y0 y1 k) := by
  rw [midpointEdge_flat h, List.getElem?_map, List.getElem?_range (by omega)]
  rfl

/-! ### The minor steps taken (43_edge_mask.md R188, R190 (d), (e)) -/

section
variable {ap aq : Int} (hq : 0 ≤ aq) (hle : aq ≤ ap)
include hq hle

/-- The edge of one point takes no step. -/
theorem midpointMinor_eq_zero_or_pos (k : Int) : (ap = 0 ∧ aq = 0 ∧ midpointMinor ap aq k = 0) ∨ 0 < ap := by
  rcases (hq.trans hle).eq_or_lt with rfl | hpos
  · obtain rfl := le_antisymm hle hq
    exact .inl ⟨rfl, rfl, by simp [midpointMinor]⟩
  · exact .inr hpos

theorem midpointMinor_at_end : midpointMinor ap aq ap = aq := by
  rcases midpointMinor_eq_zero_or_pos hq hle ap with ⟨-, h, hm⟩ | hpos
  · rw [hm, h]
  · exact midpointMinor_last hpos

/-- The minor coordinate stays within half a step of the exact line. -/
theorem two_mul_natAbs_midpointMinor_sub_le (k : Int) :
    2 * ((ap * midpointMinor ap aq k - aq * k).natAbs : Int) ≤ ap := by
  rcases midpointMinor_eq_zero_or_pos hq hle k with ⟨rfl, rfl, -⟩ | hpos
  · simp
  · obtain ⟨hlow, hhigh⟩ := midpointMinor_bounds (aq := aq) hpos k
    have habs : |2 * (ap * midpointMinor ap aq k - aq * k)| ≤ ap := abs_le.2 ⟨by linarith, by linarith⟩
    rwa [abs_mul, Int.abs_eq_natAbs (_ - _)] at habs

theorem midpointMinor_nonneg {k : Int} (hk : 0 ≤ k) : 0 ≤ midpointMinor ap aq k := by
  rcases midpointMinor_eq_zero_or_pos hq hle k with ⟨-, -, hm⟩ | hpos
  · exact hm.ge
  · have hlow := (midpointMinor_bounds (aq := aq) hpos k).1
    have hqk := mul_nonneg hq hk
    by_contra hneg
    nlinarith

theorem midpointMinor_le {k : Int} (hk : k ≤ ap) : midpointMinor ap aq k ≤ aq := by
  rcases midpointMinor_eq_zero_or_pos hq hle k with ⟨-, h, hm⟩ | hpos
  · rw [hm, h]
  · have hhigh := (midpointMinor_bounds (aq := aq) hpos k).2
    have hqk := mul_le_mul_of_nonneg_left hk hq
    by_contra hgt
    nlinarith

end

/-! ### The exact line and the edge's box (43_edge_mask.md R189, R190) -/

theorem natAbs_stepSign (a b : Int) : (stepSign a b).natAbs = 1 := by
  rcases stepSign_eq a b with h | h <;> rw [h] <;> rfl

/-- Steps toward an endpoint, and no more of them than the distance, stay between the endpoints. -/
theorem add_stepSign_mul_between (a b : Int) {d : Int} (h0 : 0 ≤ d) (h1 : d ≤ ((b - a).natAbs : Int)) :
    min a b ≤ a + stepSign a b * d ∧ a + stepSign a b * d ≤ max a b := by
  unfold stepSign
  split <;> omega

/-- Two pixels are equal or 8-neighbours. -/
def EightNear (u v : Int × Int) : Prop := (v.1 - u.1).natAbs ≤ 1 ∧ (v.2 - u.2).natAbs ≤ 1

/-- What R190 says of the pixels `vs` of an edge. -/
structure TracksLine (x0 y0 x1 y1 : Int) (vs : List (Int × Int)) : Prop where
  first : vs.head? = some (x0, y0)
  last : vs.getLast? = some (x1, y1)
  length : vs.length = max (x1 - x0).natAbs (y1 - y0).natAbs + 1
  nodup : vs.Nodup
  chain : vs.IsChain EightNear
  near : ∀ v ∈ vs, 2 * ((x1 - x0) * (v.2 - y0) - (y1 - y0) * (v.1 - x0)).natAbs ≤
    max (x1 - x0).natAbs (y1 - y0).natAbs
  inBox : ∀ v ∈ vs, min x0 x1 ≤ v.1 ∧ v.1 ≤ max x0 x1 ∧ min y0 y1 ≤ v.2 ∧ v.2 ≤ max y0 y1

theorem TracksLine.swap {x0 y0 x1 y1 : Int} {vs : List (Int × Int)} (h : TracksLine x0 y0 x1 y1 vs) :
    TracksLine y0 x0 y1 x1 (vs.map Prod.swap) where
  first := by rw [List.head?_map, h.first]; rfl
  last := by rw [List.getLast?_map, h.last]; rfl
  length := by rw [List.length_map, h.length, max_comm]
  nodup := h.nodup.map Prod.swap_injective
  chain := (List.isChain_map _).2 (h.chain.imp fun _ _ => And.symm)
  near v hv := by
    obtain ⟨u, hu, rfl⟩ := List.mem_map.1 hv
    rw [max_comm, ← Int.natAbs_neg, neg_sub]
    exact h.near u hu
  inBox v hv := by
    obtain ⟨u, hu, rfl⟩ := List.mem_map.1 hv
    obtain ⟨hx0, hx1, hy0, hy1⟩ := h.inBox u hu
    exact ⟨hy0, hy1, hx0, hx1⟩

section
variable {a0 a1 b0 b1 : Int}

theorem midpointAt_injective : Function.Injective (midpointAt a0 a1 b0 b1) := by
  intro j k h
  have ha : a0 + stepSign a0 a1 * j = a0 + stepSign a0 a1 * k := congrArg Prod.fst h
  rcases stepSign_eq a0 a1 with hs | hs <;> rw [hs] at ha <;> omega

variable (h : (b1 - b0).natAbs ≤ (a1 - a0).natAbs)
include h

theorem midpointAt_end : midpointAt a0 a1 b0 b1 (a1 - a0).natAbs = (a1, b1) := by
  rw [midpointAt, midpointMinor_at_end (by omega) (by omega), stepSign_mul, stepSign_mul, add_sub_cancel,
    add_sub_cancel]

/-- A step moves by one on the dominant axis, and by one or not at all on the other. -/
theorem midpointAt_eightNear_succ {k : Nat} (hk : k < (a1 - a0).natAbs) :
    EightNear (midpointAt a0 a1 b0 b1 k) (midpointAt a0 a1 b0 b1 (k + 1)) := by
  have hminor := midpointMinor_succ (ap := (a1 - a0).natAbs) (aq := (b1 - b0).natAbs) (by omega) (by omega) (by omega) k
  have hsa := stepSign_eq a0 a1
  have hsb := stepSign_eq b0 b1
  constructor
  · simp only [midpointAt]
    rcases hsa with e | e <;> rw [e] <;> omega
  · simp only [midpointAt, Nat.cast_succ]
    rcases hsb with e | e <;> rw [e, hminor] <;> split <;> omega

theorem midpointAt_near (k : Nat) :
    2 * ((a1 - a0) * ((midpointAt a0 a1 b0 b1 k).2 - b0) - (b1 - b0) * ((midpointAt a0 a1 b0 b1 k).1 - a0)).natAbs ≤
      (a1 - a0).natAbs := by
  have hnear := two_mul_natAbs_midpointMinor_sub_le (ap := (a1 - a0).natAbs) (aq := (b1 - b0).natAbs) (by omega)
    (by omega) k
  have hcross : (a1 - a0) * ((midpointAt a0 a1 b0 b1 k).2 - b0) - (b1 - b0) * ((midpointAt a0 a1 b0 b1 k).1 - a0) =
      stepSign a0 a1 * stepSign b0 b1 *
        ((a1 - a0).natAbs * midpointMinor (a1 - a0).natAbs (b1 - b0).natAbs k - (b1 - b0).natAbs * k) := by
    rw [midpointAt, add_sub_cancel_left, add_sub_cancel_left]
    linear_combination stepSign a0 a1 * k * stepSign_mul b0 b1 -
      stepSign b0 b1 * midpointMinor (a1 - a0).natAbs (b1 - b0).natAbs k * stepSign_mul a0 a1
  rw [hcross, Int.natAbs_mul, Int.natAbs_mul, natAbs_stepSign, natAbs_stepSign, one_mul, one_mul]
  exact_mod_cast hnear

theorem midpointAt_inBox {k : Nat} (hk : k ≤ (a1 - a0).natAbs) :
    min a0 a1 ≤ (midpointAt a0 a1 b0 b1 k).1 ∧ (midpointAt a0 a1 b0 b1 k).1 ≤ max a0 a1 ∧
      min b0 b1 ≤ (midpointAt a0 a1 b0 b1 k).2 ∧ (midpointAt a0 a1 b0 b1 k).2 ≤ max b0 b1 := by
  obtain ⟨ha0, ha1⟩ := add_stepSign_mul_between a0 a1 (d := k) (by omega) (by omega)
  obtain ⟨hb0, hb1⟩ := add_stepSign_mul_between b0 b1
    (midpointMinor_nonneg (ap := (a1 - a0).natAbs) (by omega) (by omega) (k := k) (by omega))
    (midpointMinor_le (by omega) (by omega) (by omega))
  exact ⟨ha0, ha1, hb0, hb1⟩

theorem midpointEdge_flat_tracksLine : TracksLine a0 b0 a1 b1 (midpointEdge a0 b0 a1 b1) where
  first := by rw [midpointEdge, if_pos h, midpointWalk_head]
  last := by
    rw [midpointEdge_flat h, List.range_succ, List.map_append, List.map_singleton, List.getLast?_concat,
      midpointAt_end h]
  length := by rw [midpointEdge_flat h, List.length_map, List.length_range, max_eq_left h]
  nodup := by rw [midpointEdge_flat h]; exact List.nodup_range.map midpointAt_injective
  chain := by
    rw [midpointEdge_flat h, List.isChain_map, List.isChain_range_succ]
    exact fun k hk => midpointAt_eightNear_succ h hk
  near v hv := by
    rw [midpointEdge_flat h] at hv
    obtain ⟨k, -, rfl⟩ := List.mem_map.1 hv
    rw [max_eq_left h]
    exact midpointAt_near h k
  inBox v hv := by
    rw [midpointEdge_flat h] at hv
    obtain ⟨k, hk, rfl⟩ := List.mem_map.1 hv
    exact midpointAt_inBox h (Nat.le_of_lt_succ (List.mem_range.1 hk))

end

theorem midpointEdge_tracksLine (x0 y0 x1 y1 : Int) : TracksLine x0 y0 x1 y1 (midpointEdge x0 y0 x1 y1) := by
  rcases le_or_gt (y1 - y0).natAbs (x1 - x0).natAbs with hflat | hsteep
  · exact midpointEdge_flat_tracksLine hflat
  · rw [midpointEdge_steep hsteep]
    exact (midpointEdge_flat_tracksLine hsteep.le).swap

/-- Settles O47: by the closed form of a flat edge, and by the exchange of the axes for a steep one. -/
theorem midpointEdgeTracksTheExactLine : Obligations.MidpointEdgeTracksTheExactLine := by
  intro x0 y0 x1 y1
  have h := midpointEdge_tracksLine x0 y0 x1 y1
  exact ⟨h.first, h.last, h.length, h.nodup,
    fun _ _ _ _ e => List.isChain_iff_forall_rel_of_append_cons_cons.1 h.chain e,
    fun v hv => ⟨h.near v hv, h.inBox v hv⟩⟩

/-! ### Ties (43_edge_mask.md R188) -/

/-- The minor steps taken, as a number of steps. -/
theorem exists_midpointMinor_steps {ap aq : Nat} (hpos : 0 < ap) (hle : aq ≤ ap) (i : Nat) :
    ∃ m : Nat, midpointMinor ap aq i = m ∧ 2 * i * aq ≤ 2 * ap * m + ap ∧ 2 * ap * m < 2 * i * aq + ap ∧
      (2 * (i + 1) * aq = 2 * ap * m + ap → midpointMinor ap aq (i + 1) = m) := by
  have hp : (0 : Int) < ap := by omega
  have hnonneg : 0 ≤ midpointMinor ap aq i := midpointMinor_nonneg (by omega) (by omega) (by omega)
  obtain ⟨m, hm⟩ := Int.eq_ofNat_of_zero_le hnonneg
  obtain ⟨hlow, hhigh⟩ := midpointMinor_bounds (aq := aq) hp i
  rw [hm] at hlow hhigh
  refine ⟨m, hm, ?_, ?_, fun htie => midpointMinor_unique hp ?_ ?_⟩
  · zify
    linarith
  · zify
    linarith
  · zify at htie
    linarith
  · zify at htie
    linarith

/-- A flat edge's pixel at step `i`, and at step `i + 1` after an exact tie. -/
theorem midpointEdge_flat_tie {x0 y0 x1 y1 : Int} {i : Nat} (h : (y1 - y0).natAbs ≤ (x1 - x0).natAbs)
    (hpos : 0 < (x1 - x0).natAbs) (hi : i ≤ (x1 - x0).natAbs) :
    ∃ m : Nat, (midpointEdge x0 y0 x1 y1)[i]? = some (x0 + stepSign x0 x1 * i, y0 + stepSign y0 y1 * m) ∧
      2 * i * (y1 - y0).natAbs ≤ 2 * (x1 - x0).natAbs * m + (x1 - x0).natAbs ∧
      2 * (x1 - x0).natAbs * m < 2 * i * (y1 - y0).natAbs + (x1 - x0).natAbs ∧
      (i < (x1 - x0).natAbs →
        2 * (i + 1) * (y1 - y0).natAbs = 2 * (x1 - x0).natAbs * m + (x1 - x0).natAbs →
        (midpointEdge x0 y0 x1 y1)[i + 1]? = some (x0 + stepSign x0 x1 * (i + 1), y0 + stepSign y0 y1 * m)) := by
  obtain ⟨m, hm, hlow, hhigh, htie⟩ := exists_midpointMinor_steps hpos h i
  refine ⟨m, ?_, hlow, hhigh, fun hlt e => ?_⟩
  · rw [getElem?_midpointEdge_flat h hi, midpointAt, hm]
  · rw [getElem?_midpointEdge_flat h hlt, midpointAt, Nat.cast_succ, htie e]

/-- Settles O48: the step of a flat edge, and of a steep one with the axes exchanged. -/
theorem midpointTieDependsOnDirection : Obligations.MidpointTieDependsOnDirection := by
  refine ⟨fun x0 y0 x1 y1 i => ⟨midpointEdge_flat_tie, fun h hi => ?_⟩, by decide, by decide⟩
  obtain ⟨m, hat, hlow, hhigh, htie⟩ :=
    midpointEdge_flat_tie (x0 := y0) (y0 := x0) (x1 := y1) (y1 := x1) h.le (by omega) hi
  rw [midpointEdge_steep h]
  refine ⟨m, ?_, hlow, hhigh, fun hlt e => ?_⟩
  · rw [List.getElem?_map, hat]
    rfl
  · rw [List.getElem?_map, htie hlt e]
    rfl

end Sys2Proof.Machine
end

section
/-! SUPPORT. `FILL` (44_flood_fill.md): the ends of its loop as results of the whole command: nothing is painted
without a seed, an end with DONE has painted the component, and every end keeps the frame. -/

namespace Sys2Proof.Machine

/-! ### A seed outside the domain or on a set bit (44_flood_fill.md R200 to R202, R207) -/

/-- Past its start checks a `FILL` starts from the seed's local pixel. -/
theorem exec_fill_started {s : State} (hv : s.status.maskValid = true) (ha : s.latch.aligned = true) :
    exec .fill s = .next (finish (startFill (s.latch.x0 - s.minX) (s.latch.y0 - s.minY) s)) := by
  rw [exec_eq]
  simp only [begin, beginFill, hv, ha, Bool.not_true, Bool.false_eq_true, if_false]

/-- A popped seed on a set bit is skipped. -/
theorem stepPop_set {s : State} {x y : Nat} {rest : List Seed} (hs : s.seeds = (x, y) :: rest)
    (hm : s.mask x y = true) : stepPop s = State.goto (.fill .pop) { s with seeds := rest } := by
  simp only [stepPop, hs, hm, if_true]

/-- A loop whose only seed is on a set bit pops it, finds the store empty and ends. -/
theorem finish_onlySeed_set {s : State} {x y : Nat} (hs : s.seeds = [(x, y)]) (hm : s.mask x y = true) :
    finish (s.goto (.fill .pop)) = (State.endFill { s with seeds := [] }).complete := by
  have hpop : engineStep (s.goto (.fill .pop)) = State.goto (.fill .pop) { s with seeds := [] } := stepPop_set hs hm
  have hrun : runEngine 2 (s.goto (.fill .pop)) = (State.endFill { s with seeds := [] }).complete := by
    rw [runEngine_succ, hpop]
    rfl
  have hbudget : 2 ≤ budget (s.goto (.fill .pop)) := by
    show 2 ≤ 12 * (s.maskWidth * s.maskHeight) + 5 * s.seeds.length + 0 + 1
    rw [hs, List.length_singleton]
    omega
  rw [finish, runEngine_of_idle (by rw [hrun]; rfl) hbudget, hrun]

/-- With no unset domain pixel at its seed, a `FILL` goes straight to its end. -/
theorem exec_fill_noSeed {s : State} (hv : s.status.maskValid = true) (ha : s.latch.aligned = true)
    (h : ∀ lx ly : Nat, s.minX + lx = s.latch.x0 → s.minY + ly = s.latch.y0 → ¬s.Unset lx ly) :
    exec .fill s = .next (State.endFill { s with seeds := [] }).complete := by
  rw [exec_fill_started hv ha, startFill]
  split
  · next hin =>
    obtain ⟨hx, hxw, hy, hyh⟩ := hin
    have hset : s.mask (s.latch.x0 - s.minX).toNat (s.latch.y0 - s.minY).toNat = true :=
      Bool.eq_true_of_not_eq_false fun hm =>
        h _ _ (by omega) (by omega) ⟨State.inMask_iff.2 ⟨by omega, by omega⟩, hm⟩
    exact congrArg _ (finish_onlySeed_set (s := { s with seeds := [_] }) rfl hset)
  · exact congrArg _ (finish_idle rfl)

/-- Settles O49: the seed is dropped, before the loop or by its first step, and the fill ends. -/
theorem fillFromNoSeedOnlyDropsTheMask : Obligations.FillFromNoSeedOnlyDropsTheMask := fun _ hv ha h =>
  have hexec := exec_fill_noSeed hv ha h
  ⟨_, hexec, exec_sameHostSide hexec, ⟨rfl, rfl, rfl⟩, rfl, rfl, rfl, rfl, rfl⟩

/-! ### What is painted (44_flood_fill.md R208, R209) -/

/-- The component holds no pixel when no domain pixel is the seed. -/
theorem State.not_component {s : State}
    (h : ¬∃ x y : Nat, s.inMask x y = true ∧ s.minX + x = s.latch.x0 ∧ s.minY + y = s.latch.y0) (x y : Nat) :
    ¬s.Component x y := fun hc => by
  induction hc with
  | seed x y hx hy hu => exact h ⟨x, y, hu.1, hx, hy⟩
  | step _ _ _ _ _ _ _ ih => exact ih

/-- Before anything is painted. -/
theorem State.FillWeak.nil (s : State) : s.FillWeak s [] where
  rest := .refl s
  grows _ _ _ h := h
  sound _ _ _ h := .inl h
  painted := by simp
  nodup := List.nodup_nil
  trace := rfl
  mem := .nil

/-- A container whose bytes are the colour's holds the colour. -/
theorem State.pixelAt_of_bytes {s : State} {a : Word}
    (h : ∀ k < s.latch.fmt.bpp,
      Memory.read s.mem ((a.toNat + k) % 2 ^ 32) = BitVec.ofNat 8 (s.latch.colC.toNat / 256 ^ k)) :
    s.pixelAt a = s.latch.colC := by
  rw [State.pixelAt, loadLE_of_bytes _ _ _ _ h]
  exact pixel_roundTrip _ _ s.latch.colC_lt

/-- When all of the component is marked, and written where it lies in the frame, the component is painted. -/
theorem State.FillWeak.fillPainted {s u : State} {order : List Seed} (h : s.FillWeak u order) (hm : Memory.wf s.mem)
    (hmarked : ∀ x y, s.Component x y → u.mask x y = true)
    (hwritten : ∀ q : Seed, s.Component q.1 q.2 → s.imageInFrame q.1 q.2 = true → q ∈ order) :
    s.FillPainted u where
  marks x y hi := ⟨h.sound x y hi, fun hor => hor.elim (h.grows x y hi) (hmarked x y)⟩
  writes := ⟨order, h.nodup, fun q => ⟨h.painted q, fun hq => hwritten q hq.1 hq.2⟩, h.trace⟩
  colour x y hc hf := by
    have hcol := (h.mem hm).colour (x, y) (hwritten (x, y) hc hf)
    rw [← h.rest.latch] at hcol ⊢
    exact State.pixelAt_of_bytes hcol
  others b hb := (h.mem hm).others b fun q hq => hb q.1 q.2 (h.painted q hq).1 (h.painted q hq).2

/-- The end of the fill changes nothing that is painted. -/
theorem State.FillPainted.endFill {s u : State} (h : s.FillPainted u) : s.FillPainted u.endFill.complete :=
  ⟨h.marks, h.writes, h.colour, h.others⟩

theorem State.FillLoop.fillPainted {s u : State} {order : List Seed} (h : s.FillLoop u .pop order)
    (he : u.seeds = []) (hm : Memory.wf s.mem) : s.FillPainted u :=
  have hpainted {x y : Nat} (hc : s.Component x y) : s.Painted u x y := (h.painted_iff he x y).2 hc
  h.toFillWeak.fillPainted hm (fun _ _ hc => (hpainted hc).2.1) fun q hc hf => h.complete q (hpainted hc) hf

/-- The command has painted the component and ended with DONE. -/
structure State.FillDone (s t : State) : Prop where
  painted : s.FillPainted t
  idle : t.progress = .idle
  status : t.status = { s.status with maskValid := false, busy := false, done := true }

/-- Past its start checks a `FILL` paints the component and ends with DONE; or it ends with an error, since the bus
refused an in-frame pixel of the component or the store is shallower than the bound on the pushes. -/
theorem exec_fill_outcome {s : State} (hm : Memory.wf s.mem) (hv : s.status.maskValid = true)
    (ha : s.latch.aligned = true) : ∃ t, exec .fill s = .next t ∧
      (s.FillDone t ∨ t.status.err = true ∧
        ((∃ x y, s.Component x y ∧ s.imageInFrame x y = true ∧ s.admitsPixel (s.imageAddr x y) = false) ∨
          s.cfg.seedDepth < 2 * (s.maskWidth * s.maskHeight) + 1)) := by
  rcases exec_fill_cases s with ⟨hn, -⟩ | ⟨-, hn, -⟩ | ⟨-, -, hseed, hexec⟩ | ⟨-, -, t, hexec, hend⟩
  · exact absurd (hn.symm.trans hv) Bool.false_ne_true
  · exact absurd (hn.symm.trans ha) Bool.false_ne_true
  · have hnone := State.not_component hseed
    have hpainted : s.FillPainted s := (State.FillWeak.nil s).fillPainted hm (fun x y hc => absurd hc (hnone x y))
      fun q hc => absurd hc (hnone q.1 q.2)
    exact ⟨_, hexec, .inl ⟨hpainted.endFill, rfl, rfl⟩⟩
  · refine ⟨t, hexec, ?_⟩
    cases hend with
    | done u order hloop he =>
      refine .inl ⟨(hloop.fillPainted he hm).endFill, rfl, ?_⟩
      rw [← hloop.rest.status]
      rfl
    | refused u order x y _ hc hf hadm => exact .inr ⟨rfl, .inl ⟨x, y, hc, hf, hadm⟩⟩
    | overflow u order _ hdepth => exact .inr ⟨rfl, .inr hdepth⟩

/-- Settles O50: an end without error is the end with DONE. -/
theorem fillWithoutErrorPaintsTheComponent : Obligations.FillWithoutErrorPaintsTheComponent := by
  intro s t hm hv ha _ hexec herr
  obtain ⟨t', hexec', hout⟩ := exec_fill_outcome hm hv ha
  obtain rfl : t' = t := Host.Outcome.next.inj (hexec'.symm.trans hexec)
  rcases hout with hdone | ⟨hfail, -⟩
  · exact hdone.painted
  · exact absurd (herr.symm.trans hfail) Bool.false_ne_true

/-- Settles O51: no access is refused, the component lying in the domain, and no push overflows. -/
theorem fillCompletesWhenTheStoreIsDeepEnough : Obligations.FillCompletesWhenTheStoreIsDeepEnough := by
  intro s hm hv ha hdepth hadmits
  obtain ⟨t, hexec, hdone | ⟨-, ⟨x, y, hc, hf, hrefused⟩ | hshallow⟩⟩ := exec_fill_outcome hm hv ha
  · exact ⟨t, hexec, hdone.painted, hdone.idle, hdone.status⟩
  · exact absurd (hrefused.symm.trans (hadmits x y hc.unset.1 hf)) Bool.false_ne_true
  · omega

/-! ### The frame of a fill, however it ends (44_flood_fill.md R203, R204, R207, R211) -/

/-- Mask and memory at the end of a fill are those of a moment of its loop, and an aligned fill drops the mask. -/
theorem exec_fill_weak {s t : State} (h : exec .fill s = .next t) : ∃ u order, s.FillWeak u order ∧
    (∀ x y, t.mask x y = u.mask x y) ∧ t.mem = u.mem ∧ (s.latch.aligned = true → t.status.maskValid = false) := by
  rcases exec_fill_cases s with ⟨hv, e⟩ | ⟨-, ha, e⟩ | ⟨-, -, -, e⟩ | ⟨-, -, t', e, hend⟩ <;>
    obtain rfl := Host.Outcome.next.inj (e.symm.trans h)
  · exact ⟨s, [], .nil s, fun _ _ => rfl, rfl, fun _ => hv⟩
  · exact ⟨s, [], .nil s, fun _ _ => rfl, rfl, fun ha' => absurd (ha.symm.trans ha') Bool.false_ne_true⟩
  · exact ⟨s, [], .nil s, fun _ _ => rfl, rfl, fun _ => rfl⟩
  · cases hend with
    | done u order hloop _ => exact ⟨u, order, hloop.toFillWeak, fun _ _ => rfl, rfl, fun _ => rfl⟩
    | refused u order x y hw _ _ _ => exact ⟨u, order, hw, fun _ _ => rfl, rfl, fun _ => rfl⟩
    | overflow u order hw _ => exact ⟨u, order, hw, fun _ _ => rfl, rfl, fun _ => rfl⟩

/-- A byte outside the written containers is as before; a byte inside one is the colour's. -/
theorem State.FillMem.byte {s : State} {m : List Host.Cell} {order : List Seed} (h : s.FillMem m order) (b : Nat) :
    Memory.read m b = Memory.read s.mem b ∨ ∃ q ∈ order, ∃ k < s.latch.fmt.bpp,
      b = ((s.imageAddr q.1 q.2).toNat + k) % 2 ^ 32 ∧
      Memory.read m b = BitVec.ofNat 8 (s.latch.colC.toNat / 256 ^ k) := by
  by_cases hin : ∃ q ∈ order, b ∈ bytesAt (s.imageAddr q.1 q.2) s.latch.fmt.bpp
  · obtain ⟨q, hq, hb⟩ := hin
    obtain ⟨k, hk, rfl⟩ := mem_bytesAt.1 hb
    exact .inr ⟨q, hq, k, hk, rfl, h.colour q hq k hk⟩
  · exact .inl (h.others b fun q hq hb => hin ⟨q, hq, hb⟩)

/-- Settles O52: at every moment of a fill the marks only grow, and memory holds the colour where a component pixel was
written. -/
theorem fillOnlyPaintsInsideTheComponent : Obligations.FillOnlyPaintsInsideTheComponent := by
  intro s t hm h
  obtain ⟨u, order, hweak, hmask, hmem, hvalid⟩ := exec_fill_weak h
  obtain ⟨hmin, hmax⟩ := exec_corners h nofun
  refine ⟨exec_sameHostSide h, hmin, hmax, fun x y hi hset => ?_, fun b => ?_, hvalid⟩
  · rw [hmask]
    exact hweak.grows x y hi hset
  · rw [hmem]
    refine ((hweak.mem hm).byte b).imp_right fun ⟨q, hq, k, hk, hb, hbyte⟩ => ?_
    obtain ⟨hc, hf⟩ := hweak.painted q hq
    exact ⟨q.1, q.2, k, hc, hf, hk, hb, hbyte⟩

end Sys2Proof.Machine
end

section
/-! SUPPORT. How commands end with errors (60_exceptions.md): one end with its own codes (R261, R263, R264), the start
checks (R262), the refused accesses and the full seed store (R265, R266, 10_state.md R42). -/

namespace Sys2Proof.Machine

/-! ### One end, with a code of the command's own (60_exceptions.md R261, R263, R264) -/

/-- From `s` to `t` a command ended with DONE alone, or with ERR alone and an allowed code. -/
def State.EndsOneWay (s t : State) (allowed : ErrCode → Prop) : Prop :=
  (t.status.done = true ∧ t.status.err = s.status.err ∧ t.status.errcode = s.status.errcode) ∨
  (t.status.err = true ∧ t.status.done = s.status.done ∧ allowed t.status.errcode)

section
variable {s u t : State} {allowed : ErrCode → Prop}

theorem State.EndsOneWay.complete (he : u.status.err = s.status.err) (hc : u.status.errcode = s.status.errcode) :
    s.EndsOneWay u.complete allowed := .inl ⟨rfl, he, hc⟩

theorem State.EndsOneWay.raise {code : ErrCode} (hd : u.status.done = s.status.done) (h : allowed code) :
    s.EndsOneWay (u.raise code) allowed := .inr ⟨rfl, hd, h⟩

theorem State.EndsOneWay.busError (hd : u.status.done = s.status.done) (h : allowed .busError) (a : Word) :
    s.EndsOneWay (u.busError a) allowed := .inr ⟨rfl, hd, h⟩

/-- The loop of a fill ends with DONE, with BUS_ERROR or with SEED_OVERFLOW. -/
theorem State.FillEnd.endsOneWay (h : s.FillEnd t) (hbus : allowed .busError) (hseed : allowed .seedOverflow) :
    s.EndsOneWay t allowed := by
  cases h with
  | done u _ hloop _ =>
    have he : u.status.err = s.status.err := congrArg Status.err hloop.rest.status
    have hc : u.status.errcode = s.status.errcode := congrArg Status.errcode hloop.rest.status
    exact .complete he hc
  | refused u _ x y hweak =>
    have hd : u.status.done = s.status.done := congrArg Status.done hweak.rest.status
    exact .raise hd hbus
  | overflow u _ hweak =>
    have hd : u.status.done = s.status.done := congrArg Status.done hweak.rest.status
    exact .raise hd hseed

theorem exec_plot_endsOneWay {cov : Nat} (h : exec (.plot cov) s = .next t) :
    s.EndsOneWay t (· ∈ [.align, .busError]) := by
  have hst := State.plotted_status (s.thePlot cov) s
  rcases exec_plot_cases cov s with ⟨-, e⟩ | ⟨-, -, e⟩ | ⟨-, -, -, e⟩ <;>
    obtain rfl := Host.Outcome.next.inj (e.symm.trans h)
  · exact .raise rfl (by decide)
  · exact .complete (congrArg Status.err hst) (congrArg Status.errcode hst)
  · exact .busError rfl (by decide) _

theorem exec_line_endsOneWay (h : exec .line s = .next t) : s.EndsOneWay t (· ∈ [.align, .busError]) := by
  have hst := fun ps => State.plottedAll_status ps s
  rcases exec_line_cases s with ⟨-, e⟩ | ⟨-, -, e⟩ | ⟨-, before, _, _, -, -, -, -, e⟩ <;>
    obtain rfl := Host.Outcome.next.inj (e.symm.trans h)
  · exact .raise rfl (by decide)
  · exact .complete (congrArg Status.err (hst _)) (congrArg Status.errcode (hst _))
  · exact .busError (congrArg Status.done (hst before)) (by decide) _

theorem exec_mbegin_endsOneWay (h : exec .mbegin s = .next t) :
    s.EndsOneWay t (· ∈ [.bboxInvalid, .maskOverflow]) := by
  rcases exec_mbegin_cases s with ⟨-, e⟩ | ⟨-, -, -, e⟩ | ⟨-, -, -, e⟩ <;>
    obtain rfl := Host.Outcome.next.inj (e.symm.trans h)
  · exact .raise rfl (by decide)
  · exact .raise rfl (by decide)
  · exact .complete rfl rfl

theorem exec_medge_endsOneWay (h : exec .medge s = .next t) : s.EndsOneWay t (· = .noMask) := by
  have hst := burn_status s.theEdge s
  rcases exec_medge_cases s with ⟨-, e⟩ | ⟨-, e⟩ <;> obtain rfl := Host.Outcome.next.inj (e.symm.trans h)
  · exact .raise rfl rfl
  · exact .complete (congrArg Status.err hst) (congrArg Status.errcode hst)

theorem exec_fill_endsOneWay (h : exec .fill s = .next t) :
    s.EndsOneWay t (· ∈ [.noMask, .align, .seedOverflow, .busError]) := by
  rcases exec_fill_cases s with ⟨-, e⟩ | ⟨-, -, e⟩ | ⟨-, -, -, e⟩ | ⟨-, -, u, e, hend⟩ <;>
    obtain rfl := Host.Outcome.next.inj (e.symm.trans h)
  · exact .raise rfl (by decide)
  · exact .raise rfl (by decide)
  · exact .complete rfl rfl
  · exact hend.endsOneWay (by decide) (by decide)

end

/-- Settles O20: each command's ends are completions, or raise one of its codes. -/
theorem commandEndsOneWay : Obligations.CommandEndsOneWay := by
  intro i s t h
  cases i with
  | nop =>
    obtain rfl := Host.Outcome.next.inj ((exec_nop s).symm.trans h)
    exact State.EndsOneWay.complete (allowed := fun _ => False) rfl rfl
  | plot cov => exact exec_plot_endsOneWay h
  | line => exact exec_line_endsOneWay h
  | mbegin => exact exec_mbegin_endsOneWay h
  | medge => exact exec_medge_endsOneWay h
  | fill => exact exec_fill_endsOneWay h

/-! ### The start checks (60_exceptions.md R262) -/

/-- The NO_MASK check comes before every other of `MEDGE` and `FILL`. -/
theorem exec_noMask {i : Instr} {s : State} (hi : i = .medge ∨ i = .fill) (hv : s.status.maskValid = false) :
    exec i s = .next (s.raise .noMask) := by
  rcases hi with rfl | rfl
  · rcases exec_medge_cases s with ⟨-, e⟩ | ⟨hv', -⟩
    · exact e
    · exact absurd (hv.symm.trans hv') Bool.false_ne_true
  · rcases exec_fill_cases s with ⟨-, e⟩ | ⟨hv', -⟩ | ⟨hv', -⟩ | ⟨hv', -⟩
    · exact e
    all_goals exact absurd (hv.symm.trans hv') Bool.false_ne_true

theorem exec_mbegin_unordered {s : State} (h : s.latch.x1 < s.latch.x0 ∨ s.latch.y1 < s.latch.y0) :
    exec .mbegin s = .next (failBegin .bboxInvalid s) := by
  rcases exec_mbegin_cases s with ⟨-, e⟩ | ⟨hx, hy, -⟩ | ⟨hx, hy, -⟩
  · exact e
  all_goals omega

theorem exec_mbegin_tooLarge {s : State} (hx : s.latch.x0 ≤ s.latch.x1) (hy : s.latch.y0 ≤ s.latch.y1)
    (h : s.cfg.maskBytes < boxBytes s.latch.x0 s.latch.y0 s.latch.x1 s.latch.y1) :
    exec .mbegin s = .next (failBegin .maskOverflow s) := by
  rcases exec_mbegin_cases s with ⟨hbox, -⟩ | ⟨-, -, -, e⟩ | ⟨-, -, hfit, -⟩
  · omega
  · exact e
  · omega

/-- Settles O23: the first failing check ends the command at its first step. -/
theorem startChecksReportTheFirstFailure : Obligations.StartChecksReportTheFirstFailure := by
  refine fun s => ⟨fun i => exec_noMask, fun i hi ha => exec_misaligned ha hi,
    fun h => ⟨_, _, exec_mbegin_unordered h⟩, fun hx hy h => ⟨_, _, exec_mbegin_tooLarge hx hy ?_⟩⟩
  rw [← natCast_boxBytes hx hy] at h
  exact_mod_cast h

/-! ### Refused accesses (60_exceptions.md R266) -/

theorem stepPlot_refused {p : Plot} {s : State} (ht : s.touches p = true)
    (hr : s.admitsPixel (s.plotAddr p) = false) (rest : List Plot) :
    stepPlot p rest s = s.busError (s.plotAddr p) := by
  rcases stepPlot_cases p rest s with ⟨ht', -⟩ | ⟨-, -, e⟩ | ⟨-, hr', -⟩ | ⟨-, hr', -⟩
  · exact absurd (ht'.symm.trans ht) Bool.false_ne_true
  · exact e
  · exact absurd (hr.symm.trans hr') Bool.false_ne_true
  · exact absurd (hr.symm.trans hr') Bool.false_ne_true

/-- The end of a fill at a refused paint of a local pixel that is already marked. -/
theorem paintThen_refused {s : State} {x y : Nat} (hf : s.imageInFrame x y = true)
    (hr : s.admitsPixel (s.imageAddr x y) = false) (k : Cont) :
    paintThen x y k s = State.raise .busError (State.endFill { s with faultAddr := s.imageAddr x y }) := by
  rw [State.imageInFrame] at hf
  rw [State.imageAddr] at hr
  simp only [paintThen, hf, hr, Bool.not_true, Bool.not_false, Bool.false_eq_true, if_false, if_true]
  rfl

/-- Either scan paints the unset pixel before it. -/
theorem stepFill_paints {s : State} {x y : Nat} {pos : FillPos} (hm : s.mask x y = false) (hx : x < s.maskWidth)
    (hpos : (∃ x0, pos = .right x0 y x) ∨ ∃ e, pos = .left y (x + 1) e) :
    ∃ k, stepFill pos s = paintThen x y k (s.mark x y) := by
  rcases hpos with ⟨x0, rfl⟩ | ⟨e, rfl⟩
  · exact ⟨_, if_pos ⟨hx, hm⟩⟩
  · exact ⟨_, if_pos hm⟩

/-! ### The pushes of a column (10_state.md R42, 44_flood_fill.md R202, R205) -/

/-- None of the pushes of these seeds finds the store full. -/
abbrev State.HasRoom (s : State) (new : List Seed) : Prop :=
  new = [] ∨ s.seeds.length + new.length ≤ s.cfg.seedDepth

@[simp] theorem State.hasRoom_nil (s : State) : s.HasRoom [] := .inl rfl

theorem State.hasRoom_cons (s : State) (q : Seed) (new : List Seed) :
    s.HasRoom (q :: new) ↔ s.seeds.length + (new.length + 1) ≤ s.cfg.seedDepth := or_iff_right nofun

theorem State.moreSeeds_moreSeeds (s : State) (older newer : List Seed) :
    (s.moreSeeds older).moreSeeds newer = s.moreSeeds (newer ++ older) := by
  simp only [State.moreSeeds, List.append_assoc]

theorem State.hasRoom_append (s : State) (older newer : List Seed) :
    s.HasRoom (newer ++ older) ↔ s.HasRoom older ∧ (s.moreSeeds older).HasRoom newer := by
  cases older with
  | nil => simp
  | cons p ps =>
    cases newer with
    | nil => simp
    | cons q qs =>
      simp only [List.cons_append, State.hasRoom_cons, State.moreSeeds, List.length_append, List.length_cons]
      omega

/-- The seed that a row takes at column `c`, if any. -/
def State.rowPush (s : State) (c y : Nat) (latch : Bool) : List Seed :=
  if s.mask c y = false ∧ latch = false then [(c, y)] else []

theorem seedRow_eq (c y : Nat) (latch : Bool) (s : State) :
    seedRow c y latch s = if s.HasRoom (s.rowPush c y latch) then
      some (s.moreSeeds (s.rowPush c y latch), !s.mask c y) else none := by
  unfold seedRow State.rowPush
  cases hm : s.mask c y
  · cases latch
    · by_cases hroom : s.seeds.length < s.cfg.seedDepth
      · simp [State.push?, State.hasRoom_cons, hroom, State.moreSeeds]
      · simp [State.push?, State.hasRoom_cons, hroom]
    · simp
  · simp

/-- The push into the row above, where there is one. -/
def State.abovePush (s : State) (y c : Nat) (la : Bool) : List Seed :=
  if 0 < y ∧ s.mask c (y - 1) = false ∧ la = false then [(c, y - 1)] else []

/-- The push into the row below, where there is one. -/
def State.belowPush (s : State) (y c : Nat) (lb : Bool) : List Seed :=
  if y + 1 < s.maskHeight ∧ s.mask c (y + 1) = false ∧ lb = false then [(c, y + 1)] else []

theorem State.pushesAt_eq (s : State) (y c : Nat) (la lb : Bool) :
    s.pushesAt y c la lb = s.belowPush y c lb ++ s.abovePush y c la := rfl

theorem seedAbove_eq (c y : Nat) (la : Bool) (s : State) :
    seedAbove c y la s = if s.HasRoom (s.abovePush y c la) then
      some (s.moreSeeds (s.abovePush y c la), if 0 < y then !s.mask c (y - 1) else la) else none := by
  cases y with
  | zero => simp [seedAbove, State.abovePush]
  | succ up =>
    have hpush : s.abovePush (up + 1) c la = s.rowPush c up la := by simp [State.abovePush, State.rowPush]
    rw [hpush, if_pos (Nat.succ_pos up)]
    exact seedRow_eq c up la s

theorem seedBelow_eq (c y : Nat) (lb : Bool) (s : State) :
    seedBelow c y lb s = if s.HasRoom (s.belowPush y c lb) then
      some (s.moreSeeds (s.belowPush y c lb), if y + 1 < s.maskHeight then !s.mask c (y + 1) else lb) else none := by
  unfold seedBelow
  by_cases hy : y + 1 < s.maskHeight
  · have hpush : s.belowPush y c lb = s.rowPush c (y + 1) lb := by simp [State.belowPush, State.rowPush, hy]
    rw [if_pos hy, if_pos hy, hpush]
    exact seedRow_eq c (y + 1) lb s
  · have hpush : s.belowPush y c lb = [] := if_neg fun h => hy h.1
    simp [hpush, hy]

/-- The pushes into the row above do not change what the row below takes. -/
theorem seedBelow_moreSeeds (c y : Nat) (lb : Bool) (new : List Seed) (s : State) :
    seedBelow c y lb (s.moreSeeds new) = if (s.moreSeeds new).HasRoom (s.belowPush y c lb) then
      some ((s.moreSeeds new).moreSeeds (s.belowPush y c lb),
        if y + 1 < s.maskHeight then !s.mask c (y + 1) else lb) else none :=
  seedBelow_eq c y lb (s.moreSeeds new)

theorem State.hasRoom_pushesAt (s : State) (y c : Nat) (la lb : Bool) :
    s.HasRoom (s.pushesAt y c la lb) ↔
      s.HasRoom (s.abovePush y c la) ∧ (s.moreSeeds (s.abovePush y c la)).HasRoom (s.belowPush y c lb) :=
  s.hasRoom_append _ _

/-- With room for the column's pushes they are stored, and the scan goes on. -/
theorem stepRows_pushes {s : State} {y c e : Nat} {la lb : Bool} (hce : c < e)
    (hroom : s.HasRoom (s.pushesAt y c la lb)) :
    stepRows y c e la lb s = (s.moreSeeds (s.pushesAt y c la lb)).goto (.fill (.rows y (c + 1) e
      (if 0 < y then !s.mask c (y - 1) else la) (if y + 1 < s.maskHeight then !s.mask c (y + 1) else lb))) := by
  obtain ⟨habove, hbelow⟩ := (s.hasRoom_pushesAt y c la lb).1 hroom
  simp only [stepRows, if_pos hce, seedAbove_eq, if_pos habove, seedBelow_moreSeeds, if_pos hbelow,
    State.pushesAt_eq, State.moreSeeds_moreSeeds]

/-- Without it the fill overflows, after those pushes that still fitted. -/
theorem stepRows_overflows {s : State} {y c e : Nat} {la lb : Bool} (hce : c < e)
    (hfull : ¬s.HasRoom (s.pushesAt y c la lb)) :
    ∃ new, stepRows y c e la lb s = seedOverflow (s.moreSeeds new) := by
  by_cases habove : s.HasRoom (s.abovePush y c la)
  · have hbelow : ¬(s.moreSeeds (s.abovePush y c la)).HasRoom (s.belowPush y c lb) :=
      fun h => hfull ((s.hasRoom_pushesAt y c la lb).2 ⟨habove, h⟩)
    exact ⟨s.abovePush y c la, by
      simp only [stepRows, if_pos hce, seedAbove_eq, if_pos habove, seedBelow_moreSeeds, if_neg hbelow]⟩
  · exact ⟨[], by simp only [stepRows, if_pos hce, seedAbove_eq, if_neg habove, State.moreSeeds_nil]⟩

/-! ### The engine's step at each of these places -/

theorem engineStep_plots {s : State} {p : Plot} {rest : List Plot}
    (hp : s.progress = .running (.plots (p :: rest))) : engineStep s = stepPlot p rest s := by
  rw [engineStep, hp]
  rfl

theorem engineStep_blendWrite {s : State} {a v : Word} {rest : List Plot}
    (hp : s.progress = .running (.blendWrite a v rest)) : engineStep s = stepBlendWrite a v rest s := by
  rw [engineStep, hp]

theorem engineStep_fill {s : State} {pos : FillPos} (hp : s.progress = .running (.fill pos)) :
    engineStep s = stepFill pos s := by
  rw [engineStep, hp]

/-- Settles O25: by the place where the step stands, and by whether the store has room. -/
theorem refusedAccessOrFullPushEndsTheCommand : Obligations.RefusedAccessOrFullPushEndsTheCommand := by
  refine fun s => ⟨fun p rest hp ht hr => ?_, fun a v rest hp hr => ?_, fun x y pos hp hm hx hpos hf hr => ?_,
    fun y c e la lb hp hce => ⟨fun hroom => ?_, fun hsome hmany => ?_⟩⟩
  · exact (engineStep_plots hp).trans (stepPlot_refused ht hr rest)
  · exact (engineStep_blendWrite hp).trans (stepBlendWrite_refused hr)
  · obtain ⟨k, hpaint⟩ := stepFill_paints hm hx hpos
    rw [engineStep_fill hp, hpaint, paintThen_refused (s := s.mark x y) hf hr k]
    exact ⟨rfl, rfl, rfl, rfl, rfl⟩
  · exact (engineStep_fill hp).trans (stepRows_pushes hce hroom)
  · have hfull : ¬s.HasRoom (s.pushesAt y c la lb) := fun h => h.elim hsome (Nat.not_le.2 hmany)
    obtain ⟨new, hover⟩ := stepRows_overflows hce hfull
    rw [(engineStep_fill hp).trans hover]
    exact ⟨rfl, rfl, rfl, rfl, rfl, rfl⟩

/-- Settles O36: the plots before the refused one are whole calls, and its access ends the command. -/
theorem lineStopsAtTheFirstRefusedPlot : Obligations.LineStopsAtTheFirstRefusedPlot :=
  fun _ _ _ _ => exec_line_refused

end Sys2Proof.Machine
end

section
/-! SUPPORT. Reset moves and the waiting machine (70_reset_and_hazards.md R291, R292): what the reset input does to memory,
and the engine's turn while no command runs. -/

namespace Sys2Proof.Machine

/-! ### The reset move (70_reset_and_hazards.md R291) -/

theorem step_reset {s : State} {lands : Bool} {rest : List Event} (he : s.events = .reset lands :: rest) :
    step s = .next (resetInput lands { s with events := rest }) :=
  step_of_events_cons he

/-- The access in flight is the engine's next one, whatever moves were still to come. -/
theorem resetInput_mem (lands : Bool) (rest : List Event) (s : State) :
    (resetInput lands { s with events := rest }).mem = if lands then (engineStep s).mem else s.mem := by
  have h := congrArg State.mem (engineStep_events (s := s) rest)
  cases lands with
  | false => rfl
  | true => exact h

/-- An access leaves memory alone unless it is a write. -/
theorem State.OneAccess.kept_or_written {s u : State} (h : s.OneAccess u) :
    u.mem = s.mem ∨ ∃ a v, u.trace = { kind := .write, addr := a, size := s.latch.fmt.bpp } :: s.trace ∧
      u.mem = storeLE s.mem a.toNat v s.latch.fmt.bpp := by
  rcases h with ⟨-, hmem⟩ | ⟨_, -, hmem, -⟩ | ⟨a, v, -, hmem, htrace⟩
  · exact .inl hmem
  · exact .inl hmem
  · exact .inr ⟨a, v, htrace, hmem⟩

/-- Settles O8: the reset input fixes the registers, and memory is the engine step's or as before, by whether the access
lands; that step makes at most one access. -/
theorem resetAbandonsTheCommandAndKeepsMemory : Obligations.ResetAbandonsTheCommandAndKeepsMemory := by
  intro s lands rest he
  have hmem := resetInput_mem lands rest s
  refine ⟨_, step_reset he, rfl, rfl, rfl, rfl, ?_, ?_, ?_, ?_⟩
  · rintro rfl
    exact hmem
  · rintro rfl
    exact hmem
  · intro hidle
    rw [hmem, engineStep_idle hidle, ite_self]
  · rw [hmem]
    cases lands with
    | false => exact .inl rfl
    | true => exact State.OneAccess.kept_or_written (engineStepMakesAtMostOneAccess s)

/-! ### The waiting machine (70_reset_and_hazards.md R292) -/

/-- Settles O57: the turn is the engine's, and an idle engine rests. -/
theorem idleMachineWaits : Obligations.IdleMachineWaits :=
  fun _ hidle he => (step_of_events_nil he).trans (engineTurn_idle hidle)

end Sys2Proof.Machine
end
